-- ==== Sys2Proof/Word.lean ====
section
/-! DEFINITION. The bit-vector types of the block: bytes of the buffer, 32-bit packed words, 16-bit record fields. -/

namespace Sys2Proof

/-- A byte of the buffer (00_scope.md R6: bits 7 to 0). -/
abbrev Byte := BitVec 8

/-- A packed word and an output value of VBU (00_scope.md R5 `WORD_BITS` = 32). -/
abbrev Word := BitVec 32

/-- The 16-bit field that starts every RLD element (30_encoding.md R47). -/
abbrev Half := BitVec 16

end Sys2Proof
end

