-- ==== Sys2Proof/Config.lean ====
section
/-! DEFINITION. What an implementation fixes (the two OPEN parameters of 00_scope.md R5) and the free values:
constants without a body, for what the spec leaves unspecified. The numbers R5 fixes stand in Machine/Params.lean. -/

namespace Sys2Proof

/-- The OPEN parameters of 00_scope.md R5, which a model takes as arguments (92_eei_decisions.md D9, D25).
They are fixed for a machine; the state carries them and no step changes them (log 8, log 9). -/
structure Params where
  /-- `RLE_EOS`, the end-of-stream sentinel of RLD, a negative i16. -/
  rleEos : Half
  /-- `ADDR_W`, the width in bits of an offset presented by the host, at least 1. -/
  addrW : Nat
deriving DecidableEq, Repr

/-- FREE VALUE (log 5): what a register holds that a command's start leaves unspecified (10_state.md R25), by the
number of the command start and the register's place in it. -/
opaque Config.unspecified : Nat → Nat → Nat

/-- FREE VALUE (log 6): what a scalar host-visible register returns outside its "valid when" condition (10_state.md
R20, R21; 93_implementation_defined.md U5), by the register's index and a number for the read. -/
opaque Config.invalidRead : Nat → Nat → Nat

/-- FREE VALUE (log 6): what `VBU_OUT` delivers when it is not valid to read (10_state.md R20). -/
opaque Config.invalidWords : Nat → List Word

/-- FREE VALUE (log 6): what `RLD_OUT` delivers when it is not valid to read (10_state.md R21). -/
opaque Config.invalidBytes : Nat → List Byte

end Sys2Proof
end

