-- ==== Sys2Proof/Machine/Params.lean ====
section
/-! DEFINITION. The numbers of 00_scope.md R5: the constants it fixes, the map SEL_WIDTH, and the defaults of the two
OPEN parameters. Each stands here once (93_implementation_defined.md U9, U14), so that one edit changes it. -/

namespace Sys2Proof

/-- `WORD_BITS` of R5. -/
def Config.wordBits : Nat := 32

/-- `BPV_MAX` of R5: the largest legal bits-per-value. -/
def Config.bpvMax : Nat := 32

/-- `RLE_MIN_BUDGET` of R5: the run loop goes on while the budget is at least this. -/
def Config.rleMinBudget : Int := 3

/-- The selector of a 4-byte count field (30_encoding.md R44; 92_eei_decisions.md D2; log 10). -/
def Config.selC32 : BitVec 2 := 0

/-- The selector of a 2-byte count field (30_encoding.md R44; D2; log 10). -/
def Config.selC16 : BitVec 2 := 1

/-- The selector of a 1-byte count field (30_encoding.md R44; D2; log 10). -/
def Config.selC8 : BitVec 2 := 2

/-- `SEL_WIDTH` of R5: the count field's width in bytes, none for the reserved selector (30_encoding.md R44;
92_eei_decisions.md D2, D3; log 10). -/
def Config.selWidth (sel : BitVec 2) : Option Nat :=
  if sel = Config.selC32 then some 4
  else if sel = Config.selC16 then some 2
  else if sel = Config.selC8 then some 1
  else none

/-- The defaults of the OPEN parameters: `RLE_EOS` = -32768 (00_scope.md R5; 92_eei_decisions.md D9; PRESUMED, log 8)
and `ADDR_W` = 32 (D25; log 9). -/
def Params.default : Params := { rleEos := 0x8000, addrW := 32 }

/-- The constraints on the OPEN parameters (92_eei_decisions.md, "Open parameters, gathered"): `RLE_EOS` is negative,
`ADDR_W` at least 1. -/
def Params.valid (p : Params) : Bool := p.rleEos.msb && decide (1 ≤ p.addrW)

end Sys2Proof
end

