-- ==== Sys2Proof/Syntax.lean ====
section
/-! DEFINITION. The instructions: the eight stream elements and the two host commands of spec/opcode_table.json, one
constructor a row. -/

namespace Sys2Proof

/-- One constructor per row of the opcode table. A stream element carries what its header byte or its 16-bit field
holds; its further bytes (count field, payload, literal bytes, repeat byte) have a length that is known only after
these are read (30_encoding.md R52), and its meaning fetches them from the buffer. -/
inductive Instr where
  /-- `VB.NONE`, format N (R46, R60): a block with no values; the selector is present and not examined. -/
  | vbNone (sel : BitVec 2)
  /-- `VB.RSV` (R54, R61): a reserved header. -/
  | vbRsv (sel : BitVec 2) (bpv : BitVec 6)
  /-- `VB.C32`, format C32 (R46, R62): a block with a 4-byte count. -/
  | vbC32 (bpv : BitVec 6)
  /-- `VB.C16`, format C16 (R46, R63): a block with a 2-byte count. -/
  | vbC16 (bpv : BitVec 6)
  /-- `VB.C8`, format C8 (R46, R64): a block with a 1-byte count. -/
  | vbC8 (bpv : BitVec 6)
  /-- `RL.LIT`, format L (R48, R77): a literal record; `cnt` as an i16, not negative. -/
  | rlLit (cnt : Half)
  /-- `RL.REP`, format R (R49, R78): a repeat record; `cnt` as an i16, negative. -/
  | rlRep (cnt : Half)
  /-- `RL.END`, format E (R50, R79): the end record. -/
  | rlEnd
  /-- `VBU.READ(offset)` (R86): host command, no encoding (R85). -/
  | vbuRead (offset : Nat)
  /-- `RLD.DECODE(offset, byteCount)` (R87): host command, no encoding (R85); `byteCount` is a u32. -/
  | rldDecode (offset : Nat) (byteCount : BitVec 32)
deriving DecidableEq, Repr

end Sys2Proof
end

