-- ==== Sys2Proof/WellFormed.lean ====
section
/-! DEFINITION. Which instruction terms stand for something the spec's encodings or commands can hold. -/

namespace Sys2Proof

/-- A bits-per-value that a block with values may have (30_encoding.md R46: `1..32`). -/
def bpvLegal (bpv : BitVec 6) : Bool := decide (1 ≤ bpv.toNat) && decide (bpv.toNat ≤ Config.bpvMax)

/-- The constraint column of spec/opcode_table.json, row by row; an offset is below `2^ADDR_W` (42_commands.md R86,
R87). -/
def Instr.wellFormed (p : Params) : Instr → Bool
  | .vbNone _ => true
  | .vbRsv sel bpv =>
    bpv != 0 && ((Config.selWidth sel).isNone || decide (Config.bpvMax < bpv.toNat))
  | .vbC32 bpv => bpvLegal bpv
  | .vbC16 bpv => bpvLegal bpv
  | .vbC8 bpv => bpvLegal bpv
  | .rlLit cnt => !cnt.msb
  | .rlRep cnt => cnt.msb
  | .rlEnd => true
  | .vbuRead offset => decide (offset < 2 ^ p.addrW)
  | .rldDecode offset _ => decide (offset < 2 ^ p.addrW)

/-- The instructions that are elements of a stream and have a bit encoding (30_encoding.md R42); the other two are
host commands (42_commands.md R85). -/
def Instr.isElement : Instr → Bool
  | .vbNone _ => true
  | .vbRsv _ _ => true
  | .vbC32 _ => true
  | .vbC16 _ => true
  | .vbC8 _ => true
  | .rlLit _ => true
  | .rlRep _ => true
  | .rlEnd => true
  | .vbuRead _ => false
  | .rldDecode _ _ => false

end Sys2Proof
end

