-- ==== Sys2Proof/Decode.lean ====
section
/-! DEFINITION. Decoding the first byte or field of a stream element in its context, and the encoder. -/

namespace Sys2Proof

/-- Where in a stream the bytes stand: what a pattern means is decided by position, not by its value
(30_encoding.md R50, R52). -/
inductive Context where
  /-- The byte at the offset given to `VBU.READ` (R43). -/
  | header
  /-- A 16-bit field in RLD's run loop, while the budget is at least 3 (R47, R52). -/
  | runLoop
  /-- The 16-bit field after RLD's run loop (R50). -/
  | afterLoop
deriving DecidableEq, Repr

/-- Why bytes are not the start of an element. -/
inductive DecodeError where
  /-- Fewer bytes than the header byte or the 16-bit field needs. -/
  | truncated
  /-- After the run loop, a 16-bit field other than `RLE_EOS` (R54 (e)). -/
  | notSentinel
deriving DecidableEq, Repr

/-- What decoding a byte sequence answers: an instruction and the bytes after its first byte or field, or a
rejection by name. -/
inductive Decoded where
  | ok (i : Instr) (rest : List Byte)
  | reject (e : DecodeError)
deriving DecidableEq, Repr

/-- `sel = h[7:6]` (30_encoding.md R43). -/
def headerSel (h : Byte) : BitVec 2 := h.extractLsb' 6 2

/-- `bpv = h[5:0]` (30_encoding.md R43). -/
def headerBpv (h : Byte) : BitVec 6 := h.extractLsb' 0 6

/-- The classification of `sel` and `bpv`, in the order of tests of 30_encoding.md R53. -/
def classify (sel : BitVec 2) (bpv : BitVec 6) : Instr :=
  if bpv = 0 then .vbNone sel
  else if Config.selWidth sel = none then .vbRsv sel bpv
  else if Config.bpvMax < bpv.toNat then .vbRsv sel bpv
  else if sel = Config.selC32 then .vbC32 bpv
  else if sel = Config.selC16 then .vbC16 bpv
  else .vbC8 bpv

/-- Decoding a VBU header byte (30_encoding.md R53). -/
def decodeHeader (h : Byte) : Instr := classify (headerSel h) (headerBpv h)

/-- Decoding a 16-bit field in the run loop: bit 15 is the discriminator (30_encoding.md R47, R53). -/
def decodeRecord (w : Half) : Instr := if w.msb then .rlRep w else .rlLit w

/-- The 16-bit field of two bytes, the lower address first (20_memory.md R31). -/
def halfOfBytes (lo hi : Byte) : Half := hi ++ lo

/-- The byte at the lower address of a 16-bit field. -/
def halfLow (w : Half) : Byte := w.extractLsb' 0 8

/-- The byte at the higher address of a 16-bit field. -/
def halfHigh (w : Half) : Byte := w.extractLsb' 8 8

/-- Decoding the start of an element in its context; total on any bytes. -/
def decode (p : Params) : Context → List Byte → Decoded
  | .header, h :: rest => .ok (decodeHeader h) rest
  | .runLoop, lo :: hi :: rest => .ok (decodeRecord (halfOfBytes lo hi)) rest
  | .afterLoop, lo :: hi :: rest =>
    if halfOfBytes lo hi = p.rleEos then .ok .rlEnd rest else .reject .notSentinel
  | .header, [] => .reject .truncated
  | .runLoop, [] => .reject .truncated
  | .runLoop, [_] => .reject .truncated
  | .afterLoop, [] => .reject .truncated
  | .afterLoop, [_] => .reject .truncated

/-- The context in which an element of this kind stands; a host command has none (42_commands.md R85). -/
def Instr.context : Instr → Option Context
  | .vbNone _ => some .header
  | .vbRsv _ _ => some .header
  | .vbC32 _ => some .header
  | .vbC16 _ => some .header
  | .vbC8 _ => some .header
  | .rlLit _ => some .runLoop
  | .rlRep _ => some .runLoop
  | .rlEnd => some .afterLoop
  | .vbuRead _ => none
  | .rldDecode _ _ => none

/-- The header byte with fields `sel` in bits 7:6 and `bpv` in bits 5:0 (30_encoding.md R43). -/
def headerByte (sel : BitVec 2) (bpv : BitVec 6) : Byte := sel ++ bpv

/-- The first byte or field of an element, as bytes in address order (30_encoding.md R46 to R50); a host command
has no encoding (R85). -/
def encode (p : Params) : Instr → List Byte
  | .vbNone sel => [headerByte sel 0]
  | .vbRsv sel bpv => [headerByte sel bpv]
  | .vbC32 bpv => [headerByte Config.selC32 bpv]
  | .vbC16 bpv => [headerByte Config.selC16 bpv]
  | .vbC8 bpv => [headerByte Config.selC8 bpv]
  | .rlLit cnt => [halfLow cnt, halfHigh cnt]
  | .rlRep cnt => [halfLow cnt, halfHigh cnt]
  | .rlEnd => [halfLow p.rleEos, halfHigh p.rleEos]
  | .vbuRead _ => []
  | .rldDecode _ _ => []

/-- How many bytes of an element its row of the opcode table gives bits to. -/
def Instr.tableBytes : Instr → Nat
  | .vbNone _ => 1
  | .vbRsv _ _ => 1
  | .vbC32 _ => 1
  | .vbC16 _ => 1
  | .vbC8 _ => 1
  | .rlLit _ => 2
  | .rlRep _ => 2
  | .rlEnd => 2
  | .vbuRead _ => 0
  | .rldDecode _ _ => 0

/-- Byte `k` of a number, byte 0 the least significant. -/
def byteOfNat (w k : Nat) : Byte := BitVec.ofNat 8 (w / 2 ^ (8 * k))

/-- The bytes of a row of `nbits` bits, the lowest address first (spec/opcode_table.json numbers bit 0 as the least
significant; 20_memory.md R31). -/
def tableBytes (nbits w : Nat) : List Byte := (List.range (nbits / 8)).map (byteOfNat w)

/-- The instruction a decoded byte sequence names, if any. -/
def Decoded.instr? : Decoded → Option Instr
  | .ok i _ => some i
  | .reject _ => none

/-- The instruction of a table word. Eight bits are a header byte. Sixteen bits are an RLD field: the one pattern
`RLE_EOS` (with its default) is read as the end record, every other as a run record, since the table gives no context
(log 17). A row of no bits (a host command) has no word to decode. -/
def decodeTableWord (nbits w : Nat) : Option Instr :=
  if nbits = 8 then (decode Params.default .header (tableBytes 8 w)).instr?
  else if nbits = 16 then
    match decode Params.default .afterLoop (tableBytes 16 w) with
    | .ok i _ => some i
    | .reject _ => (decode Params.default .runLoop (tableBytes 16 w)).instr?
  else none

end Sys2Proof
end

