-- ==== Sys2Proof/Machine/State.lean ====
section
/-! DEFINITION. The state of the block as plain data, the reasons a step can stop, and the state after reset. -/

namespace Sys2Proof.Machine

/-- The phases of VBU (10_state.md R14, R18). -/
inductive VbuPhase where
  | idle
  | hdr
  | cnt
  | unpack
  | done
  | fault
deriving DecidableEq, Repr

/-- The phases of RLD (10_state.md R15, R18). -/
inductive RldPhase where
  | idle
  | head
  | lit
  | rep
  | endRec
  | done
  | fault
deriving DecidableEq, Repr

/-- The error kinds an `err` register can hold (60_exceptions.md R97). -/
inductive ErrKind where
  /-- `NONE`: no fault. -/
  | none
  /-- `FormatError`: reserved, never raised by this block (R95). -/
  | formatError
  /-- `TruncatedBuffer` (R94). -/
  | truncatedBuffer
  /-- `CorruptStream` (R96). -/
  | corruptStream
deriving DecidableEq, Repr

/-- What the host does in one step (00_scope.md R11; 42_commands.md R85, R92; log 3). -/
inductive HostEvent where
  /-- The host does nothing. -/
  | idle
  /-- The host polls the status and goes on only when no unit is busy (70_reset_and_hazards.md R115). -/
  | await
  /-- The host presents the command `VBU.READ(offset)`. -/
  | vbuRead (offset : Nat)
  /-- The host presents the command `RLD.DECODE(offset, byteCount)`. -/
  | rldDecode (offset : Nat) (byteCount : BitVec 32)
  /-- The host replaces the whole buffer (20_memory.md R41). -/
  | load (bytes : List Byte)
  /-- The host resets the block (70_reset_and_hazards.md R107, R108). -/
  | reset
deriving DecidableEq, Repr

/-- The input buffer `BUF` with its length `BUF_LEN` (00_scope.md R5; 20_memory.md R28): addresses `0 .. len-1`
exist; one that `cells` does not list holds the byte 0 (log 2). -/
structure Memory where
  /-- The bytes that are not 0, by strictly rising address. -/
  cells : List Host.Cell
  /-- `BUF_LEN`. -/
  len : Nat
deriving DecidableEq, Repr

/-- The registers of VBU (10_state.md R14) and its output sequence (R17). -/
structure VbuRegs where
  /-- Where the unit is in a command. -/
  phase : VbuPhase
  /-- Address of the next buffer byte to read. -/
  cur : Nat
  /-- Header byte bits 7:6. -/
  sel : BitVec 2
  /-- Header byte bits 5:0. -/
  bpv : BitVec 6
  /-- Value of the count field. -/
  count : BitVec 32
  /-- Number of values emitted so far. -/
  idx : Nat
  /-- `VBU.end`: address one past the last payload byte. -/
  endAddr : Nat
  /-- The cursor word. -/
  word : Word
  /-- Bits remaining in the cursor word. -/
  rem : Nat
  /-- 1 exactly when the outcome is `absent`. -/
  absent : Bool
  /-- The result `newOffset`. -/
  newoff : Nat
  /-- Error kind of the last command. -/
  err : ErrKind
  /-- Fault address (60_exceptions.md R98). -/
  faddr : Nat
  /-- `VBU.OUT`, first element first. -/
  out : List Word
deriving DecidableEq, Repr

/-- The registers of RLD (10_state.md R15) and its output sequence (R17). -/
structure RldRegs where
  /-- Where the unit is in a command. -/
  phase : RldPhase
  /-- Address of the next buffer byte to read. -/
  cur : Nat
  /-- Bytes of the declared `byteCount` not yet consumed; it may become negative (41_rld.md R81). -/
  budget : Int
  /-- The count of the record being executed, an i16. -/
  cnt : Half
  /-- Bytes of the current run still to emit. -/
  left : Nat
  /-- The byte a repeat record replicates. -/
  rbyte : Byte
  /-- Address just past the sentinel, set on DONE. -/
  endcur : Nat
  /-- Error kind of the last command. -/
  err : ErrKind
  /-- Fault address (60_exceptions.md R98). -/
  faddr : Nat
  /-- `RLD.OUT`, first element first. -/
  out : List Byte
deriving DecidableEq, Repr

/-- The block (10_state.md R13), with the inputs of its step relation (the buffer and the parameters, log 1) and the
host's actions to come (log 3). -/
structure State where
  /-- The registers of VBU. -/
  vbu : VbuRegs
  /-- The registers of RLD. -/
  rld : RldRegs
  /-- The buffer; neither unit writes it (20_memory.md R29). -/
  mem : Memory
  /-- The OPEN parameters; no step changes them. -/
  params : Params
  /-- MODEL's own: what the host does in the steps to come, one event a step (log 3). -/
  host : List HostEvent
  /-- MODEL's own: the number of command starts so far, which picks their free values (log 5). -/
  free : Nat
deriving DecidableEq, Repr

/-- Why the machine stops with a fault. A fault of the SPEC is none of these: it is a next state in phase FAULT
(60_exceptions.md R99, R106). Each of these stops a state that no run from reset reaches; each is safe (log 14). -/
inductive Fault where
  /-- Raised by the meanings of VBU blocks and RLD records where the unit's registers match no row of the transition
  tables (40_vbu.md R72, 41_rld.md R84): `idx` not below `count` in UNPACK, `left` = 0 in LIT or REP. Safe. -/
  | noTransition
  /-- Raised by the word fetch of VBU when its precondition `cur < end <= BUF_LEN` (40_vbu.md R58) fails. Safe. -/
  | fetchOutsidePayload
  /-- Raised by the meaning of `RL.LIT` in phase LIT when `BUF[cur]` is not defined (00_scope.md R8). Safe. -/
  | literalOutsideBuffer
deriving DecidableEq, Repr

/-- Why a step has no meaning. -/
inductive Refusal where
  /-- Raised by the dispatcher for an instruction that has no meaning yet. Safe. -/
  | notModelled (mnemonic : String)
  /-- Raised by the two commands while a unit is busy (42_commands.md R85; 93_implementation_defined.md U3; log 11).
  Safe. -/
  | commandWhileBusy
  /-- Raised by the two commands for an offset that ADDR_W bits do not hold (42_commands.md R86, R87; log 9). Safe. -/
  | offsetTooWide
  /-- Raised by the step when the host replaces the buffer while a unit is busy (20_memory.md R41; U4; log 12).
  Safe. -/
  | bufferChangedWhileBusy
  /-- Raised by the step when the host loads more than `2^ADDR_W` bytes (70_reset_and_hazards.md R109; log 9). Safe. -/
  | bufferTooLong
  /-- Raised by the step when both units are busy (70_reset_and_hazards.md R112; log 13). Safe. -/
  | bothUnitsBusy
  /-- Raised by the meaning of a stream element that is not the one its unit is to execute next: no command is
  running, or the phase, the budget or the registers call for another element (log 15). Safe. -/
  | elementNotDue
deriving DecidableEq, Repr

/-- The registers of VBU after reset (10_state.md R24): phase IDLE, err NONE, absent 0, OUT empty; every other
register is unspecified there and 0 here (DESIGN CHOICE, log 4). -/
def VbuRegs.reset : VbuRegs :=
  { phase := .idle, cur := 0, sel := 0, bpv := 0, count := 0, idx := 0, endAddr := 0, word := 0, rem := 0,
    absent := false, newoff := 0, err := .none, faddr := 0, out := [] }

/-- The registers of RLD after reset (10_state.md R24): phase IDLE, err NONE, OUT empty; every other register is
unspecified there and 0 here (DESIGN CHOICE, log 4). -/
def RldRegs.reset : RldRegs :=
  { phase := .idle, cur := 0, budget := 0, cnt := 0, left := 0, rbyte := 0, endcur := 0, err := .none, faddr := 0,
    out := [] }

/-- The machine right after reset (10_state.md R24, 70_reset_and_hazards.md R107), with an empty buffer (log 2), the
default parameters (log 8, log 9) and nothing yet from the host (log 16). -/
def State.reset : State :=
  { vbu := VbuRegs.reset, rld := RldRegs.reset, mem := { cells := [], len := 0 }, params := Params.default,
    host := [], free := 0 }

end Sys2Proof.Machine
end

