-- ==== Sys2Proof/Machine/Ops.lean ====
section
/-! DEFINITION. The shared operations: reads of the buffer, updates of the state, emission, taking a fault, starting a
command, reset. -/

namespace Sys2Proof.Machine

/-- The byte the list gives at an address; 0 where it lists none (log 2). -/
def cellAt : List Host.Cell → Nat → Byte
  | [], _ => 0
  | (k, b) :: rest, a => if k = a then b else cellAt rest a

/-- `BUF[a]` (00_scope.md R8), where it is defined: `0 <= a < BUF_LEN`. -/
def Memory.byte? (m : Memory) (a : Nat) : Option Byte := if a < m.len then some (cellAt m.cells a) else none

/-- `BUF[a]` as a number; used at addresses below `BUF_LEN` only. -/
def Memory.byteVal (m : Memory) (a : Nat) : Nat := (cellAt m.cells a).toNat

/-- The `n` bytes from `a` as one little-endian number (20_memory.md R30, R31). -/
def Memory.leValue (m : Memory) (a : Nat) : Nat → Nat
  | 0 => 0
  | n + 1 => m.leValue a n + m.byteVal (a + n) * 2 ^ (8 * n)

/-- `MemRead(a, n)` (20_memory.md R30): all `n` bytes or none; none where the rule raises `TruncatedBuffer(a)`. -/
def Memory.read (m : Memory) (a n : Nat) : Option Nat :=
  if m.len < a + n then none else some (m.leValue a n)

/-- The bytes at `a .. a+n-1` that the buffer has, in address order: what the decoder is given. -/
def Memory.window (m : Memory) (a : Nat) : Nat → List Byte
  | 0 => []
  | n + 1 => if a < m.len then cellAt m.cells a :: m.window (a + 1) n else []

/-- The cells of a sequence of bytes placed from an address on; a byte 0 gets no cell (log 2). -/
def cellsFrom : Nat → List Byte → List Host.Cell
  | _, [] => []
  | a, b :: rest => if b = 0 then cellsFrom (a + 1) rest else (a, b) :: cellsFrom (a + 1) rest

/-- The buffer that holds exactly these bytes (20_memory.md R28). -/
def Memory.ofBytes (bytes : List Byte) : Memory := { cells := cellsFrom 0 bytes, len := bytes.length }

/-- The addresses of a list of cells rise strictly from a bound and lie below a limit, and no cell holds 0. -/
def cellsOk (limit : Nat) : Nat → List Host.Cell → Bool
  | _, [] => true
  | from', (k, b) :: rest => decide (from' ≤ k) && decide (k < limit) && b != 0 && cellsOk limit (k + 1) rest

/-- The canonical form of a buffer: cells by strictly rising address, each below `BUF_LEN`, none holding the byte an
unlisted address holds. -/
def Memory.wf (m : Memory) : Bool := cellsOk m.len 0 m.cells

/-- Replaces the registers of VBU. -/
def State.setVbu (s : State) (v : VbuRegs) : State := { s with vbu := v }

/-- Replaces the registers of RLD. -/
def State.setRld (s : State) (r : RldRegs) : State := { s with rld := r }

/-- Replaces the buffer (a host action; no unit does it, 20_memory.md R29). -/
def State.setMem (s : State) (m : Memory) : State := { s with mem := m }

/-- Replaces the host's actions to come. -/
def State.setHost (s : State) (h : List HostEvent) : State := { s with host := h }

/-- Counts one more command start (log 5). -/
def State.tickFree (s : State) : State := { s with free := s.free + 1 }

/-- A busy phase of VBU (10_state.md R18). -/
def VbuPhase.busy : VbuPhase → Bool
  | .hdr => true
  | .cnt => true
  | .unpack => true
  | .idle => false
  | .done => false
  | .fault => false

/-- A busy phase of RLD (10_state.md R18). -/
def RldPhase.busy : RldPhase → Bool
  | .head => true
  | .lit => true
  | .rep => true
  | .endRec => true
  | .idle => false
  | .done => false
  | .fault => false

/-- A unit is busy (42_commands.md R85; 70_reset_and_hazards.md R112). -/
def State.busy (s : State) : Bool := s.vbu.phase.busy || s.rld.phase.busy

/-- `Emit(VBU, v)` (00_scope.md R8; 10_state.md R17). -/
def VbuRegs.emit (v : VbuRegs) (x : Word) : VbuRegs := { v with out := v.out ++ [x] }

/-- `Emit(RLD, b)` (00_scope.md R8; 10_state.md R17). -/
def RldRegs.emit (r : RldRegs) (b : Byte) : RldRegs := { r with out := r.out ++ [b] }

/-- Taking a fault in VBU, `raise K(a)` (60_exceptions.md R99): in place of every other write of the step. -/
def State.vbuRaise (s : State) (k : ErrKind) (a : Nat) : State :=
  s.setVbu { s.vbu with err := k, faddr := a, out := [], phase := .fault, absent := false }

/-- Taking a fault in RLD, `raise K(a)` (60_exceptions.md R99): in place of every other write of the step. -/
def State.rldRaise (s : State) (k : ErrKind) (a : Nat) : State :=
  s.setRld { s.rld with err := k, faddr := a, out := [], phase := .fault }

/-- The start of `VBU.READ(offset)` (10_state.md R25, 42_commands.md R86). The registers R25 names get its values;
every other VBU register becomes unspecified, a free value within its width (log 5). -/
def State.startVbu (s : State) (offset : Nat) : State :=
  (s.setVbu
    { phase := .hdr, cur := offset, absent := false, err := .none, out := []
      sel := BitVec.ofNat 2 (Config.unspecified s.free 0)
      bpv := BitVec.ofNat 6 (Config.unspecified s.free 1)
      count := BitVec.ofNat 32 (Config.unspecified s.free 2)
      idx := Config.unspecified s.free 3 % 2 ^ 32
      endAddr := Config.unspecified s.free 4
      word := BitVec.ofNat 32 (Config.unspecified s.free 5)
      rem := Config.unspecified s.free 6 % 2 ^ 6
      newoff := Config.unspecified s.free 7
      faddr := Config.unspecified s.free 8 }).tickFree

/-- The start of `RLD.DECODE(offset, byteCount)` (10_state.md R25, 41_rld.md R74, 42_commands.md R87). The registers
R25 names get its values; every other RLD register becomes unspecified, a free value within its width (log 5). -/
def State.startRld (s : State) (offset : Nat) (byteCount : BitVec 32) : State :=
  (s.setRld
    { phase := .head, cur := offset, budget := byteCount.toNat, err := .none, out := []
      cnt := BitVec.ofNat 16 (Config.unspecified s.free 0)
      left := Config.unspecified s.free 1 % 2 ^ 16
      rbyte := BitVec.ofNat 8 (Config.unspecified s.free 2)
      endcur := Config.unspecified s.free 3
      faddr := Config.unspecified s.free 4 }).tickFree

/-- The check both commands make before they start a unit: no unit is busy (42_commands.md R85; U3) and the offset is
one that ADDR_W bits hold (42_commands.md R86, R87). None means the command is accepted. -/
def State.commandRefusal (s : State) (offset : Nat) : Option Refusal :=
  if s.busy then some .commandWhileBusy
  else if 2 ^ s.params.addrW ≤ offset then some .offsetTooWide
  else none

/-- Reset of the block by the host (70_reset_and_hazards.md R107, R108): both units take their reset values, a running
command has no outcome, the buffer is not affected (log 18). -/
def State.resetUnits (s : State) : State := (s.setVbu VbuRegs.reset).setRld RldRegs.reset

end Sys2Proof.Machine
end

