-- ==== Sys2Proof/Machine/Commands.lean ====
section
/-! DEFINITION. The meanings of the two host commands (42_commands.md R85 to R87). -/

namespace Sys2Proof.Machine

/-- `VBU.READ(offset)` (R86): starts VBU when no unit is busy. -/
def execVbuRead (offset : Nat) (s : State) : Host.Outcome State Fault Refusal :=
  match s.commandRefusal offset with
  | some r => .refused r
  | none => .next (s.startVbu offset)

/-- `RLD.DECODE(offset, byteCount)` (R87): starts RLD when no unit is busy. -/
def execRldDecode (offset : Nat) (byteCount : BitVec 32) (s : State) : Host.Outcome State Fault Refusal :=
  match s.commandRefusal offset with
  | some r => .refused r
  | none => .next (s.startRld offset byteCount)

end Sys2Proof.Machine
end

