-- ==== Sys2Proof/Machine/Operands.lean ====
section
/-! DEFINITION. Every operand of 30_encoding.md R51, and the two ways VBU gets its bits: the word fetch (40_vbu.md R66,
R67) and the slice of a word (R68). -/

namespace Sys2Proof.Machine

/-- `v[lo+width-1 : lo]` as a number; a slice of no bits is 0 (00_scope.md R6). -/
def slice (v lo width : Nat) : Nat := v / 2 ^ lo % 2 ^ width

/-- The payload length `T = ceil(count * bpv / 8)`, exact (30_encoding.md R45, R51; 00_scope.md R7). -/
def payloadLen (count bpv : Nat) : Nat := (count * bpv + 7) / 8

/-- The tail word of `k` bytes (1, 2 or 3): the `k` high-order bytes of the word, its low `8*(4-k)` bits 0
(40_vbu.md R67). -/
def tailWord (m : Memory) (cur k : Nat) : Word := BitVec.ofNat 32 (m.leValue cur k * 2 ^ (8 * (4 - k)))

/-- `FetchWord(cur, end)` (40_vbu.md R58, R66, R67) without its precondition: a full word, or the tail word, and the
cursor after it. -/
def fetchWordAt (m : Memory) (cur e : Nat) : Word × Nat :=
  if 4 ≤ e - cur then (BitVec.ofNat 32 (m.leValue cur 4), cur + 4) else (tailWord m cur (e - cur), e)

/-- `FetchWord(cur, end)` under its precondition `cur < end <= BUF_LEN` (40_vbu.md R58). -/
def fetchWord (m : Memory) (cur e : Nat) : Option (Word × Nat) :=
  if cur < e ∧ e ≤ m.len then some (fetchWordAt m cur e) else none

/-- A value that lies in the current word: `word[rem-1 : rem-bpv]` (40_vbu.md R68). -/
def valueInWord (word : Word) (rem bpv : Nat) : Word := BitVec.ofNat 32 (slice word.toNat (rem - bpv) bpv)

/-- A value that spans into the next word: `word[rem-1 : 0] * 2^need + w2[31 : 32-need]` with `need = bpv - rem`
(40_vbu.md R68). -/
def valueAcross (word w2 : Word) (rem bpv : Nat) : Word :=
  BitVec.ofNat 32
    (slice word.toNat 0 rem * 2 ^ (bpv - rem) + slice w2.toNat (Config.wordBits - (bpv - rem)) (bpv - rem))

/-- The length of a literal run: `cnt`, for `cnt >= 0` (30_encoding.md R51). -/
def literalLen (cnt : Half) : Nat := cnt.toNat

/-- The length of a repeat run: `-cnt`, for `cnt < 0`, exact; `-32768` gives `32768` (30_encoding.md R51; 41_rld.md
R78). -/
def repeatLen (cnt : Half) : Nat := (-cnt.toInt).toNat

/-- The budget cost of a literal record (30_encoding.md R51; 41_rld.md R77). -/
def literalCost (cnt : Half) : Int := 2 + literalLen cnt

/-- The budget cost of a repeat record (30_encoding.md R51; 41_rld.md R78). -/
def repeatCost : Int := 3

end Sys2Proof.Machine
end

