-- ==== Sys2Proof/Machine/Rld.lean ====
section
/-! DEFINITION. The meanings of the RLD records (41_rld.md R75 to R84). One call of a meaning is one row of the
transition table R84: the row of the phase the unit is in (log 20). -/

namespace Sys2Proof.Machine

/-- The phase after a byte of a run was emitted with `left` bytes still to emit before it: HEAD after the last
(41_rld.md R84). -/
def runPhase (p : RldPhase) (left : Nat) : RldPhase := if left = 1 then .head else p

/-- `RL.LIT` in phase HEAD (R76, R77): the count is consumed, the whole run is checked first, the budget pays for the
record. -/
def startLiteral (cnt : Half) (s : State) : State :=
  let cur := s.rld.cur + 2
  if s.mem.len < cur + literalLen cnt then s.rldRaise .truncatedBuffer cur
  else
    s.setRld { s.rld with
      cnt := cnt, cur := cur, left := literalLen cnt, budget := s.rld.budget - literalCost cnt
      phase := if literalLen cnt = 0 then .head else .lit }

/-- `RL.REP` in phase HEAD (R76, R78): the count and the byte to repeat are consumed, the budget pays for the record. -/
def startRepeat (cnt : Half) (s : State) : State :=
  let cur := s.rld.cur + 2
  match s.mem.byte? cur with
  | none => s.rldRaise .truncatedBuffer cur
  | some b =>
    s.setRld { s.rld with
      cnt := cnt, cur := cur + 1, rbyte := b, left := repeatLen cnt, budget := s.rld.budget - repeatCost
      phase := .rep }

/-- `RL.LIT` in phase LIT (R77): one byte of the run. -/
def literalByte (s : State) : Host.Outcome State Fault Refusal :=
  if s.rld.left = 0 then .fault .noTransition
  else
    match s.mem.byte? s.rld.cur with
    | none => .fault .literalOutsideBuffer
    | some b =>
      .next (s.setRld { s.rld.emit b with
        cur := s.rld.cur + 1, left := s.rld.left - 1, phase := runPhase .lit s.rld.left })

/-- `RL.REP` in phase REP (R78): one byte of the run. -/
def repeatByte (s : State) : Host.Outcome State Fault Refusal :=
  if s.rld.left = 0 then .fault .noTransition
  else
    .next (s.setRld { s.rld.emit s.rld.rbyte with left := s.rld.left - 1, phase := runPhase .rep s.rld.left })

/-- `RL.LIT` (R76, R77): due in HEAD while the budget is at least 3 (R75), and in LIT with its own count. -/
def execRlLit (cnt : Half) (s : State) : Host.Outcome State Fault Refusal :=
  match s.rld.phase with
  | .head => if s.rld.budget < Config.rleMinBudget then .refused .elementNotDue else .next (startLiteral cnt s)
  | .lit => if s.rld.cnt = cnt then literalByte s else .refused .elementNotDue
  | .rep => .refused .elementNotDue
  | .endRec => .refused .elementNotDue
  | .idle => .refused .elementNotDue
  | .done => .refused .elementNotDue
  | .fault => .refused .elementNotDue

/-- `RL.REP` (R76, R78): due in HEAD while the budget is at least 3 (R75), and in REP with its own count. -/
def execRlRep (cnt : Half) (s : State) : Host.Outcome State Fault Refusal :=
  match s.rld.phase with
  | .head => if s.rld.budget < Config.rleMinBudget then .refused .elementNotDue else .next (startRepeat cnt s)
  | .rep => if s.rld.cnt = cnt then repeatByte s else .refused .elementNotDue
  | .lit => .refused .elementNotDue
  | .endRec => .refused .elementNotDue
  | .idle => .refused .elementNotDue
  | .done => .refused .elementNotDue
  | .fault => .refused .elementNotDue

/-- The check of the end record (R79): the sentinel at the cursor, bound-checked against the buffer only. The cursor
stays; `endcur` is the address after the sentinel. -/
def checkSentinel (s : State) : State :=
  match s.mem.read s.rld.cur 2 with
  | none => s.rldRaise .truncatedBuffer s.rld.cur
  | some w =>
    if BitVec.ofNat 16 w = s.params.rleEos then
      s.setRld { s.rld with endcur := s.rld.cur + 2, phase := .done }
    else s.rldRaise .corruptStream s.rld.cur

/-- `RL.END` (R79): due in phase END, whatever the bytes there are (30_encoding.md R52). -/
def execRlEnd (s : State) : Host.Outcome State Fault Refusal :=
  match s.rld.phase with
  | .endRec => .next (checkSentinel s)
  | .head => .refused .elementNotDue
  | .lit => .refused .elementNotDue
  | .rep => .refused .elementNotDue
  | .idle => .refused .elementNotDue
  | .done => .refused .elementNotDue
  | .fault => .refused .elementNotDue

end Sys2Proof.Machine
end

