-- ==== Sys2Proof/Machine/Vbu.lean ====
section
/-! DEFINITION. The meanings of the VBU elements (40_vbu.md R59 to R72). One call of a meaning is one row of the
transition table R72: the row of the phase the unit is in (log 20). -/

namespace Sys2Proof.Machine

/-- R59's writes: the header's fields, and the cursor past the header byte. -/
def VbuRegs.takeHeader (v : VbuRegs) (sel : BitVec 2) (bpv : BitVec 6) : VbuRegs :=
  { v with bpv := bpv, sel := sel, cur := v.cur + 1 }

/-- Completion with values (R69): `newoff <- end`, phase DONE. -/
def VbuRegs.complete (v : VbuRegs) : VbuRegs := { v with newoff := v.endAddr, phase := .done }

/-- Phase CNT with a count field of `n` bytes (R62, R63, R64, then R65, and R69 when the count is 0). -/
def loadCount (n : Nat) (s : State) : Host.Outcome State Fault Refusal :=
  match s.mem.read s.vbu.cur n with
  | none => .next (s.vbuRaise .truncatedBuffer s.vbu.cur)
  | some c =>
    let base := s.vbu.cur + n
    let e := base + payloadLen c s.vbu.bpv.toNat
    let v : VbuRegs := { s.vbu with count := BitVec.ofNat 32 c, cur := base, endAddr := e, idx := 0 }
    if s.mem.len < e then .next (s.vbuRaise .truncatedBuffer base)
    else if c = 0 then .next (s.setVbu v.complete)
    else
      match fetchWord s.mem base e with
      | none => .fault .fetchOutsidePayload
      | some (w, cur') =>
        .next (s.setVbu { v with word := w, cur := cur', rem := Config.wordBits, phase := .unpack })

/-- The end of an unpack step (R68): emit, count the value, and complete (R69) after the last. -/
def VbuRegs.finishValue (v : VbuRegs) (x : Word) : VbuRegs :=
  let v' : VbuRegs := { v.emit x with idx := v.idx + 1 }
  if v.idx + 1 = v.count.toNat then v'.complete else v'

/-- Phase UNPACK: one value (R68). -/
def unpackStep (s : State) : Host.Outcome State Fault Refusal :=
  let v := s.vbu
  let bpv := v.bpv.toNat
  if v.count.toNat ≤ v.idx then .fault .noTransition
  else if bpv ≤ v.rem then
    .next (s.setVbu ({ v with rem := v.rem - bpv }.finishValue (valueInWord v.word v.rem bpv)))
  else
    match fetchWord s.mem v.cur v.endAddr with
    | none => .fault .fetchOutsidePayload
    | some (w2, cur') =>
      .next (s.setVbu ({ v with cur := cur', word := w2, rem := Config.wordBits - (bpv - v.rem) }.finishValue
        (valueAcross v.word w2 v.rem bpv)))

/-- A block with values, selector `sel`, count field of `n` bytes: its row in each busy phase of VBU. In CNT and
UNPACK it is due when the header registers are its own. -/
def runCounted (sel : BitVec 2) (n : Nat) (bpv : BitVec 6) (s : State) : Host.Outcome State Fault Refusal :=
  match s.vbu.phase with
  | .hdr => .next (s.setVbu { s.vbu.takeHeader sel bpv with phase := .cnt })
  | .cnt => if s.vbu.sel = sel ∧ s.vbu.bpv = bpv then loadCount n s else .refused .elementNotDue
  | .unpack => if s.vbu.sel = sel ∧ s.vbu.bpv = bpv then unpackStep s else .refused .elementNotDue
  | .idle => .refused .elementNotDue
  | .done => .refused .elementNotDue
  | .fault => .refused .elementNotDue

/-- `VB.NONE` (R59, R60): outcome absent; nothing after the header byte is read. -/
def execVbNone (sel : BitVec 2) (s : State) : Host.Outcome State Fault Refusal :=
  match s.vbu.phase with
  | .hdr =>
    let v := s.vbu.takeHeader sel 0
    .next (s.setVbu { v with absent := true, newoff := v.cur, phase := .done })
  | .cnt => .refused .elementNotDue
  | .unpack => .refused .elementNotDue
  | .idle => .refused .elementNotDue
  | .done => .refused .elementNotDue
  | .fault => .refused .elementNotDue

/-- `VB.RSV` (R61): takes the fault CorruptStream at the header's address. The header's fields are not written, since
a raise stands in place of every other write of its step (60_exceptions.md R99; log 7), so they do not enter here. -/
def execVbRsv (s : State) : Host.Outcome State Fault Refusal :=
  match s.vbu.phase with
  | .hdr => .next (s.vbuRaise .corruptStream s.vbu.cur)
  | .cnt => .refused .elementNotDue
  | .unpack => .refused .elementNotDue
  | .idle => .refused .elementNotDue
  | .done => .refused .elementNotDue
  | .fault => .refused .elementNotDue

/-- `VB.C32` (R59, R62, R65 to R69): a block with a 4-byte count. -/
def execVbC32 (bpv : BitVec 6) (s : State) : Host.Outcome State Fault Refusal := runCounted Config.selC32 4 bpv s

/-- `VB.C16` (R59, R63, R65 to R69): a block with a 2-byte count. -/
def execVbC16 (bpv : BitVec 6) (s : State) : Host.Outcome State Fault Refusal := runCounted Config.selC16 2 bpv s

/-- `VB.C8` (R59, R64, R65 to R69): a block with a 1-byte count. -/
def execVbC8 (bpv : BitVec 6) (s : State) : Host.Outcome State Fault Refusal := runCounted Config.selC8 1 bpv s

end Sys2Proof.Machine
end

