-- ==== Sys2Proof/Machine/Dispatch.lean ====
section
/-! DEFINITION. One arm per instruction. -/

namespace Sys2Proof.Machine

def exec (i : Instr) (s : State) : Host.Outcome State Fault Refusal :=
  match i with
  | .vbNone sel => Sys2Proof.Machine.execVbNone sel s
  | .vbRsv _ _ => Sys2Proof.Machine.execVbRsv s
  | .vbC32 bpv => Sys2Proof.Machine.execVbC32 bpv s
  | .vbC16 bpv => Sys2Proof.Machine.execVbC16 bpv s
  | .vbC8 bpv => Sys2Proof.Machine.execVbC8 bpv s
  | .rlLit cnt => Sys2Proof.Machine.execRlLit cnt s
  | .rlRep cnt => Sys2Proof.Machine.execRlRep cnt s
  | .rlEnd => Sys2Proof.Machine.execRlEnd s
  | .vbuRead offset => Sys2Proof.Machine.execVbuRead offset s
  | .rldDecode offset byteCount => Sys2Proof.Machine.execRldDecode offset byteCount s

end Sys2Proof.Machine
end

