-- ==== Sys2Proof/Machine/Fetch.lean ====
section
/-! DEFINITION. What a step is to do: the host's event, then the element the busy unit is at, fetched from the buffer
and decoded. -/

namespace Sys2Proof.Machine

/-- What a step is to do. -/
inductive Due where
  /-- Run this instruction in this state. -/
  | run (i : Instr) (s : State)
  /-- The step is this change alone; no instruction runs. -/
  | go (s : State)
  /-- The step has no meaning. -/
  | stop (r : Refusal)
deriving DecidableEq, Repr

/-- The rows of 40_vbu.md R72 for a busy VBU: in HDR the header byte is fetched and decoded (R59), in CNT and UNPACK
the element is the one the header registers hold. -/
def vbuDue (s : State) : Due :=
  match s.vbu.phase with
  | .hdr =>
    match decode s.params .header (s.mem.window s.vbu.cur 1) with
    | .ok i _ => .run i s
    | .reject _ => .go (s.vbuRaise .truncatedBuffer s.vbu.cur)
  | .cnt => .run (classify s.vbu.sel s.vbu.bpv) s
  | .unpack => .run (classify s.vbu.sel s.vbu.bpv) s
  | .idle => .go s
  | .done => .go s
  | .fault => .go s

/-- The rows of 41_rld.md R84 for a busy RLD: the loop test (R75), the count fetch (R76), the byte rows of LIT and REP,
and the end record, which is due by position (30_encoding.md R52). -/
def rldDue (s : State) : Due :=
  match s.rld.phase with
  | .head =>
    if s.rld.budget < Config.rleMinBudget then .go (s.setRld { s.rld with phase := .endRec })
    else
      match decode s.params .runLoop (s.mem.window s.rld.cur 2) with
      | .ok i _ => .run i s
      | .reject _ => .go (s.rldRaise .truncatedBuffer s.rld.cur)
  | .lit => .run (.rlLit s.rld.cnt) s
  | .rep => .run (.rlRep s.rld.cnt) s
  | .endRec => .run .rlEnd s
  | .idle => .go s
  | .done => .go s
  | .fault => .go s

/-- What the units do in a step without a host action: the busy one takes a row of its table; with none busy nothing
changes (40_vbu.md R72, 41_rld.md R84); both busy is refused (70_reset_and_hazards.md R112; log 13). -/
def unitsDue (s : State) : Due :=
  if s.vbu.phase.busy then if s.rld.phase.busy then .stop .bothUnitsBusy else vbuDue s
  else if s.rld.phase.busy then rldDue s
  else .go s

/-- The host's replacement of the buffer: not while a unit is busy (20_memory.md R41; U4; log 12), and at most
`2^ADDR_W` bytes (70_reset_and_hazards.md R109). -/
def loadDue (bytes : List Byte) (s : State) : Due :=
  if s.busy then .stop .bufferChangedWhileBusy
  else if 2 ^ s.params.addrW < bytes.length then .stop .bufferTooLong
  else .go (s.setMem (Memory.ofBytes bytes))

/-- What a step is to do: the host's next event first (log 3). -/
def State.due (s : State) : Due :=
  match s.host with
  | [] => unitsDue s
  | .idle :: rest => unitsDue (s.setHost rest)
  | .await :: rest => if s.busy then unitsDue s else .go (s.setHost rest)
  | .vbuRead offset :: rest => .run (.vbuRead offset) (s.setHost rest)
  | .rldDecode offset byteCount :: rest => .run (.rldDecode offset byteCount) (s.setHost rest)
  | .load bytes :: rest => loadDue bytes (s.setHost rest)
  | .reset :: rest => .go (s.setHost rest).resetUnits

/-- A buffer that holds these bytes from address 0 and zeros after them, of this length. -/
def wordBuffer (bytes : List Byte) (len : Nat) : Memory := { cells := cellsFrom 0 bytes, len := len }

/-- The buffer length that lets a header with all its operand bytes 0 run: a 4-byte count field of 0. -/
def headerRoom : Nat := 5

/-- The buffer length that lets a record with all its operand bytes 0 run: a literal run of 32767 bytes. -/
def recordRoom : Nat := 2 + 32767

/-- The state in which the next step fetches and runs a VBU header byte: as after `VBU.READ(0)`, RLD not busy. -/
def State.placeHeader (s : State) (w : Nat) : State :=
  (((s.setMem (wordBuffer (tableBytes 8 w) headerRoom)).setHost []).setVbu { s.vbu with phase := .hdr, cur := 0 }).setRld
    (if s.rld.phase.busy then { s.rld with phase := .idle } else s.rld)

/-- The state in which the next step fetches and runs an RLD field: as in `RLD.DECODE` at address 0, after the run loop
for the pattern `RLE_EOS` and in the loop for every other (log 17), VBU not busy. -/
def State.placeRecord (s : State) (w : Nat) : State :=
  (((s.setMem (wordBuffer (tableBytes 16 w) recordRoom)).setHost []).setRld
    (if BitVec.ofNat 16 w = s.params.rleEos then { s.rld with phase := .endRec, cur := 0, budget := 2 }
     else { s.rld with phase := .head, cur := 0, budget := 3 })).setVbu
    (if s.vbu.phase.busy then { s.vbu with phase := .idle } else s.vbu)

/-- The instruction of a table word placed where the next step fetches (log 16, log 17). -/
def State.placeWord (s : State) (nbits w : Nat) : State :=
  if nbits = 8 then s.placeHeader w else if nbits = 16 then s.placeRecord w else s

end Sys2Proof.Machine
end

