-- ==== Sys2Proof/Machine/Step.lean ====
section
/-! DEFINITION. The step function and the placing of one instruction where it fetches. -/

namespace Sys2Proof.Machine

/-- One step of the block: what is due, run or done. -/
def step (s : State) : Host.Outcome State Fault Refusal :=
  match s.due with
  | .run i t => exec i t
  | .go t => .next t
  | .stop r => .refused r

/-- `s` with the instruction of a table word stored where `step` fetches next (log 16, log 17). -/
def State.withFetchWord (s : State) (nbits w : Nat) : State := s.placeWord nbits w

end Sys2Proof.Machine
end

