-- ==== Sys2Proof/Machine/Flags.lean ====
section
/-! DEFINITION. The block has no condition codes (10_state.md R19). Its status is the phase summary, the absent bit and
the error code of each unit. -/

namespace Sys2Proof.Machine

/-- The 2-bit summary `st` of VBU's phase (10_state.md R18). -/
def VbuPhase.st : VbuPhase → Nat
  | .idle => 0
  | .hdr => 1
  | .cnt => 1
  | .unpack => 1
  | .done => 2
  | .fault => 3

/-- The 2-bit summary `st` of RLD's phase (10_state.md R18). -/
def RldPhase.st : RldPhase → Nat
  | .idle => 0
  | .head => 1
  | .lit => 1
  | .rep => 1
  | .endRec => 1
  | .done => 2
  | .fault => 3

/-- The 2-bit code of an error kind (60_exceptions.md R97). -/
def ErrKind.code : ErrKind → Nat
  | .none => 0
  | .formatError => 1
  | .truncatedBuffer => 2
  | .corruptStream => 3

/-- The bit a status flag reads as. -/
def bitOf (b : Bool) : Nat := if b then 1 else 0

end Sys2Proof.Machine
end

