-- ==== Sys2Proof/Machine/HostView.lean ====
section
/-! DEFINITION. What the host reads: the registers of 10_state.md R20 and R21 and the outcome of a command (00_scope.md
R9). All of it is a view of the state; reading changes nothing (42_commands.md R89, R90; log 6). -/

namespace Sys2Proof.Machine

/-- The host-visible registers (10_state.md R20, R21). -/
inductive HostReg where
  | vbuStatus
  | vbuNewoff
  | vbuCount
  | vbuBpv
  | vbuFaddr
  | vbuOut
  | rldStatus
  | rldOutlen
  | rldEndcur
  | rldFaddr
  | rldOut
deriving DecidableEq, Repr

/-- What a read delivers: a number, or a whole output sequence (42_commands.md R89: how the elements are delivered is
not fixed, the model's view is the whole sequence). -/
inductive HostValue where
  | num (n : Nat)
  | words (seq : List Word)
  | bytes (seq : List Byte)
deriving DecidableEq, Repr

/-- The outcome of a VBU command (00_scope.md R9). -/
inductive VbuOutcome where
  | values (seq : List Word) (newOffset : Nat)
  | absent (newOffset : Nat)
  | fault (kind : ErrKind) (faddr : Nat)
deriving DecidableEq, Repr

/-- The outcome of an RLD command (00_scope.md R9). -/
inductive RldOutcome where
  | bytes (seq : List Byte)
  | fault (kind : ErrKind) (faddr : Nat)
deriving DecidableEq, Repr

/-- The index of a host-visible register (10_state.md R20, R21). -/
def HostReg.index : HostReg → Nat
  | .vbuStatus => 0
  | .vbuNewoff => 1
  | .vbuCount => 2
  | .vbuBpv => 3
  | .vbuFaddr => 4
  | .vbuOut => 5
  | .rldStatus => 8
  | .rldOutlen => 9
  | .rldEndcur => 10
  | .rldFaddr => 11
  | .rldOut => 12

/-- A scalar result register read outside its validity: a free value of the register's width (U5; log 6). -/
def invalidField (n : Nat) (r : HostReg) (width : Nat) : Nat := Config.invalidRead r.index n % 2 ^ width

/-- `VBU_STATUS`: `st` in bits 1:0, `absent` in bit 2, `err` in bits 4:3 (R20). It is valid to read in every phase
(93_implementation_defined.md U5), and its `absent` bit is the register `VBU.absent` (log 6). -/
def State.vbuStatus (s : State) : Nat := s.vbu.phase.st + 4 * bitOf s.vbu.absent + 8 * s.vbu.err.code

/-- `RLD_STATUS`: `st` in bits 1:0, `err` in bits 4:3 (R21). -/
def State.rldStatus (s : State) : Nat := s.rld.phase.st + 8 * s.rld.err.code

/-- Read number `n` of a host-visible register (R20, R21): its value where the register's "valid when" holds, else a
free value (93_implementation_defined.md U5; log 6). -/
def State.readReg (n : Nat) (r : HostReg) (s : State) : HostValue :=
  match r with
  | .vbuStatus => .num s.vbuStatus
  | .vbuNewoff => .num (if s.vbu.phase = .done then s.vbu.newoff else invalidField n r (s.params.addrW + 1))
  | .vbuCount =>
    .num (if s.vbu.phase = .done ∧ s.vbu.absent = false then s.vbu.count.toNat else invalidField n r 32)
  | .vbuBpv => .num (if s.vbu.phase = .done then s.vbu.bpv.toNat else invalidField n r 6)
  | .vbuFaddr => .num (if s.vbu.phase = .fault then s.vbu.faddr else invalidField n r (s.params.addrW + 1))
  | .vbuOut => .words (if s.vbu.phase = .done then s.vbu.out else Config.invalidWords n)
  | .rldStatus => .num s.rldStatus
  | .rldOutlen => .num (if s.rld.phase = .done then s.rld.out.length else Config.invalidRead r.index n)
  | .rldEndcur => .num (if s.rld.phase = .done then s.rld.endcur else invalidField n r (s.params.addrW + 1))
  | .rldFaddr => .num (if s.rld.phase = .fault then s.rld.faddr else invalidField n r (s.params.addrW + 1))
  | .rldOut => .bytes (if s.rld.phase = .done then s.rld.out else Config.invalidBytes n)

/-- The outcome of the last VBU command, once it has ended (00_scope.md R9; 42_commands.md R89). -/
def State.vbuOutcome (s : State) : Option VbuOutcome :=
  match s.vbu.phase with
  | .done => some (if s.vbu.absent then .absent s.vbu.newoff else .values s.vbu.out s.vbu.newoff)
  | .fault => some (.fault s.vbu.err s.vbu.faddr)
  | .idle => none
  | .hdr => none
  | .cnt => none
  | .unpack => none

/-- The outcome of the last RLD command, once it has ended (00_scope.md R9; 42_commands.md R90). -/
def State.rldOutcome (s : State) : Option RldOutcome :=
  match s.rld.phase with
  | .done => some (.bytes s.rld.out)
  | .fault => some (.fault s.rld.err s.rld.faddr)
  | .idle => none
  | .head => none
  | .lit => none
  | .rep => none
  | .endRec => none

/-- The public boolean for a VBU command (42_commands.md R91): `valid = (st = 2)`. -/
def State.vbuValid (s : State) : Bool := s.vbu.phase.st == 2

/-- The public boolean for an RLD command (42_commands.md R91): `valid = (st = 2)`. -/
def State.rldValid (s : State) : Bool := s.rld.phase.st == 2

end Sys2Proof.Machine
end

