-- ==== Sys2Proof/Machine/BigStep.lean ====
section
/-! DEFINITION. The big-step functions of the two units (40_vbu.md R58, 41_rld.md R73), which are normative for the
outcome of a command (00_scope.md R10), and the closed form of the packed values (40_vbu.md R70). -/

namespace Sys2Proof.Machine

/-- The loop of `VBU_read` (R58): `n` more values, from a word with `rem` bits left and a cursor. -/
def unpackLoop (m : Memory) (bpv e : Nat) : Nat → Word → Nat → Nat → List Word
  | 0, _, _, _ => []
  | n + 1, word, rem, cur =>
    if bpv ≤ rem then valueInWord word rem bpv :: unpackLoop m bpv e n word (rem - bpv) cur
    else
      let f := fetchWordAt m cur e
      valueAcross word f.1 rem bpv :: unpackLoop m bpv e n f.1 (Config.wordBits - (bpv - rem)) f.2

/-- `VBU_read` after the count field was read (R58): the payload from `base` on. -/
def readPayload (m : Memory) (bpv count base : Nat) : VbuOutcome :=
  let e := base + payloadLen count bpv
  if m.len < e then .fault .truncatedBuffer base
  else if count = 0 then .values [] e
  else
    let f := fetchWordAt m base e
    .values (unpackLoop m bpv e count f.1 Config.wordBits f.2) e

/-- `VBU_read` after the header was read (R58): the count field of `n` bytes at `a`. -/
def readCounted (m : Memory) (bpv n a : Nat) : VbuOutcome :=
  match m.read a n with
  | none => .fault .truncatedBuffer a
  | some count => readPayload m bpv count (a + n)

/-- `VBU_read(offset)` (40_vbu.md R58). -/
def vbuRead (m : Memory) (offset : Nat) : VbuOutcome :=
  match m.read offset 1 with
  | none => .fault .truncatedBuffer offset
  | some h =>
    let bpv := slice h 0 6
    let sel := BitVec.ofNat 2 (slice h 6 2)
    if bpv = 0 then .absent (offset + 1)
    else
      match Config.selWidth sel with
      | none => .fault .corruptStream offset
      | some n => if Config.bpvMax < bpv then .fault .corruptStream offset else readCounted m bpv n (offset + 1)

/-- The end of `RLD_decode` (R73): the sentinel at the cursor. -/
def decodeEnd (m : Memory) (eos : Half) (cur : Nat) (out : List Byte) : RldOutcome :=
  match m.read cur 2 with
  | none => .fault .truncatedBuffer cur
  | some w => if BitVec.ofNat 16 w = eos then .bytes out else .fault .corruptStream cur

/-- The loop of `RLD_decode` (R73). The first argument bounds the iterations; `byteCount` of them are enough, since
each lowers the budget by at least 2 (R82). -/
def decodeLoop (m : Memory) (eos : Half) : Nat → Nat → Int → List Byte → RldOutcome
  | 0, cur, _, out => decodeEnd m eos cur out
  | k + 1, cur, budget, out =>
    if budget < Config.rleMinBudget then decodeEnd m eos cur out
    else
      match m.read cur 2 with
      | none => .fault .truncatedBuffer cur
      | some w =>
        let cnt : Half := BitVec.ofNat 16 w
        let c := cur + 2
        if cnt.toInt < 0 then
          match m.read c 1 with
          | none => .fault .truncatedBuffer c
          | some b =>
            decodeLoop m eos k (c + 1) (budget - repeatCost) (out ++ List.replicate (repeatLen cnt) (BitVec.ofNat 8 b))
        else if m.len < c + literalLen cnt then .fault .truncatedBuffer c
        else
          decodeLoop m eos k (c + literalLen cnt) (budget - literalCost cnt) (out ++ m.window c (literalLen cnt))

/-- `RLD_decode(offset, byteCount)` (41_rld.md R73). -/
def rldDecode (m : Memory) (eos : Half) (offset : Nat) (byteCount : BitVec 32) : RldOutcome :=
  decodeLoop m eos byteCount.toNat offset byteCount.toNat []

/-- Word `j` of a payload that starts at `base` and ends at `e` (40_vbu.md R66, R67, R70). -/
def payloadWord (m : Memory) (base e j : Nat) : Word := (fetchWordAt m (base + 4 * j) e).1

/-- Bit `p` of the payload's bit string, numbered from 0 at its most significant end (40_vbu.md R70). -/
def payloadBit (m : Memory) (base e p : Nat) : Bool :=
  (payloadWord m base e (p / Config.wordBits)).getLsbD (Config.wordBits - 1 - p % Config.wordBits)

/-- The number whose binary digits are the `n` bits of the string from `p` on, the most significant first. -/
def bitsValue (bit : Nat → Bool) (p : Nat) : Nat → Nat
  | 0 => 0
  | n + 1 => 2 * bitsValue bit p n + (if bit (p + n) then 1 else 0)

/-- Packed value `i`, the closed form (40_vbu.md R70). -/
def packedValue (m : Memory) (bpv base e i : Nat) : Nat := bitsValue (payloadBit m base e) (i * bpv) bpv

end Sys2Proof.Machine
end

