-- ==== Sys2Proof/Machine/Reference.lean ====
section
/-! DEFINITION. The spec's reference packer for VBU (30_encoding.md R56) and reference encoder for RLD (R57), the
inverses of the decode rules; no unit runs them. -/

namespace Sys2Proof.Machine

/-- The `n` little-endian bytes of a number (R56, R57). -/
def leBytes (v : Nat) : Nat → List Byte
  | 0 => []
  | n + 1 => BitVec.ofNat 8 v :: leBytes (v / 256) n

/-- `bits = v0 ++ v1 ++ ...`, each as `bpv` bits, v0 most significant, as one number (R56). -/
def concatBits (bpv : Nat) (values : List Nat) : Nat := values.foldl (fun acc v => acc * 2 ^ bpv + v) 0

/-- The payload bytes of a bit string of `w` words (R56): each full word's 4 bytes, least significant first; of the
last word only the `k` high-order bytes when `k` is not 0. `bits` has `32 * w` bits. -/
def payloadBytes (bits k : Nat) : Nat → List Byte
  | 0 => []
  | w + 1 =>
    let word := slice bits (32 * w) 32
    if w = 0 ∧ k ≠ 0 then leBytes (word / 2 ^ (8 * (4 - k))) k
    else leBytes word 4 ++ payloadBytes bits k w

/-- `pack(sel, bpv, [v0 .. v(c-1)])` (R56), for a selector whose count field has `n` bytes. -/
def pack (sel : BitVec 2) (n : Nat) (bpv : BitVec 6) (values : List Nat) : List Byte :=
  let b := values.length * bpv.toNat
  let w := (b + 31) / 32
  headerByte sel bpv ::
    (leBytes values.length n
      ++ payloadBytes (concatBits bpv.toNat values * 2 ^ (32 * w - b)) ((b + 7) / 8 % 4) w)

/-- The two bytes of the two's-complement pattern of a number, `i16le` (R57). -/
def i16le (x : Int) : List Byte := leBytes (BitVec.ofInt 16 x).toNat 2

/-- A repeat record (30_encoding.md R49): `cnt = -times`, then the byte. -/
def repeatRecord (times : Nat) (b : Byte) : List Byte := i16le (-(times : Int)) ++ [b]

/-- A literal record (30_encoding.md R48): `cnt`, then the bytes. -/
def literalRecord (data : List Byte) : List Byte := i16le data.length ++ data

/-- The length of the longest run of equal bytes at the start of a sequence, at most `cap` (R57). -/
def runLength : Nat → List Byte → Nat
  | 0, _ => 0
  | _, [] => 0
  | cap + 1, b :: rest =>
    match rest with
    | [] => 1
    | b' :: _ => if b' = b then runLength cap rest + 1 else 1

/-- How many bytes at the start of a sequence go into one literal record: up to the first run of 3, at most `cap`
(R57). -/
def literalSpan : Nat → List Byte → Nat
  | 0, _ => 0
  | _, [] => 0
  | cap + 1, b :: rest => if 3 ≤ runLength 32767 (b :: rest) then 0 else literalSpan cap rest + 1

/-- The records of R57's loop, with at most `fuel` records. -/
def encodeRecords : Nat → List Byte → List Byte
  | 0, _ => []
  | _, [] => []
  | fuel + 1, b :: rest =>
    let data := b :: rest
    let r := runLength 32767 data
    if 3 ≤ r then repeatRecord r b ++ encodeRecords fuel (data.drop r)
    else
      let q := literalSpan 32767 data
      literalRecord (data.take q) ++ encodeRecords fuel (data.drop q)

/-- `encode([d0 .. d(m-1)])` (R57): the records, then the two bytes of `RLE_EOS`. -/
def encodeRle (eos : Half) (data : List Byte) : List Byte :=
  encodeRecords data.length data ++ i16le eos.toInt

end Sys2Proof.Machine
end

