-- ==== Sys2Proof/Safety.lean ====
section
/-! DEFINITION. What counts as a good state and a dutiful host, in the terms claims use. -/

namespace Sys2Proof.Machine

/-- The header registers hold a legal block header with values (10_state.md R14: `bpv` is `1..32` in CNT, UNPACK). -/
def VbuRegs.headerLegal (v : VbuRegs) : Prop := bpvLegal v.bpv = true ∧ Config.selWidth v.sel ≠ none

/-- The payload length of the block the registers describe. -/
def VbuRegs.payload (v : VbuRegs) : Nat := payloadLen v.count.toNat v.bpv.toNat

/-- The payload's first address, `base` of 40_vbu.md R65. -/
def VbuRegs.base (v : VbuRegs) : Nat := v.endAddr - v.payload

/-- Every value emitted is below `2^bpv` (10_state.md R17; 40_vbu.md R68 (e)). -/
def VbuRegs.valuesFit (v : VbuRegs) : Prop := ∀ x ∈ v.out, x.toNat < 2 ^ v.bpv.toNat

/-- The invariants of UNPACK (40_vbu.md R72), with the place of the unread bits (R70): the bits emitted and the bits
left in the cursor word are those of the words fetched so far. -/
def VbuRegs.unpackInv (m : Memory) (v : VbuRegs) : Prop :=
  v.headerLegal ∧ v.idx < v.count.toNat ∧ v.out.length = v.idx ∧ v.valuesFit ∧ v.rem ≤ Config.wordBits
    ∧ v.payload ≤ v.endAddr ∧ v.base ≤ v.cur ∧ v.cur ≤ v.endAddr ∧ v.endAddr ≤ m.len
    ∧ v.rem + v.idx * v.bpv.toNat = 32 * ((v.cur - v.base + 3) / 4)
    ∧ (v.cur = v.endAddr ∨ (v.cur - v.base) % 4 = 0)

/-- What holds of VBU's registers in each phase. -/
def VbuRegs.phaseInv (m : Memory) (v : VbuRegs) : Prop :=
  match v.phase with
  | .idle => v.out = []
  | .hdr => v.out = []
  | .cnt => v.out = [] ∧ v.headerLegal ∧ v.cur ≤ m.len
  | .unpack => v.unpackInv m
  | .done =>
    if v.absent then v.out = [] ∧ v.bpv = 0
    else v.out.length = v.count.toNat ∧ v.valuesFit ∧ v.headerLegal ∧ v.newoff = v.endAddr
  | .fault => v.out = []

/-- The invariant of VBU: `absent` only in DONE (10_state.md R14), `err` nonzero exactly in FAULT (R20) and never
FormatError (60_exceptions.md R95), and the phase's own part. -/
def VbuRegs.inv (m : Memory) (v : VbuRegs) : Prop :=
  (v.absent = true → v.phase = .done) ∧ (v.err = .none ↔ v.phase ≠ .fault) ∧ v.err ≠ .formatError ∧ v.phaseInv m

/-- The range of the budget (10_state.md R15). -/
def RldRegs.budgetInRange (r : RldRegs) : Prop := -32766 ≤ r.budget ∧ r.budget < 2 ^ 32

/-- What holds of RLD's registers in each phase (41_rld.md R84). -/
def RldRegs.phaseInv (m : Memory) (r : RldRegs) : Prop :=
  match r.phase with
  | .idle => r.out = []
  | .head => r.budgetInRange
  | .lit => r.budgetInRange ∧ r.cur + r.left ≤ m.len ∧ 1 ≤ r.left ∧ r.left ≤ literalLen r.cnt ∧ r.cnt.msb = false
  | .rep => r.budgetInRange ∧ r.cur ≤ m.len ∧ 1 ≤ r.left ∧ r.left ≤ repeatLen r.cnt ∧ r.cnt.msb = true
  | .endRec => r.budgetInRange ∧ r.budget < Config.rleMinBudget
  | .done => r.endcur = r.cur + 2
  | .fault => r.out = []

/-- The invariant of RLD: `err` nonzero exactly in FAULT (10_state.md R21) and never FormatError (60_exceptions.md R95),
and the phase's own part. -/
def RldRegs.inv (m : Memory) (r : RldRegs) : Prop :=
  (r.err = .none ↔ r.phase ≠ .fault) ∧ r.err ≠ .formatError ∧ r.phaseInv m

/-- The invariant of the block: the buffer is in its canonical form and addressable (00_scope.md R5), the parameters
meet their constraints, at most one unit is busy (70_reset_and_hazards.md R112), each unit meets its own. -/
def State.Inv (s : State) : Prop :=
  s.mem.wf = true ∧ s.mem.len ≤ 2 ^ s.params.addrW ∧ s.params.valid = true
    ∧ ¬ (s.vbu.phase.busy = true ∧ s.rld.phase.busy = true) ∧ s.vbu.inv s.mem ∧ s.rld.inv s.mem

/-- The host's next action keeps the host's duties (70_reset_and_hazards.md R109, R112, R113): a command comes with an
offset that ADDR_W bits hold while no unit is busy, the buffer is replaced only while no unit is busy and is not too
long. -/
def State.hostDutiful (s : State) : Bool :=
  match s.host with
  | .vbuRead offset :: _ => !s.busy && decide (offset < 2 ^ s.params.addrW)
  | .rldDecode offset _ :: _ => !s.busy && decide (offset < 2 ^ s.params.addrW)
  | .load bytes :: _ => !s.busy && decide (bytes.length ≤ 2 ^ s.params.addrW)
  | .idle :: _ => true
  | .await :: _ => true
  | .reset :: _ => true
  | [] => true

/-- `n` steps of the block, stopping at the first stop. -/
abbrev runSteps (n : Nat) (s : State) : Host.Outcome State Fault Refusal := Host.Core.run Sys2Proof.core n s

/-- A block with values: the selector and the width in bytes of its count field (30_encoding.md R44, R46). -/
def countedForm : Instr → Option (BitVec 2 × Nat)
  | .vbC32 _ => some (Config.selC32, 4)
  | .vbC16 _ => some (Config.selC16, 2)
  | .vbC8 _ => some (Config.selC8, 1)
  | .vbNone _ => none
  | .vbRsv _ _ => none
  | .rlLit _ => none
  | .rlRep _ => none
  | .rlEnd => none
  | .vbuRead _ => none
  | .rldDecode _ _ => none

/-- The account of 41_rld.md R81: the cursor, the bytes of a literal run still to pass, and the budget, summed. -/
def RldRegs.ledger (r : RldRegs) : Int := r.cur + (if r.phase = .lit then r.left else 0) + r.budget

/-- The unit an instruction belongs to is VBU (spec/opcode_table.json, column unit). -/
def unitIsVbu : Instr → Bool
  | .vbNone _ => true
  | .vbRsv _ _ => true
  | .vbC32 _ => true
  | .vbC16 _ => true
  | .vbC8 _ => true
  | .vbuRead _ => true
  | .rlLit _ => false
  | .rlRep _ => false
  | .rlEnd => false
  | .rldDecode _ _ => false

end Sys2Proof.Machine
end

