-- ==== Sys2Proof/Certificates/Slice0/Obligations.lean ====
section
/-! DEFINITION. The statements about the block, from the numbered rules of spec/. -/

open Sys2Proof Sys2Proof.Machine

/-! ### Encoding -/

/-- Decode and encode agree on every well-formed element, in its context, whatever bytes follow (30_encoding.md R46 to
R50, R53). -/
def Obligations.EncodedElementDecodesToItself : Prop :=
  ∀ (p : Params) (i : Instr) (c : Context) (rest : List Byte), i.wellFormed p = true → i.context = some c →
    decode p c (encode p i ++ rest) = .ok i rest

/-- What the decoder accepts is well-formed, belongs to the context, and encodes back to the bytes it was read from. -/
def Obligations.DecodedBytesEncodeBack : Prop :=
  ∀ (p : Params) (c : Context) (bytes rest : List Byte) (i : Instr), decode p c bytes = .ok i rest →
    bytes = encode p i ++ rest ∧ i.wellFormed p = true ∧ i.context = some c

/-- The classes of all header bytes and of all 16-bit fields (30_encoding.md R53). Which header byte is a counted block
or reserved is the spec's own reading: the selector map D2 (log 10), the reserved headers D3 and D4 and the test of
bits-per-value before the selector D5 (log 21). -/
def Obligations.OpcodeMapPartitionsAllPatterns : Prop :=
  (∀ h : Byte,
    (h.toNat % 64 = 0 → decodeHeader h = .vbNone (headerSel h))
      ∧ (1 ≤ h.toNat → h.toNat ≤ 0x20 → decodeHeader h = .vbC32 (headerBpv h))
      ∧ (0x41 ≤ h.toNat → h.toNat ≤ 0x60 → decodeHeader h = .vbC16 (headerBpv h))
      ∧ (0x81 ≤ h.toNat → h.toNat ≤ 0xA0 → decodeHeader h = .vbC8 (headerBpv h))
      ∧ ((0x21 ≤ h.toNat ∧ h.toNat ≤ 0x3F) ∨ (0x61 ≤ h.toNat ∧ h.toNat ≤ 0x7F)
          ∨ (0xA1 ≤ h.toNat ∧ h.toNat ≤ 0xBF) ∨ 0xC1 ≤ h.toNat →
          decodeHeader h = .vbRsv (headerSel h) (headerBpv h))
      ∧ (headerSel h).toNat = h.toNat / 64 ∧ (headerBpv h).toNat = h.toNat % 64)
    ∧ ∀ (p : Params) (lo hi : Byte) (w : Half), w.toNat = lo.toNat + 256 * hi.toNat →
      (w.toNat < 32768 → decode p .runLoop [lo, hi] = .ok (.rlLit w) [])
        ∧ (32768 ≤ w.toNat → decode p .runLoop [lo, hi] = .ok (.rlRep w) [])
        ∧ (w = p.rleEos → decode p .afterLoop [lo, hi] = .ok .rlEnd [])
        ∧ (w ≠ p.rleEos → decode p .afterLoop [lo, hi] = .reject .notSentinel)

/-- A few encodings written out from the spec's formats (95_test_vectors.md 2.1, 2.2, 3.1). -/
def Obligations.WrittenOutBytesDecode : Prop :=
  decode Params.default .header [0b11000000, 0xFF] = .ok (.vbNone 3) [0xFF]
    ∧ decode Params.default .header [0b10100001] = .ok (.vbRsv 2 33) []
    ∧ decode Params.default .header [0b00011111] = .ok (.vbC32 31) []
    ∧ decode Params.default .header [0b01010000] = .ok (.vbC16 16) []
    ∧ decode Params.default .header [0b10000011] = .ok (.vbC8 3) []
    ∧ decode Params.default .runLoop [0x02, 0x00, 0x42] = .ok (.rlLit 2) [0x42]
    ∧ decode Params.default .runLoop [0xFC, 0xFF, 0x41] = .ok (.rlRep (BitVec.ofInt 16 (-4))) [0x41]
    ∧ decode Params.default .afterLoop [0x00, 0x80] = .ok .rlEnd []
    ∧ decode Params.default .afterLoop [0x01, 0x80] = .reject .notSentinel

/-! ### The buffer -/

/-- `MemRead(a, n)` is the little-endian number of all `n` bytes, or nothing when one of them is outside
(20_memory.md R30). -/
def Obligations.MemReadIsLittleEndianAllOrNothing : Prop :=
  ∀ (m : Memory) (a n : Nat),
    (m.len < a + n → m.read a n = none)
      ∧ (a + n ≤ m.len → m.read a n = some (∑ i ∈ Finset.range n, m.byteVal (a + i) * 2 ^ (8 * i)))
      ∧ ∀ v, m.read a n = some v → v < 2 ^ (8 * n)

/-- A loaded buffer holds exactly the bytes loaded, at the addresses `0 .. BUF_LEN-1` (20_memory.md R28). -/
def Obligations.LoadedBufferHoldsItsBytes : Prop :=
  ∀ (bytes : List Byte) (a : Nat), (Memory.ofBytes bytes).byte? a = bytes[a]?

/-- The decoder is given the buffer's own bytes: the window is the bytes that exist from the cursor on. -/
def Obligations.WindowIsTheBytesThatExist : Prop :=
  ∀ (bytes : List Byte) (a n : Nat), (Memory.ofBytes bytes).window a n = (bytes.drop a).take n

/-- The buffer is read-only to the block: no instruction changes it (20_memory.md R29), and a step changes it only where
the host replaces it while no unit is busy (R41). That a replacement is an entry of the host's list, and that no
instruction changes the list or the parameters, is the model's form (log 1, log 3); that it comes only while no unit is
busy is the model's refusal of the other case (log 12). -/
def Obligations.BufferIsReadOnlyToTheBlock : Prop :=
  (∀ (i : Instr) (s t : State), exec i s = .next t → t.mem = s.mem ∧ t.params = s.params ∧ t.host = s.host)
    ∧ ∀ s t : State, step s = .next t → t.params = s.params
      ∧ (t.mem ≠ s.mem → s.busy = false ∧ ∃ bytes rest, s.host = .load bytes :: rest ∧ t.mem = Memory.ofBytes bytes)

/-! ### Reset and the host -/

/-- What reset leaves, of what the spec gives (10_state.md R24; 70_reset_and_hazards.md R107). -/
def Obligations.ResetLeavesBothUnitsIdle : Prop :=
  State.reset.vbu.phase = .idle ∧ State.reset.rld.phase = .idle ∧ State.reset.vbu.err = .none
    ∧ State.reset.rld.err = .none ∧ State.reset.vbu.absent = false ∧ State.reset.vbu.out = []
    ∧ State.reset.rld.out = [] ∧ State.reset.rldStatus = 0 ∧ State.reset.vbuStatus = 0

/-- Reset by the host abandons whatever runs: both units are idle with no outcome, the buffer is not affected
(70_reset_and_hazards.md R108). -/
def Obligations.HostResetAbandonsTheCommand : Prop :=
  ∀ (s : State) (rest : List HostEvent), s.host = .reset :: rest →
    ∃ t, step s = .next t ∧ t.vbu.phase = .idle ∧ t.rld.phase = .idle ∧ t.vbu.err = .none ∧ t.rld.err = .none
      ∧ t.vbu.absent = false ∧ t.vbu.out = [] ∧ t.rld.out = [] ∧ t.vbuOutcome = none ∧ t.rldOutcome = none
      ∧ t.mem = s.mem ∧ t.params = s.params ∧ t.host = rest

/-- The host replaces the buffer between commands, and what it does while a unit is busy has no meaning (20_memory.md
R41). -/
def Obligations.HostReplacesBufferOnlyBetweenCommands : Prop :=
  ∀ (s : State) (bytes : List Byte) (rest : List HostEvent), s.host = .load bytes :: rest →
    (s.busy = true → step s = .refused .bufferChangedWhileBusy)
      ∧ (s.busy = false → bytes.length ≤ 2 ^ s.params.addrW →
          step s = .next ((s.setHost rest).setMem (Memory.ofBytes bytes)))
      ∧ (s.busy = false → 2 ^ s.params.addrW < bytes.length → step s = .refused .bufferTooLong)

/-- The host's other actions: a command is run as its instruction, an idle host leaves the step to the units, an
awaiting host goes on when no unit is busy. The event list is the model's (log 3). -/
def Obligations.HostActionsLandBetweenSteps : Prop :=
  ∀ (s : State) (rest : List HostEvent),
    (∀ offset, s.host = .vbuRead offset :: rest → step s = exec (.vbuRead offset) (s.setHost rest))
      ∧ (∀ offset n, s.host = .rldDecode offset n :: rest → step s = exec (.rldDecode offset n) (s.setHost rest))
      ∧ (s.host = .idle :: rest → ∀ t, step (s.setHost []) = .next t → step s = .next (t.setHost rest))
      ∧ (s.host = .await :: rest → s.busy = false → step s = .next (s.setHost rest))

/-! ### The two commands -/

/-- `VBU.READ(offset)` starts VBU and disturbs nothing else (42_commands.md R86; 10_state.md R25). -/
def Obligations.VbuReadStartsTheUnit : Prop :=
  ∀ (s : State) (offset : Nat), s.busy = false → offset < 2 ^ s.params.addrW →
    ∃ t, exec (.vbuRead offset) s = .next t ∧ t.vbu.out = [] ∧ t.vbu.absent = false ∧ t.vbu.err = .none
      ∧ t.vbu.cur = offset ∧ t.vbu.phase = .hdr ∧ t.rld = s.rld ∧ t.mem = s.mem ∧ t.params = s.params
      ∧ t.host = s.host

/-- `RLD.DECODE(offset, byteCount)` starts RLD and disturbs nothing else, for every `byteCount` (42_commands.md R87;
41_rld.md R74). -/
def Obligations.RldDecodeStartsTheUnit : Prop :=
  ∀ (s : State) (offset : Nat) (byteCount : BitVec 32), s.busy = false → offset < 2 ^ s.params.addrW →
    ∃ t, exec (.rldDecode offset byteCount) s = .next t ∧ t.rld.cur = offset
      ∧ t.rld.budget = (byteCount.toNat : Int) ∧ t.rld.out = [] ∧ t.rld.err = .none ∧ t.rld.phase = .head
      ∧ t.vbu = s.vbu ∧ t.mem = s.mem ∧ t.params = s.params ∧ t.host = s.host

/-- A command while either unit is busy, or with an offset that ADDR_W bits do not hold, has no meaning (42_commands.md
R85; 93_implementation_defined.md U3; log 9, log 11). -/
def Obligations.CommandsAreRefusedWhenNotAllowed : Prop :=
  ∀ (s : State) (offset : Nat) (byteCount : BitVec 32),
    (s.busy = true → exec (.vbuRead offset) s = .refused .commandWhileBusy
      ∧ exec (.rldDecode offset byteCount) s = .refused .commandWhileBusy)
    ∧ (s.busy = false → 2 ^ s.params.addrW ≤ offset → exec (.vbuRead offset) s = .refused .offsetTooWide
      ∧ exec (.rldDecode offset byteCount) s = .refused .offsetTooWide)

/-! ### VBU, row by row -/

/-- `VB.NONE` ends the command as absent, one byte on, for every selector (40_vbu.md R60). -/
def Obligations.VbNoneEndsAbsent : Prop :=
  ∀ (s : State) (sel : BitVec 2), s.vbu.phase = .hdr →
    ∃ t, exec (.vbNone sel) s = .next t
      ∧ t = s.setVbu { s.vbu with
          bpv := 0, sel := sel, cur := s.vbu.cur + 1, absent := true, newoff := s.vbu.cur + 1, phase := .done }
      ∧ t.vbuOutcome = some (.absent (s.vbu.cur + 1))

/-- `VB.RSV` takes the fault CorruptStream at the header's address (40_vbu.md R61). That reserved headers fault is the
spec's own decision D3 and D4 (log 21); that R59's writes of `bpv`, `sel` and `cur` do not happen in the faulting step is
the model's reading of 60_exceptions.md R99 (log 7). -/
def Obligations.VbRsvTakesCorruptStream : Prop :=
  ∀ (s : State) (sel : BitVec 2) (bpv : BitVec 6), s.vbu.phase = .hdr →
    ∃ t, exec (.vbRsv sel bpv) s = .next t
      ∧ t = s.setVbu { s.vbu with
          err := .corruptStream, faddr := s.vbu.cur, out := [], phase := .fault, absent := false }
      ∧ t.vbuOutcome = some (.fault .corruptStream s.vbu.cur)

/-- A block with values takes its header's fields and goes on to the count field (40_vbu.md R59, R72). -/
def Obligations.CountedBlocksTakeTheirHeader : Prop :=
  ∀ (s : State) (bpv : BitVec 6), s.vbu.phase = .hdr →
    exec (.vbC32 bpv) s = .next (s.setVbu { s.vbu with bpv := bpv, sel := 0, cur := s.vbu.cur + 1, phase := .cnt })
      ∧ exec (.vbC16 bpv) s
          = .next (s.setVbu { s.vbu with bpv := bpv, sel := 1, cur := s.vbu.cur + 1, phase := .cnt })
      ∧ exec (.vbC8 bpv) s
          = .next (s.setVbu { s.vbu with bpv := bpv, sel := 2, cur := s.vbu.cur + 1, phase := .cnt })

/-- The count step of `VB.C32`, `VB.C16`, `VB.C8` where a field or the payload is missing: TruncatedBuffer at the count
field, or at the payload's first byte (40_vbu.md R62 to R65; 60_exceptions.md R94). -/
def Obligations.CountStepFaultsOnMissingBytes : Prop :=
  ∀ (s : State) (i : Instr) (sel : BitVec 2) (n : Nat), s.vbu.phase = .cnt → classify s.vbu.sel s.vbu.bpv = i →
    countedForm i = some (sel, n) →
    (s.mem.len < s.vbu.cur + n → exec i s = .next (s.vbuRaise .truncatedBuffer s.vbu.cur))
      ∧ ∀ count, s.mem.read s.vbu.cur n = some count →
        s.mem.len < s.vbu.cur + n + (count * s.vbu.bpv.toNat + 7) / 8 →
        exec i s = .next (s.vbuRaise .truncatedBuffer (s.vbu.cur + n))

/-- The count step of a block whose count is 0: DONE with the empty sequence, not absent, no word loaded (40_vbu.md
R71). That a count of 0 is the empty sequence is the spec's own decision D27 (log 21). The outcome is stated for a state
with an empty output and `absent` 0, as every run has in CNT (10_state.md R25). -/
def Obligations.EmptyBlockCompletesAtOnce : Prop :=
  ∀ (s : State) (i : Instr) (sel : BitVec 2) (n : Nat), s.vbu.phase = .cnt → classify s.vbu.sel s.vbu.bpv = i →
    countedForm i = some (sel, n) → s.mem.read s.vbu.cur n = some 0 →
    ∃ t, exec i s = .next t
      ∧ t = s.setVbu { s.vbu with
          count := 0, cur := s.vbu.cur + n, endAddr := s.vbu.cur + n, idx := 0, newoff := s.vbu.cur + n
          phase := .done }
      ∧ (s.vbu.out = [] → s.vbu.absent = false → t.vbuOutcome = some (.values [] (s.vbu.cur + n)))

/-- The count step of a block with values in the buffer: the count, the payload's end, and the first word with 32 bits
(40_vbu.md R62 to R66). -/
def Obligations.CountStepLoadsTheFirstWord : Prop :=
  ∀ (s : State) (i : Instr) (sel : BitVec 2) (n count : Nat), s.vbu.phase = .cnt →
    classify s.vbu.sel s.vbu.bpv = i → countedForm i = some (sel, n) →
    s.mem.read s.vbu.cur n = some count → count ≠ 0 →
    s.vbu.cur + n + (count * s.vbu.bpv.toNat + 7) / 8 ≤ s.mem.len →
    ∃ t w, exec i s = .next t
      ∧ w = fetchWordAt s.mem (s.vbu.cur + n) (s.vbu.cur + n + (count * s.vbu.bpv.toNat + 7) / 8)
      ∧ t = s.setVbu { s.vbu with
          count := t.vbu.count, endAddr := s.vbu.cur + n + (count * s.vbu.bpv.toNat + 7) / 8, idx := 0
          word := w.1, cur := w.2, rem := 32, phase := .unpack }
      ∧ t.vbu.count.toNat = count

/-- The word fetch: four bytes little-endian, or the tail word whose bytes are the high-order ones (40_vbu.md R66,
R67). -/
def Obligations.WordFetchFullAndTail : Prop :=
  ∀ (m : Memory) (cur e : Nat), cur < e → e ≤ m.len →
    (4 ≤ e - cur → (fetchWordAt m cur e).1.toNat = ∑ i ∈ Finset.range 4, m.byteVal (cur + i) * 2 ^ (8 * i)
        ∧ (fetchWordAt m cur e).2 = cur + 4)
      ∧ (e - cur < 4 →
        (fetchWordAt m cur e).1.toNat
            = ∑ i ∈ Finset.range (e - cur), m.byteVal (cur + i) * 2 ^ (8 * (4 - (e - cur) + i))
          ∧ (fetchWordAt m cur e).2 = e)

/-- The unpack step, a value that lies in the current word: its bits, what is left of the word, and the end after the
last value (40_vbu.md R68, R69). -/
def Obligations.UnpackStepWithinTheWord : Prop :=
  ∀ (s : State) (i : Instr) (f : BitVec 2 × Nat), s.vbu.phase = .unpack → classify s.vbu.sel s.vbu.bpv = i →
    countedForm i = some f → s.vbu.idx < s.vbu.count.toNat → s.vbu.bpv.toNat ≤ s.vbu.rem →
    ∃ t x, exec i s = .next t
      ∧ x.toNat = s.vbu.word.toNat / 2 ^ (s.vbu.rem - s.vbu.bpv.toNat) % 2 ^ s.vbu.bpv.toNat
      ∧ t = s.setVbu { s.vbu with
          rem := s.vbu.rem - s.vbu.bpv.toNat, out := s.vbu.out ++ [x], idx := s.vbu.idx + 1
          newoff := if s.vbu.idx + 1 = s.vbu.count.toNat then s.vbu.endAddr else s.vbu.newoff
          phase := if s.vbu.idx + 1 = s.vbu.count.toNat then .done else .unpack }

/-- The unpack step, a value that spans into the next word (40_vbu.md R68, R69). -/
def Obligations.UnpackStepAcrossWords : Prop :=
  ∀ (s : State) (i : Instr) (f : BitVec 2 × Nat), s.vbu.phase = .unpack → classify s.vbu.sel s.vbu.bpv = i →
    countedForm i = some f → s.vbu.idx < s.vbu.count.toNat → s.vbu.rem < s.vbu.bpv.toNat →
    s.vbu.cur < s.vbu.endAddr → s.vbu.endAddr ≤ s.mem.len →
    ∃ t x w, exec i s = .next t ∧ w = fetchWordAt s.mem s.vbu.cur s.vbu.endAddr
      ∧ x.toNat = s.vbu.word.toNat % 2 ^ s.vbu.rem * 2 ^ (s.vbu.bpv.toNat - s.vbu.rem)
          + w.1.toNat / 2 ^ (32 - (s.vbu.bpv.toNat - s.vbu.rem))
      ∧ x.toNat < 2 ^ s.vbu.bpv.toNat
      ∧ t = s.setVbu { s.vbu with
          word := w.1, cur := w.2, rem := 32 - (s.vbu.bpv.toNat - s.vbu.rem), out := s.vbu.out ++ [x]
          idx := s.vbu.idx + 1
          newoff := if s.vbu.idx + 1 = s.vbu.count.toNat then s.vbu.endAddr else s.vbu.newoff
          phase := if s.vbu.idx + 1 = s.vbu.count.toNat then .done else .unpack }

/-! ### RLD, row by row -/

/-- The loop test reads only the budget: below 3, every negative value included, the end record is next; else a run
record is (41_rld.md R75). -/
def Obligations.LoopTestReadsOnlyTheBudget : Prop :=
  ∀ s : State, s.host = [] → s.vbu.phase.busy = false → s.rld.phase = .head →
    (s.rld.budget < 3 → step s = .next (s.setRld { s.rld with phase := .endRec }))
      ∧ (3 ≤ s.rld.budget → s.rld.cur + 2 ≤ s.mem.len →
          ∃ w : Half, w.toNat = s.mem.byteVal s.rld.cur + 256 * s.mem.byteVal (s.rld.cur + 1)
            ∧ step s = exec (if w.toInt < 0 then .rlRep w else .rlLit w) s)
      ∧ (3 ≤ s.rld.budget → s.mem.len < s.rld.cur + 2 →
          step s = .next (s.rldRaise .truncatedBuffer s.rld.cur))

/-- `RL.LIT` at the head of the loop: the whole run is checked first; then the count is consumed and the budget pays,
also beyond zero (41_rld.md R76, R77). -/
def Obligations.LiteralRecordStarts : Prop :=
  ∀ (s : State) (cnt : Half), s.rld.phase = .head → 3 ≤ s.rld.budget → 0 ≤ cnt.toInt →
    (s.mem.len < s.rld.cur + 2 + cnt.toNat →
      exec (.rlLit cnt) s = .next (s.rldRaise .truncatedBuffer (s.rld.cur + 2)))
    ∧ (s.rld.cur + 2 + cnt.toNat ≤ s.mem.len →
      exec (.rlLit cnt) s = .next (s.setRld { s.rld with
        cnt := cnt, cur := s.rld.cur + 2, left := cnt.toNat, budget := s.rld.budget - (2 + cnt.toInt)
        phase := if cnt = 0 then .head else .lit }))

/-- One byte of a literal run (41_rld.md R77, R84). -/
def Obligations.LiteralByteIsCopied : Prop :=
  ∀ s : State, s.rld.phase = .lit → 1 ≤ s.rld.left → s.rld.cur < s.mem.len →
    ∃ t b, exec (.rlLit s.rld.cnt) s = .next t ∧ s.mem.byte? s.rld.cur = some b
      ∧ t = s.setRld { s.rld with
          out := s.rld.out ++ [b], cur := s.rld.cur + 1, left := s.rld.left - 1
          phase := if s.rld.left = 1 then .head else .lit }

/-- A literal run, whole: `left` steps copy the buffer's bytes from the cursor on, in address order, and nothing else
changes (41_rld.md R77). -/
def Obligations.LiteralRunCopiesTheBytes : Prop :=
  ∀ s : State, s.host = [] → s.vbu.phase.busy = false → s.rld.phase = .lit → 1 ≤ s.rld.left →
    s.rld.cur + s.rld.left ≤ s.mem.len →
    runSteps s.rld.left s = .next (s.setRld { s.rld with
      out := s.rld.out ++ (List.range s.rld.left).map (fun k => cellAt s.mem.cells (s.rld.cur + k))
      cur := s.rld.cur + s.rld.left, left := 0, phase := .head })

/-- `RL.REP` at the head of the loop: the byte after the count, `-cnt` bytes to emit (32768 for `-32768`), 3 of the
budget (41_rld.md R76, R78). -/
def Obligations.RepeatRecordStarts : Prop :=
  ∀ (s : State) (cnt : Half), s.rld.phase = .head → 3 ≤ s.rld.budget → cnt.toInt < 0 →
    (s.mem.len < s.rld.cur + 3 →
      exec (.rlRep cnt) s = .next (s.rldRaise .truncatedBuffer (s.rld.cur + 2)))
    ∧ (s.rld.cur + 3 ≤ s.mem.len →
      ∃ t b, exec (.rlRep cnt) s = .next t ∧ s.mem.byte? (s.rld.cur + 2) = some b
        ∧ t = s.setRld { s.rld with
            cnt := cnt, rbyte := b, cur := s.rld.cur + 3, left := t.rld.left, budget := s.rld.budget - 3
            phase := .rep }
        ∧ (t.rld.left : Int) = -cnt.toInt)

/-- A repeat run, whole: `left` steps emit the record's byte `left` times, and nothing else changes (41_rld.md R78). -/
def Obligations.RepeatRunEmitsTheByte : Prop :=
  ∀ s : State, s.host = [] → s.vbu.phase.busy = false → s.rld.phase = .rep → 1 ≤ s.rld.left →
    runSteps s.rld.left s = .next (s.setRld { s.rld with
      out := s.rld.out ++ List.replicate s.rld.left s.rld.rbyte, left := 0, phase := .head })

/-- `RL.END`: the sentinel at the cursor, bound-checked against the buffer only; the cursor stays (41_rld.md R79). The
bound check for every budget is the spec's own decision D12, the unmoved cursor and `endcur` its decision D28
(log 21). -/
def Obligations.EndRecordChecksTheSentinel : Prop :=
  ∀ s : State, s.rld.phase = .endRec →
    (s.mem.len < s.rld.cur + 2 → exec .rlEnd s = .next (s.rldRaise .truncatedBuffer s.rld.cur))
      ∧ ∀ w : Half, s.rld.cur + 2 ≤ s.mem.len →
        w.toNat = s.mem.byteVal s.rld.cur + 256 * s.mem.byteVal (s.rld.cur + 1) →
        (w = s.params.rleEos →
          exec .rlEnd s = .next (s.setRld { s.rld with endcur := s.rld.cur + 2, phase := .done }))
        ∧ (w ≠ s.params.rleEos → exec .rlEnd s = .next (s.rldRaise .corruptStream s.rld.cur))

/-- The budget accounting: while a command runs, the cursor and the budget (with what is left of a literal run) add up
to the same number, so at every HEAD `cur - offset = byteCount - budget` (41_rld.md R81, R84). -/
def Obligations.CursorAndBudgetBalance : Prop :=
  (∀ (s t : State) (offset : Nat) (byteCount : BitVec 32), exec (.rldDecode offset byteCount) s = .next t →
      t.rld.ledger = offset + byteCount.toNat)
    ∧ ∀ s t : State, step s = .next t → s.rld.phase.busy = true → t.rld.phase.busy = true →
      t.rld.ledger = s.rld.ledger

/-! ### Faults -/

/-- Taking a fault, in whichever step: the four or five writes of the fault entry, in place of every other write; the
other unit, the buffer and the parameters as before (60_exceptions.md R99). That `cur`, `sel`, `bpv`, `count`, `cnt` and
`budget` stay as before the step, also where a table row lists R59, R62 or R76 before the raise, is the model's reading
of R99 (log 7; 93_implementation_defined.md U7 allows any value). -/
def Obligations.FaultEntryWritesOnlyItsRegisters : Prop :=
  ∀ s t : State, step s = .next t →
    (s.vbu.phase ≠ .fault → t.vbu.phase = .fault →
      t.vbu = { s.vbu with err := t.vbu.err, faddr := t.vbu.faddr, out := [], phase := .fault, absent := false }
        ∧ t.rld = s.rld ∧ t.mem = s.mem ∧ t.params = s.params ∧ t.free = s.free)
    ∧ (s.rld.phase ≠ .fault → t.rld.phase = .fault →
      t.rld = { s.rld with err := t.rld.err, faddr := t.rld.faddr, out := [], phase := .fault }
        ∧ t.vbu = s.vbu ∧ t.mem = s.mem ∧ t.params = s.params ∧ t.free = s.free)

/-- Every fault of VBU has one of four causes, with the kind and the address of its cause (60_exceptions.md R94, R96,
R98, R100). -/
def Obligations.VbuFaultsHaveTheListedCauses : Prop :=
  ∀ s t : State, step s = .next t → s.vbu.phase ≠ .fault → t.vbu.phase = .fault →
    (s.vbu.phase = .hdr ∧ s.mem.len < s.vbu.cur + 1 ∧ t.vbu.err = .truncatedBuffer ∧ t.vbu.faddr = s.vbu.cur)
      ∨ (s.vbu.phase = .hdr ∧ t.vbu.err = .corruptStream ∧ t.vbu.faddr = s.vbu.cur
        ∧ ∃ h, s.mem.byte? s.vbu.cur = some h ∧ h.toNat % 64 ≠ 0 ∧ (h.toNat / 64 = 3 ∨ 32 < h.toNat % 64))
      ∨ (s.vbu.phase = .cnt ∧ t.vbu.err = .truncatedBuffer ∧ t.vbu.faddr = s.vbu.cur
        ∧ ∃ n, Config.selWidth s.vbu.sel = some n ∧ s.mem.len < s.vbu.cur + n)
      ∨ (s.vbu.phase = .cnt ∧ t.vbu.err = .truncatedBuffer
        ∧ ∃ n count, Config.selWidth s.vbu.sel = some n ∧ t.vbu.faddr = s.vbu.cur + n
          ∧ s.mem.read s.vbu.cur n = some count
          ∧ s.mem.len < s.vbu.cur + n + (count * s.vbu.bpv.toNat + 7) / 8)

/-- Every fault of RLD has one of five causes, with the kind and the address of its cause (60_exceptions.md R94, R96,
R98, R100). -/
def Obligations.RldFaultsHaveTheListedCauses : Prop :=
  ∀ s t : State, step s = .next t → s.rld.phase ≠ .fault → t.rld.phase = .fault →
    (s.rld.phase = .head ∧ 3 ≤ s.rld.budget ∧ t.rld.err = .truncatedBuffer
      ∧ ((s.mem.len < s.rld.cur + 2 ∧ t.rld.faddr = s.rld.cur)
        ∨ ∃ w : Half, s.mem.read s.rld.cur 2 = some w.toNat ∧ t.rld.faddr = s.rld.cur + 2
          ∧ ((w.toInt < 0 ∧ s.mem.len < s.rld.cur + 2 + 1)
            ∨ (0 ≤ w.toInt ∧ s.mem.len < s.rld.cur + 2 + w.toNat))))
      ∨ (s.rld.phase = .endRec ∧ t.rld.faddr = s.rld.cur
        ∧ ((s.mem.len < s.rld.cur + 2 ∧ t.rld.err = .truncatedBuffer)
          ∨ ∃ w : Half, s.mem.read s.rld.cur 2 = some w.toNat ∧ w ≠ s.params.rleEos
            ∧ t.rld.err = .corruptStream))

/-- FormatError is never raised (60_exceptions.md R95). -/
def Obligations.FormatErrorIsNeverRaised : Prop :=
  ∀ s t : State, step s = .next t →
    (s.vbu.err ≠ .formatError → t.vbu.err ≠ .formatError) ∧ (s.rld.err ≠ .formatError → t.rld.err ≠ .formatError)

/-- A unit leaves FAULT only by a new command to it, which clears `err`, or by reset (60_exceptions.md R102). -/
def Obligations.FaultIsLeftOnlyByCommandOrReset : Prop :=
  ∀ s t : State, step s = .next t →
    (s.vbu.phase = .fault → t.vbu ≠ s.vbu → t.vbu.err = .none
      ∧ ((∃ offset rest, s.host = .vbuRead offset :: rest ∧ t.vbu.phase = .hdr)
        ∨ ∃ rest, s.host = .reset :: rest ∧ t.vbu.phase = .idle))
    ∧ (s.rld.phase = .fault → t.rld ≠ s.rld → t.rld.err = .none
      ∧ ((∃ offset n rest, s.host = .rldDecode offset n :: rest ∧ t.rld.phase = .head)
        ∨ ∃ rest, s.host = .reset :: rest ∧ t.rld.phase = .idle))

/-! ### Frames and whole-machine rules -/

/-- The two units share no register and no output sequence: an instruction of one leaves the other as it was
(10_state.md R13; 70_reset_and_hazards.md R114). -/
def Obligations.UnitsLeaveEachOtherAlone : Prop :=
  ∀ (i : Instr) (s t : State), exec i s = .next t →
    (unitIsVbu i = true → t.rld = s.rld) ∧ (unitIsVbu i = false → t.vbu = s.vbu)

/-- While a command runs its unit only appends to its output, at most one element a step, until it ends in a fault or
is reset (10_state.md R17). -/
def Obligations.OutputsOnlyGrowWhileACommandRuns : Prop :=
  ∀ s t : State, step s = .next t → (∀ rest, s.host ≠ .reset :: rest) →
    (s.vbu.phase.busy = true → t.vbu.phase ≠ .fault →
      t.vbu.out = s.vbu.out ∨ ∃ x, t.vbu.out = s.vbu.out ++ [x])
    ∧ (s.rld.phase.busy = true → t.rld.phase ≠ .fault →
      t.rld.out = s.rld.out ∨ ∃ b, t.rld.out = s.rld.out ++ [b])

/-- A cursor only ever increases during a command (10_state.md R16). -/
def Obligations.CursorsNeverMoveBackwards : Prop :=
  ∀ s t : State, step s = .next t → (∀ rest, s.host ≠ .reset :: rest) →
    (s.vbu.phase.busy = true → s.vbu.cur ≤ t.vbu.cur) ∧ (s.rld.phase.busy = true → s.rld.cur ≤ t.rld.cur)

/-- A block with values that completes leaves the cursor at its end: every word of the payload was fetched (40_vbu.md
R68, R69). -/
def Obligations.CursorEndsWhereTheBlockEnds : Prop :=
  ∀ s t : State, s.Inv → step s = .next t → s.vbu.phase = .unpack → t.vbu.phase = .done →
    t.vbu.cur = t.vbu.newoff ∧ t.vbu.newoff = s.vbu.endAddr ∧ t.vbu.out.length = s.vbu.count.toNat

/-- With no command and no unit busy nothing changes (40_vbu.md R72, 41_rld.md R84, last rows). -/
def Obligations.NothingChangesWithoutACommand : Prop :=
  ∀ s : State, s.host = [] → s.busy = false → step s = .next s

/-- A step runs the decoded element: where the bytes at the busy unit's cursor decode to an instruction, the step is
that instruction's; past the first byte or field it is the element the registers hold. -/
def Obligations.StepRunsTheDecodedElement : Prop :=
  ∀ s : State, s.host = [] →
    (s.rld.phase.busy = false →
      (s.vbu.phase = .hdr → ∀ i rest, decode s.params .header (s.mem.window s.vbu.cur 1) = .ok i rest →
        step s = exec i s)
      ∧ (s.vbu.phase = .cnt ∨ s.vbu.phase = .unpack → step s = exec (classify s.vbu.sel s.vbu.bpv) s))
    ∧ (s.vbu.phase.busy = false →
      (s.rld.phase = .head → 3 ≤ s.rld.budget → ∀ i rest,
        decode s.params .runLoop (s.mem.window s.rld.cur 2) = .ok i rest → step s = exec i s)
      ∧ (s.rld.phase = .endRec → ∀ i rest,
        decode s.params .afterLoop (s.mem.window s.rld.cur 2) = .ok i rest → step s = exec i s)
      ∧ (s.rld.phase = .lit → step s = exec (.rlLit s.rld.cnt) s)
      ∧ (s.rld.phase = .rep → step s = exec (.rlRep s.rld.cnt) s))

/-- The host reads the registers' fields where they are valid (10_state.md R20, R21; 42_commands.md R91): the result
registers in DONE or FAULT, both status registers in every phase (93_implementation_defined.md U5). That the `absent` bit
is `VBU.absent` outside DONE too is the model's reading (log 6). -/
def Obligations.HostReadsTheValidRegisters : Prop :=
  ∀ (s : State) (n : Nat),
    (s.vbu.phase = .done →
      s.readReg n .vbuNewoff = .num s.vbu.newoff ∧ s.readReg n .vbuBpv = .num s.vbu.bpv.toNat
        ∧ s.readReg n .vbuOut = .words s.vbu.out
        ∧ (s.vbu.absent = false → s.readReg n .vbuCount = .num s.vbu.count.toNat) ∧ s.vbuValid = true)
    ∧ (s.vbu.phase = .fault → s.readReg n .vbuFaddr = .num s.vbu.faddr ∧ s.vbuValid = false)
    ∧ (s.rld.phase = .done →
      s.readReg n .rldOutlen = .num s.rld.out.length ∧ s.readReg n .rldEndcur = .num s.rld.endcur
        ∧ s.readReg n .rldOut = .bytes s.rld.out ∧ s.rldValid = true)
    ∧ (s.rld.phase = .fault → s.readReg n .rldFaddr = .num s.rld.faddr ∧ s.rldValid = false)
    ∧ s.readReg n .rldStatus = .num (s.rld.phase.st + 8 * s.rld.err.code)
    ∧ s.readReg n .vbuStatus = .num (s.vbu.phase.st + 4 * bitOf s.vbu.absent + 8 * s.vbu.err.code)
    ∧ s.vbuStatus % 4 = s.vbu.phase.st ∧ s.vbuStatus / 4 % 2 = bitOf s.vbu.absent ∧ s.vbuStatus / 8 = s.vbu.err.code

/-! ### Invariants -/

/-- The invariant holds after reset. -/
def Obligations.ResetMeetsTheInvariant : Prop := State.reset.Inv

/-- Every step keeps the invariant of the block: canonical buffer, one busy unit, and the registers of each phase as the
transition tables say (40_vbu.md R72, 41_rld.md R84). -/
def Obligations.EveryStepKeepsTheInvariant : Prop := ∀ s t : State, s.Inv → step s = .next t → t.Inv

/-- The block cannot get stuck: with a host that keeps its duties, a good state always has a next one (40_vbu.md R65:
no fetch leaves the payload; 70_reset_and_hazards.md R117: a unit in a busy phase always has a step). -/
def Obligations.DutifulHostNeverStopsTheBlock : Prop :=
  ∀ s : State, s.Inv → s.hostDutiful = true → ∃ t, step s = .next t

/-- Every command ends: from every good state the block reaches one with no unit busy (70_reset_and_hazards.md R117,
41_rld.md R82). -/
def Obligations.EveryCommandEnds : Prop :=
  ∀ s : State, s.Inv → s.host = [] → ∃ n t, n ≤ 2 ^ 48 ∧ runSteps n s = .next t ∧ t.busy = false

/-! ### The two levels of description -/

/-- Running VBU's small-step machine from a command yields the big-step outcome, in at most `2 + 2^32` steps after the
command's; the other unit and the buffer are as before (00_scope.md R10; 40_vbu.md R58, R72). -/
def Obligations.VbuRunYieldsTheBigStepOutcome : Prop :=
  ∀ (s : State) (offset : Nat), s.busy = false → offset < 2 ^ s.params.addrW →
    ∃ n t, n ≤ 2 + 2 ^ 32 ∧ runSteps (n + 1) (s.setHost [.vbuRead offset]) = .next t
      ∧ t.vbuOutcome = some (vbuRead s.mem offset) ∧ t.rld = s.rld ∧ t.mem = s.mem ∧ t.busy = false

/-- Running RLD's small-step machine from a command yields the big-step outcome, with the bound on the steps that the
bound on the records gives (00_scope.md R10; 41_rld.md R73, R82, R84). -/
def Obligations.RldRunYieldsTheBigStepOutcome : Prop :=
  ∀ (s : State) (offset : Nat) (byteCount : BitVec 32), s.busy = false → offset < 2 ^ s.params.addrW →
    ∃ n t, n ≤ 32769 * ((byteCount.toNat - 1) / 2) + 2
      ∧ runSteps (n + 1) (s.setHost [.rldDecode offset byteCount]) = .next t
      ∧ t.rldOutcome = some (rldDecode s.mem s.params.rleEos offset byteCount) ∧ t.vbu = s.vbu ∧ t.mem = s.mem
      ∧ t.busy = false

/-- The closed form: value `i` of a block is the number whose digits are bits `i*bpv` to `(i+1)*bpv - 1` of the
payload's bit string, and the block ends at `offset + 1 + n + ceil(count*bpv/8)` (40_vbu.md R69, R70). -/
def Obligations.ValuesAreThePackedBits : Prop :=
  ∀ (m : Memory) (offset e : Nat) (seq : List Word), vbuRead m offset = .values seq e →
    ∃ h n count, m.read offset 1 = some h ∧ Config.selWidth (BitVec.ofNat 2 (h / 64)) = some n
      ∧ m.read (offset + 1) n = some count ∧ seq.length = count
      ∧ e = offset + 1 + n + (count * (h % 64) + 7) / 8 ∧ e ≤ m.len
      ∧ ∀ i < count, (seq[i]?).map BitVec.toNat = some (packedValue m (h % 64) (offset + 1 + n) e i)

/-- The reference packer and the unit agree: reading a packed stream, wherever it stands, returns the values packed and
the address after the stream (30_encoding.md R56). -/
def Obligations.PackedStreamReadsBack : Prop :=
  ∀ (sel : BitVec 2) (n : Nat) (bpv : BitVec 6) (values : List Nat) (before after : List Byte),
    Config.selWidth sel = some n → bpvLegal bpv = true → (∀ v ∈ values, v < 2 ^ bpv.toNat) →
    values.length < 2 ^ (8 * n) →
    vbuRead (Memory.ofBytes (before ++ pack sel n bpv values ++ after)) before.length
      = .values (values.map (BitVec.ofNat 32)) (before.length + (pack sel n bpv values).length)

/-- The reference encoder and the unit agree: decoding an encoded sequence, wherever it stands, returns the bytes
encoded (30_encoding.md R57). -/
def Obligations.EncodedBytesDecodeBack : Prop :=
  ∀ (eos : Half) (data before after : List Byte), (encodeRle eos data).length < 2 ^ 32 →
    rldDecode (Memory.ofBytes (before ++ encodeRle eos data ++ after)) eos before.length
      (BitVec.ofNat 32 (encodeRle eos data).length) = .bytes data

/-- A command sees nothing of the command before it: over one buffer and one set of parameters, the outcomes of two runs
are equal step for step, whatever the registers and the free values were (10_state.md R25). -/
def Obligations.CommandsSeeNothingOfTheCommandBefore : Prop :=
  ∀ (s s' : State) (n : Nat), s.mem = s'.mem → s.params = s'.params → s.busy = false → s'.busy = false →
    (∀ offset t t', runSteps (n + 1) (s.setHost [.vbuRead offset]) = .next t →
      runSteps (n + 1) (s'.setHost [.vbuRead offset]) = .next t' → t.vbuOutcome = t'.vbuOutcome)
    ∧ ∀ offset byteCount t t', runSteps (n + 1) (s.setHost [.rldDecode offset byteCount]) = .next t →
      runSteps (n + 1) (s'.setHost [.rldDecode offset byteCount]) = .next t' → t.rldOutcome = t'.rldOutcome
end

