-- ==== Sys2Proof/Laws/Memory.lean ====
section
/-! SUPPORT. What the reads of the buffer can answer, and that every operation that makes a buffer makes it canonical. -/

namespace Sys2Proof.Laws

open Sys2Proof.Machine

theorem cellsFrom_ok (limit : Nat) : ∀ (bytes : List Byte) (a lo : Nat), lo ≤ a → a + bytes.length ≤ limit →
    cellsOk limit lo (cellsFrom a bytes) = true
  | [], _, _, _, _ => rfl
  | b :: rest, a, lo, hlo, hlim => by
    simp only [List.length_cons] at hlim
    by_cases hb : b = 0
    · simp only [cellsFrom, hb, if_true]
      exact cellsFrom_ok limit rest (a + 1) lo (by omega) (by omega)
    · simp only [cellsFrom, hb, if_false, cellsOk, Bool.and_eq_true, decide_eq_true_eq, bne_iff_ne, ne_eq,
        not_false_eq_true, and_true]
      exact ⟨⟨hlo, by omega⟩, cellsFrom_ok limit rest (a + 1) (a + 1) (by omega) (by omega)⟩

/-- Loading a buffer makes it canonical. -/
theorem ofBytes_wf (bytes : List Byte) : (Memory.ofBytes bytes).wf = true :=
  cellsFrom_ok _ bytes 0 0 (Nat.le_refl 0) (by simp [Memory.ofBytes])

/-- Placing an instruction makes the buffer canonical. -/
theorem wordBuffer_wf (bytes : List Byte) (len : Nat) (h : bytes.length ≤ len) : (wordBuffer bytes len).wf = true :=
  cellsFrom_ok _ bytes 0 0 (Nat.le_refl 0) (by simpa [wordBuffer] using h)

theorem byteVal_lt (m : Memory) (a : Nat) : m.byteVal a < 256 := (cellAt m.cells a).isLt

/-- `MemRead` answers all bytes or none (20_memory.md R30). -/
theorem read_cases (m : Memory) (a n : Nat) :
    (m.len < a + n ∧ m.read a n = none) ∨ (a + n ≤ m.len ∧ m.read a n = some (m.leValue a n)) := by
  unfold Memory.read
  split
  · exact .inl ⟨‹_›, rfl⟩
  · exact .inr ⟨by omega, rfl⟩

theorem byte?_cases (m : Memory) (a : Nat) :
    (m.len ≤ a ∧ m.byte? a = none) ∨ (a < m.len ∧ m.byte? a = some (cellAt m.cells a)) := by
  unfold Memory.byte?
  split
  · exact .inr ⟨‹_›, rfl⟩
  · exact .inl ⟨by omega, rfl⟩

/-- The one-byte window is the byte at the address, if the buffer has it. -/
theorem window_one (m : Memory) (a : Nat) :
    m.window a 1 = if a < m.len then [cellAt m.cells a] else [] := rfl

/-- The two-byte window, if the buffer has both bytes. -/
theorem window_two (m : Memory) (a : Nat) (h : a + 2 ≤ m.len) :
    m.window a 2 = [cellAt m.cells a, cellAt m.cells (a + 1)] := by
  have h1 : a < m.len := by omega
  have h2 : a + 1 < m.len := by omega
  simp [Memory.window, h1, h2]

end Sys2Proof.Laws
end

