-- ==== Sys2Proof/Laws/PerInstr.lean ====
section
/-! SUPPORT. Facts about every instruction as syntax, one lemma a constructor. -/

namespace Sys2Proof.Laws.EncodeLength

/-- The encoder writes as many bytes as the instruction's row of the opcode table gives bits to. -/
def Statement (i : Instr) : Prop := ∀ p : Params, (encode p i).length = i.tableBytes

theorem vbNone (sel : BitVec 2) : Statement (.vbNone sel) := fun _ => rfl
theorem vbRsv (sel : BitVec 2) (bpv : BitVec 6) : Statement (.vbRsv sel bpv) := fun _ => rfl
theorem vbC32 (bpv : BitVec 6) : Statement (.vbC32 bpv) := fun _ => rfl
theorem vbC16 (bpv : BitVec 6) : Statement (.vbC16 bpv) := fun _ => rfl
theorem vbC8 (bpv : BitVec 6) : Statement (.vbC8 bpv) := fun _ => rfl
theorem rlLit (cnt : Half) : Statement (.rlLit cnt) := fun _ => rfl
theorem rlRep (cnt : Half) : Statement (.rlRep cnt) := fun _ => rfl
theorem rlEnd : Statement .rlEnd := fun _ => rfl
theorem vbuRead (offset : Nat) : Statement (.vbuRead offset) := fun _ => rfl
theorem rldDecode (offset : Nat) (byteCount : BitVec 32) : Statement (.rldDecode offset byteCount) := fun _ => rfl

end Sys2Proof.Laws.EncodeLength
end

