-- ==== Sys2Proof/Laws/State.lean ====
section
/-! SUPPORT. The fields of each named update of the state, so that no later proof unfolds a record update. -/

namespace Sys2Proof.Laws

open Sys2Proof.Machine

variable (s : State)

@[simp] theorem setVbu_vbu (v : VbuRegs) : (s.setVbu v).vbu = v := rfl
@[simp] theorem setVbu_rld (v : VbuRegs) : (s.setVbu v).rld = s.rld := rfl
@[simp] theorem setVbu_mem (v : VbuRegs) : (s.setVbu v).mem = s.mem := rfl
@[simp] theorem setVbu_params (v : VbuRegs) : (s.setVbu v).params = s.params := rfl
@[simp] theorem setVbu_host (v : VbuRegs) : (s.setVbu v).host = s.host := rfl
@[simp] theorem setVbu_free (v : VbuRegs) : (s.setVbu v).free = s.free := rfl

@[simp] theorem setRld_vbu (r : RldRegs) : (s.setRld r).vbu = s.vbu := rfl
@[simp] theorem setRld_rld (r : RldRegs) : (s.setRld r).rld = r := rfl
@[simp] theorem setRld_mem (r : RldRegs) : (s.setRld r).mem = s.mem := rfl
@[simp] theorem setRld_params (r : RldRegs) : (s.setRld r).params = s.params := rfl
@[simp] theorem setRld_host (r : RldRegs) : (s.setRld r).host = s.host := rfl
@[simp] theorem setRld_free (r : RldRegs) : (s.setRld r).free = s.free := rfl

@[simp] theorem setMem_vbu (m : Memory) : (s.setMem m).vbu = s.vbu := rfl
@[simp] theorem setMem_rld (m : Memory) : (s.setMem m).rld = s.rld := rfl
@[simp] theorem setMem_mem (m : Memory) : (s.setMem m).mem = m := rfl
@[simp] theorem setMem_params (m : Memory) : (s.setMem m).params = s.params := rfl
@[simp] theorem setMem_host (m : Memory) : (s.setMem m).host = s.host := rfl
@[simp] theorem setMem_free (m : Memory) : (s.setMem m).free = s.free := rfl

@[simp] theorem setHost_vbu (h : List HostEvent) : (s.setHost h).vbu = s.vbu := rfl
@[simp] theorem setHost_rld (h : List HostEvent) : (s.setHost h).rld = s.rld := rfl
@[simp] theorem setHost_mem (h : List HostEvent) : (s.setHost h).mem = s.mem := rfl
@[simp] theorem setHost_params (h : List HostEvent) : (s.setHost h).params = s.params := rfl
@[simp] theorem setHost_host (h : List HostEvent) : (s.setHost h).host = h := rfl
@[simp] theorem setHost_free (h : List HostEvent) : (s.setHost h).free = s.free := rfl
@[simp] theorem setHost_busy (h : List HostEvent) : (s.setHost h).busy = s.busy := rfl

@[simp] theorem tickFree_vbu : s.tickFree.vbu = s.vbu := rfl
@[simp] theorem tickFree_rld : s.tickFree.rld = s.rld := rfl
@[simp] theorem tickFree_mem : s.tickFree.mem = s.mem := rfl
@[simp] theorem tickFree_params : s.tickFree.params = s.params := rfl
@[simp] theorem tickFree_host : s.tickFree.host = s.host := rfl
@[simp] theorem tickFree_free : s.tickFree.free = s.free + 1 := rfl

@[simp] theorem resetUnits_vbu : s.resetUnits.vbu = VbuRegs.reset := rfl
@[simp] theorem resetUnits_rld : s.resetUnits.rld = RldRegs.reset := rfl
@[simp] theorem resetUnits_mem : s.resetUnits.mem = s.mem := rfl
@[simp] theorem resetUnits_params : s.resetUnits.params = s.params := rfl
@[simp] theorem resetUnits_host : s.resetUnits.host = s.host := rfl
@[simp] theorem resetUnits_free : s.resetUnits.free = s.free := rfl

section Raise

variable (k : ErrKind) (a : Nat)

@[simp] theorem vbuRaise_vbu : (s.vbuRaise k a).vbu
    = { s.vbu with err := k, faddr := a, out := [], phase := .fault, absent := false } := rfl
@[simp] theorem vbuRaise_rld : (s.vbuRaise k a).rld = s.rld := rfl
@[simp] theorem vbuRaise_mem : (s.vbuRaise k a).mem = s.mem := rfl
@[simp] theorem vbuRaise_params : (s.vbuRaise k a).params = s.params := rfl
@[simp] theorem vbuRaise_host : (s.vbuRaise k a).host = s.host := rfl
@[simp] theorem vbuRaise_free : (s.vbuRaise k a).free = s.free := rfl

@[simp] theorem rldRaise_vbu : (s.rldRaise k a).vbu = s.vbu := rfl
@[simp] theorem rldRaise_rld : (s.rldRaise k a).rld
    = { s.rld with err := k, faddr := a, out := [], phase := .fault } := rfl
@[simp] theorem rldRaise_mem : (s.rldRaise k a).mem = s.mem := rfl
@[simp] theorem rldRaise_params : (s.rldRaise k a).params = s.params := rfl
@[simp] theorem rldRaise_host : (s.rldRaise k a).host = s.host := rfl
@[simp] theorem rldRaise_free : (s.rldRaise k a).free = s.free := rfl

end Raise

section Start

variable (offset : Nat) (n : BitVec 32)

@[simp] theorem startVbu_phase : (s.startVbu offset).vbu.phase = .hdr := rfl
@[simp] theorem startVbu_cur : (s.startVbu offset).vbu.cur = offset := rfl
@[simp] theorem startVbu_absent : (s.startVbu offset).vbu.absent = false := rfl
@[simp] theorem startVbu_err : (s.startVbu offset).vbu.err = .none := rfl
@[simp] theorem startVbu_out : (s.startVbu offset).vbu.out = [] := rfl
@[simp] theorem startVbu_rld : (s.startVbu offset).rld = s.rld := rfl
@[simp] theorem startVbu_mem : (s.startVbu offset).mem = s.mem := rfl
@[simp] theorem startVbu_params : (s.startVbu offset).params = s.params := rfl
@[simp] theorem startVbu_host : (s.startVbu offset).host = s.host := rfl
@[simp] theorem startVbu_free : (s.startVbu offset).free = s.free + 1 := rfl

@[simp] theorem startRld_phase : (s.startRld offset n).rld.phase = .head := rfl
@[simp] theorem startRld_cur : (s.startRld offset n).rld.cur = offset := rfl
@[simp] theorem startRld_budget : (s.startRld offset n).rld.budget = n.toNat := rfl
@[simp] theorem startRld_err : (s.startRld offset n).rld.err = .none := rfl
@[simp] theorem startRld_out : (s.startRld offset n).rld.out = [] := rfl
@[simp] theorem startRld_vbu : (s.startRld offset n).vbu = s.vbu := rfl
@[simp] theorem startRld_mem : (s.startRld offset n).mem = s.mem := rfl
@[simp] theorem startRld_params : (s.startRld offset n).params = s.params := rfl
@[simp] theorem startRld_host : (s.startRld offset n).host = s.host := rfl
@[simp] theorem startRld_free : (s.startRld offset n).free = s.free + 1 := rfl

end Start

section Emit

variable (v : VbuRegs) (r : RldRegs) (x : Word) (b : Byte)

@[simp] theorem emit_out : (v.emit x).out = v.out ++ [x] := rfl
@[simp] theorem emit_rest : v.emit x = { v with out := v.out ++ [x] } := rfl
@[simp] theorem rldEmit_out : (r.emit b).out = r.out ++ [b] := rfl
@[simp] theorem rldEmit_rest : r.emit b = { r with out := r.out ++ [b] } := rfl

end Emit

end Sys2Proof.Laws
end

