-- ==== Sys2Proof/Laws/Rld.lean ====
section
/-! SUPPORT. Everything the shared operations of RLD can do. -/

namespace Sys2Proof.Laws

open Sys2Proof.Machine

/-- The start of a literal record: the whole run lies in the buffer, or the fault is taken (41_rld.md R77). -/
theorem startLiteral_cases (cnt : Half) (s : State) :
    (s.mem.len < s.rld.cur + 2 + literalLen cnt
        ∧ startLiteral cnt s = s.rldRaise .truncatedBuffer (s.rld.cur + 2))
      ∨ (s.rld.cur + 2 + literalLen cnt ≤ s.mem.len
        ∧ startLiteral cnt s = s.setRld { s.rld with
            cnt := cnt, cur := s.rld.cur + 2, left := literalLen cnt, budget := s.rld.budget - literalCost cnt
            phase := if literalLen cnt = 0 then .head else .lit }) := by
  by_cases h : s.mem.len < s.rld.cur + 2 + literalLen cnt
  · exact .inl ⟨h, by simp [startLiteral, h]⟩
  · exact .inr ⟨by omega, by simp [startLiteral, h]⟩

/-- The start of a repeat record: its byte lies in the buffer, or the fault is taken (41_rld.md R78). -/
theorem startRepeat_cases (cnt : Half) (s : State) :
    (s.mem.len ≤ s.rld.cur + 2 ∧ startRepeat cnt s = s.rldRaise .truncatedBuffer (s.rld.cur + 2))
      ∨ (s.rld.cur + 2 < s.mem.len
        ∧ startRepeat cnt s = s.setRld { s.rld with
            cnt := cnt, cur := s.rld.cur + 3, rbyte := cellAt s.mem.cells (s.rld.cur + 2), left := repeatLen cnt
            budget := s.rld.budget - repeatCost, phase := .rep }) := by
  unfold startRepeat
  obtain ⟨hl, hb⟩ | ⟨hl, hb⟩ := byte?_cases s.mem (s.rld.cur + 2)
  · exact .inl ⟨hl, by simp [hb]⟩
  · exact .inr ⟨hl, by simp [hb]⟩

/-- If a literal byte step answers a next state, the byte at the cursor was emitted (41_rld.md R84, rows of LIT). -/
theorem literalByte_next {s t : State} (h : literalByte s = .next t) :
    1 ≤ s.rld.left ∧ s.rld.cur < s.mem.len
      ∧ t = s.setRld { s.rld with
          out := s.rld.out ++ [cellAt s.mem.cells s.rld.cur], cur := s.rld.cur + 1, left := s.rld.left - 1
          phase := runPhase .lit s.rld.left } := by
  unfold literalByte at h
  split at h
  · cases h
  · rename_i h0
    obtain ⟨-, hb⟩ | ⟨hl, hb⟩ := byte?_cases s.mem s.rld.cur
    · simp only [hb] at h
      cases h
    · simp only [hb] at h
      exact ⟨by omega, hl, (Host.Outcome.next.inj h).symm⟩

/-- If a repeat byte step answers a next state, the record's byte was emitted (41_rld.md R84, rows of REP). -/
theorem repeatByte_next {s t : State} (h : repeatByte s = .next t) :
    1 ≤ s.rld.left
      ∧ t = s.setRld { s.rld with
          out := s.rld.out ++ [s.rld.rbyte], left := s.rld.left - 1, phase := runPhase .rep s.rld.left } := by
  unfold repeatByte at h
  split at h
  · cases h
  · exact ⟨by omega, (Host.Outcome.next.inj h).symm⟩

/-- The check of the end record: missing, right, or wrong (41_rld.md R79). -/
theorem checkSentinel_cases (s : State) :
    (s.mem.len < s.rld.cur + 2 ∧ checkSentinel s = s.rldRaise .truncatedBuffer s.rld.cur)
      ∨ (s.rld.cur + 2 ≤ s.mem.len ∧ BitVec.ofNat 16 (s.mem.leValue s.rld.cur 2) = s.params.rleEos
        ∧ checkSentinel s = s.setRld { s.rld with endcur := s.rld.cur + 2, phase := .done })
      ∨ (s.rld.cur + 2 ≤ s.mem.len ∧ BitVec.ofNat 16 (s.mem.leValue s.rld.cur 2) ≠ s.params.rleEos
        ∧ checkSentinel s = s.rldRaise .corruptStream s.rld.cur) := by
  unfold checkSentinel
  obtain ⟨hl, hr⟩ | ⟨hl, hr⟩ := read_cases s.mem s.rld.cur 2
  · exact .inl ⟨hl, by simp [hr]⟩
  · refine .inr ?_
    simp only [hr]
    split
    · exact .inl ⟨hl, ‹_›, rfl⟩
    · exact .inr ⟨hl, ‹_›, rfl⟩

/-- If `RL.LIT` answers a next state, it started in the run loop or emitted one byte. -/
theorem execRlLit_next {cnt : Half} {s t : State} (h : execRlLit cnt s = .next t) :
    (s.rld.phase = .head ∧ Config.rleMinBudget ≤ s.rld.budget ∧ t = startLiteral cnt s)
      ∨ (s.rld.phase = .lit ∧ s.rld.cnt = cnt ∧ literalByte s = .next t) := by
  unfold execRlLit at h
  split at h
  case h_1 hp =>
    split at h
    · cases h
    · exact .inl ⟨hp, by omega, (Host.Outcome.next.inj h).symm⟩
  case h_2 hp =>
    split at h
    · exact .inr ⟨hp, ‹_›, h⟩
    · cases h
  all_goals cases h

/-- If `RL.REP` answers a next state, it started in the run loop or emitted one byte. -/
theorem execRlRep_next {cnt : Half} {s t : State} (h : execRlRep cnt s = .next t) :
    (s.rld.phase = .head ∧ Config.rleMinBudget ≤ s.rld.budget ∧ t = startRepeat cnt s)
      ∨ (s.rld.phase = .rep ∧ s.rld.cnt = cnt ∧ repeatByte s = .next t) := by
  unfold execRlRep at h
  split at h
  case h_1 hp =>
    split at h
    · cases h
    · exact .inl ⟨hp, by omega, (Host.Outcome.next.inj h).symm⟩
  case h_2 hp =>
    split at h
    · exact .inr ⟨hp, ‹_›, h⟩
    · cases h
  all_goals cases h

/-- If `RL.END` answers a next state, RLD is in END and the sentinel was checked. -/
theorem execRlEnd_next {s t : State} (h : execRlEnd s = .next t) : s.rld.phase = .endRec ∧ t = checkSentinel s := by
  unfold execRlEnd at h
  split at h
  case h_1 hp => exact ⟨hp, (Host.Outcome.next.inj h).symm⟩
  all_goals cases h

/-- If `RLD.DECODE` answers a next state, it was accepted and started the unit (42_commands.md R87). -/
theorem execRldDecode_next {offset : Nat} {n : BitVec 32} {s t : State} (h : execRldDecode offset n s = .next t) :
    s.busy = false ∧ offset < 2 ^ s.params.addrW ∧ t = s.startRld offset n := by
  unfold execRldDecode State.commandRefusal at h
  by_cases hb : s.busy = true
  · simp [hb] at h
  · by_cases ho : 2 ^ s.params.addrW ≤ offset
    · simp [hb, ho] at h
    · simp only [hb, ho, if_false, Host.Outcome.next.injEq, Bool.false_eq_true] at h
      exact ⟨by simpa using hb, by omega, h.symm⟩

end Sys2Proof.Laws
end

