-- ==== Sys2Proof/Laws/Step.lean ====
section
/-! SUPPORT. Everything a step can be due to do. -/

namespace Sys2Proof.Laws

open Sys2Proof.Machine

/-- A step that answers a next state ran an instruction that was due, or made the change that was due. -/
theorem step_next {s t : State} (h : step s = .next t) :
    (∃ i u, s.due = .run i u ∧ exec i u = .next t) ∨ s.due = .go t := by
  unfold step at h
  split at h
  · exact .inl ⟨_, _, ‹_›, h⟩
  · rename_i hd
    exact .inr (by rw [hd, Host.Outcome.next.inj h])
  · cases h

/-- What the host's next event makes due. -/
theorem due_cases (s : State) :
    (s.host = [] ∧ s.due = unitsDue s)
      ∨ (∃ rest, s.host = .idle :: rest ∧ s.due = unitsDue (s.setHost rest))
      ∨ (∃ rest, s.host = .await :: rest ∧ s.busy = true ∧ s.due = unitsDue s)
      ∨ (∃ rest, s.host = .await :: rest ∧ s.busy = false ∧ s.due = .go (s.setHost rest))
      ∨ (∃ offset rest, s.host = .vbuRead offset :: rest ∧ s.due = .run (.vbuRead offset) (s.setHost rest))
      ∨ (∃ offset n rest, s.host = .rldDecode offset n :: rest ∧ s.due = .run (.rldDecode offset n) (s.setHost rest))
      ∨ (∃ bytes rest, s.host = .load bytes :: rest ∧ s.due = loadDue bytes (s.setHost rest))
      ∨ (∃ rest, s.host = .reset :: rest ∧ s.due = .go (s.setHost rest).resetUnits) := by
  rcases hh : s.host with _ | ⟨e, rest⟩
  · exact .inl ⟨rfl, by simp [State.due, hh]⟩
  · cases e <;> simp [State.due, hh]
    cases s.busy <;> simp

/-- What a header fetch makes due: the fault, or the decoded element (40_vbu.md R59). -/
theorem vbuDue_hdr {s : State} (h : s.vbu.phase = .hdr) :
    (s.mem.len ≤ s.vbu.cur ∧ vbuDue s = .go (s.vbuRaise .truncatedBuffer s.vbu.cur))
      ∨ (s.vbu.cur < s.mem.len ∧ vbuDue s = .run (decodeHeader (cellAt s.mem.cells s.vbu.cur)) s) := by
  by_cases hc : s.vbu.cur < s.mem.len
  · exact .inr ⟨hc, by simp [vbuDue, h, window_one, hc, decode]⟩
  · exact .inl ⟨by omega, by simp [vbuDue, h, window_one, hc, decode]⟩

/-- What a busy VBU past the header makes due: the element its header registers hold. -/
theorem vbuDue_later {s : State} (h : s.vbu.phase = .cnt ∨ s.vbu.phase = .unpack) :
    vbuDue s = .run (classify s.vbu.sel s.vbu.bpv) s := by
  rcases h with h | h <;> simp [vbuDue, h]

/-- What the head of RLD's run loop makes due: the end of the loop, the fault, or the decoded record (41_rld.md R75,
R76). -/
theorem rldDue_head {s : State} (h : s.rld.phase = .head) :
    (s.rld.budget < Config.rleMinBudget ∧ rldDue s = .go (s.setRld { s.rld with phase := .endRec }))
      ∨ (Config.rleMinBudget ≤ s.rld.budget ∧ s.mem.len < s.rld.cur + 2
        ∧ rldDue s = .go (s.rldRaise .truncatedBuffer s.rld.cur))
      ∨ (Config.rleMinBudget ≤ s.rld.budget ∧ s.rld.cur + 2 ≤ s.mem.len
        ∧ rldDue s = .run (decodeRecord
            (halfOfBytes (cellAt s.mem.cells s.rld.cur) (cellAt s.mem.cells (s.rld.cur + 1)))) s) := by
  by_cases hb : s.rld.budget < Config.rleMinBudget
  · exact .inl ⟨hb, by simp [rldDue, h, hb]⟩
  · refine .inr ?_
    by_cases hc : s.rld.cur + 2 ≤ s.mem.len
    · exact .inr ⟨by omega, hc, by simp [rldDue, h, hb, window_two _ _ hc, decode]⟩
    · refine .inl ⟨by omega, by omega, ?_⟩
      have h2 : ¬ s.rld.cur + 1 < s.mem.len := by omega
      by_cases h1 : s.rld.cur < s.mem.len <;> simp [rldDue, h, hb, Memory.window, h1, h2, decode]

end Sys2Proof.Laws
end

