-- ==== Sys2Proof/Laws/Vbu.lean ====
section
/-! SUPPORT. Everything the shared operations of VBU can do. -/

namespace Sys2Proof.Laws

open Sys2Proof.Machine

/-- The word fetch answers exactly under its precondition (40_vbu.md R58). -/
theorem fetchWord_cases (m : Memory) (cur e : Nat) :
    (cur < e ∧ e ≤ m.len ∧ fetchWord m cur e = some (fetchWordAt m cur e))
      ∨ (¬ (cur < e ∧ e ≤ m.len) ∧ fetchWord m cur e = none) := by
  unfold fetchWord
  split
  · rename_i h
    exact .inl ⟨h.1, h.2, rfl⟩
  · exact .inr ⟨‹_›, rfl⟩

/-- Where the word fetch leaves the cursor (40_vbu.md R66, R67). -/
theorem fetchWordAt_cursor (m : Memory) (cur e : Nat) : (fetchWordAt m cur e).2 = if 4 ≤ e - cur then cur + 4 else e := by
  unfold fetchWordAt
  split <;> rfl

/-- If the count step answers a next state, it is one of four: the count field is missing, the payload is missing, the
block is empty, or the first word is loaded (40_vbu.md R72, rows of CNT). -/
theorem loadCount_next {n : Nat} {s t : State} (h : loadCount n s = .next t) :
    (s.mem.len < s.vbu.cur + n ∧ t = s.vbuRaise .truncatedBuffer s.vbu.cur)
      ∨ ∃ c e, s.vbu.cur + n ≤ s.mem.len ∧ c = s.mem.leValue s.vbu.cur n
          ∧ e = s.vbu.cur + n + payloadLen c s.vbu.bpv.toNat
          ∧ ((s.mem.len < e ∧ t = s.vbuRaise .truncatedBuffer (s.vbu.cur + n))
            ∨ (e ≤ s.mem.len ∧ c = 0
                ∧ t = s.setVbu { s.vbu with
                    count := BitVec.ofNat 32 c, cur := s.vbu.cur + n, endAddr := e, idx := 0, newoff := e
                    phase := .done })
            ∨ (e ≤ s.mem.len ∧ c ≠ 0 ∧ s.vbu.cur + n < e
                ∧ t = s.setVbu { s.vbu with
                    count := BitVec.ofNat 32 c, endAddr := e, idx := 0
                    word := (fetchWordAt s.mem (s.vbu.cur + n) e).1, cur := (fetchWordAt s.mem (s.vbu.cur + n) e).2
                    rem := Config.wordBits, phase := .unpack })) := by
  obtain ⟨hlen, hr⟩ | ⟨hlen, hr⟩ := read_cases s.mem s.vbu.cur n
  · simp only [loadCount, hr, Host.Outcome.next.injEq] at h
    exact .inl ⟨hlen, h.symm⟩
  · refine .inr ⟨_, _, hlen, rfl, rfl, ?_⟩
    simp only [loadCount, hr] at h
    split at h
    · exact .inl ⟨‹_›, (Host.Outcome.next.inj h).symm⟩
    · rename_i he
      split at h
      · exact .inr (.inl ⟨by omega, ‹_›, (Host.Outcome.next.inj h).symm⟩)
      · rename_i hc
        obtain ⟨h1, h2, hf⟩ | ⟨-, hf⟩ := fetchWord_cases s.mem (s.vbu.cur + n)
          (s.vbu.cur + n + payloadLen (s.mem.leValue s.vbu.cur n) s.vbu.bpv.toNat)
        · simp only [hf] at h
          exact .inr (.inr ⟨h2, hc, h1, (Host.Outcome.next.inj h).symm⟩)
        · simp only [hf] at h
          cases h

/-- If the unpack step answers a next state, its value lies in the word or spans into the next one (40_vbu.md R68). -/
theorem unpackStep_next {s t : State} (h : unpackStep s = .next t) :
    s.vbu.idx < s.vbu.count.toNat
      ∧ ((s.vbu.bpv.toNat ≤ s.vbu.rem
            ∧ t = s.setVbu ({ s.vbu with rem := s.vbu.rem - s.vbu.bpv.toNat }.finishValue
                (valueInWord s.vbu.word s.vbu.rem s.vbu.bpv.toNat)))
        ∨ (s.vbu.rem < s.vbu.bpv.toNat ∧ s.vbu.cur < s.vbu.endAddr ∧ s.vbu.endAddr ≤ s.mem.len
            ∧ t = s.setVbu ({ s.vbu with
                cur := (fetchWordAt s.mem s.vbu.cur s.vbu.endAddr).2
                word := (fetchWordAt s.mem s.vbu.cur s.vbu.endAddr).1
                rem := Config.wordBits - (s.vbu.bpv.toNat - s.vbu.rem) }.finishValue
                (valueAcross s.vbu.word (fetchWordAt s.mem s.vbu.cur s.vbu.endAddr).1 s.vbu.rem
                  s.vbu.bpv.toNat)))) := by
  simp only [unpackStep] at h
  split at h
  · cases h
  · rename_i hi
    refine ⟨by omega, ?_⟩
    split at h
    · exact .inl ⟨‹_›, (Host.Outcome.next.inj h).symm⟩
    · rename_i hr
      obtain ⟨h1, h2, hf⟩ | ⟨-, hf⟩ := fetchWord_cases s.mem s.vbu.cur s.vbu.endAddr
      · simp only [hf] at h
        exact .inr ⟨by omega, h1, h2, (Host.Outcome.next.inj h).symm⟩
      · simp only [hf] at h
        cases h

/-- What the end of an unpack step does: the value is emitted and counted; after the last the block completes. -/
theorem finishValue_cases (v : VbuRegs) (x : Word) :
    (v.idx + 1 = v.count.toNat
        ∧ v.finishValue x = { v with out := v.out ++ [x], idx := v.idx + 1, newoff := v.endAddr, phase := .done })
      ∨ (v.idx + 1 ≠ v.count.toNat ∧ v.finishValue x = { v with out := v.out ++ [x], idx := v.idx + 1 }) := by
  unfold VbuRegs.finishValue
  split
  · exact .inl ⟨‹_›, rfl⟩
  · exact .inr ⟨‹_›, rfl⟩

/-- If a block with values answers a next state, VBU is in one of its three busy phases and the phase's row was taken. -/
theorem runCounted_next {sel : BitVec 2} {n : Nat} {bpv : BitVec 6} {s t : State} (h : runCounted sel n bpv s = .next t) :
    (s.vbu.phase = .hdr ∧ t = s.setVbu { s.vbu with bpv := bpv, sel := sel, cur := s.vbu.cur + 1, phase := .cnt })
      ∨ (s.vbu.phase = .cnt ∧ s.vbu.sel = sel ∧ s.vbu.bpv = bpv ∧ loadCount n s = .next t)
      ∨ (s.vbu.phase = .unpack ∧ s.vbu.sel = sel ∧ s.vbu.bpv = bpv ∧ unpackStep s = .next t) := by
  unfold runCounted at h
  split at h
  case h_1 hp => exact .inl ⟨hp, (Host.Outcome.next.inj h).symm⟩
  case h_2 hp =>
    split at h
    · rename_i hd
      exact .inr (.inl ⟨hp, hd.1, hd.2, h⟩)
    · cases h
  case h_3 hp =>
    split at h
    · rename_i hd
      exact .inr (.inr ⟨hp, hd.1, hd.2, h⟩)
    · cases h
  all_goals cases h

/-- If `VB.NONE` answers a next state, VBU is in HDR and the block ended as absent (40_vbu.md R60). -/
theorem execVbNone_next {sel : BitVec 2} {s t : State} (h : execVbNone sel s = .next t) :
    s.vbu.phase = .hdr
      ∧ t = s.setVbu { s.vbu with
          bpv := 0, sel := sel, cur := s.vbu.cur + 1, absent := true, newoff := s.vbu.cur + 1, phase := .done } := by
  unfold execVbNone at h
  split at h
  case h_1 hp => exact ⟨hp, (Host.Outcome.next.inj h).symm⟩
  all_goals cases h

/-- If `VB.RSV` answers a next state, VBU is in HDR and took the fault (40_vbu.md R61). -/
theorem execVbRsv_next {s t : State} (h : execVbRsv s = .next t) :
    s.vbu.phase = .hdr ∧ t = s.vbuRaise .corruptStream s.vbu.cur := by
  unfold execVbRsv at h
  split at h
  case h_1 hp => exact ⟨hp, (Host.Outcome.next.inj h).symm⟩
  all_goals cases h

/-- If `VBU.READ` answers a next state, it was accepted and started the unit (42_commands.md R86). -/
theorem execVbuRead_next {offset : Nat} {s t : State} (h : execVbuRead offset s = .next t) :
    s.busy = false ∧ offset < 2 ^ s.params.addrW ∧ t = s.startVbu offset := by
  unfold execVbuRead State.commandRefusal at h
  by_cases hb : s.busy = true
  · simp [hb] at h
  · by_cases ho : 2 ^ s.params.addrW ≤ offset
    · simp [hb, ho] at h
    · simp only [hb, ho, if_false, Host.Outcome.next.injEq, Bool.false_eq_true] at h
      exact ⟨by simpa using hb, by omega, h.symm⟩

end Sys2Proof.Laws
end

