-- ==== Sys2Proof/Laws/Rows.lean ====
section
/-! SUPPORT. Once for all, what a step can do: the rows of the two transition tables and the host's actions, as three
inductive propositions, and that every step that answers a next state took one of them. -/

namespace Sys2Proof.Laws

open Sys2Proof.Machine

/-- A row of VBU's table (40_vbu.md R72) taken from `s`, by its next state. -/
inductive VbuRow (s : State) : State → Prop
  /-- HDR: no header byte. -/
  | headerMissing : s.vbu.phase = .hdr → s.mem.len ≤ s.vbu.cur → VbuRow s (s.vbuRaise .truncatedBuffer s.vbu.cur)
  /-- HDR: the block is absent. -/
  | absent (sel : BitVec 2) : s.vbu.phase = .hdr → s.vbu.cur < s.mem.len →
      decodeHeader (cellAt s.mem.cells s.vbu.cur) = .vbNone sel →
      VbuRow s (s.setVbu { s.vbu with
        bpv := 0, sel := sel, cur := s.vbu.cur + 1, absent := true, newoff := s.vbu.cur + 1, phase := .done })
  /-- HDR: a reserved header. -/
  | reserved (sel : BitVec 2) (bpv : BitVec 6) : s.vbu.phase = .hdr → s.vbu.cur < s.mem.len →
      decodeHeader (cellAt s.mem.cells s.vbu.cur) = .vbRsv sel bpv →
      VbuRow s (s.vbuRaise .corruptStream s.vbu.cur)
  /-- HDR: a block with values. -/
  | header (sel : BitVec 2) (n : Nat) (bpv : BitVec 6) : s.vbu.phase = .hdr → s.vbu.cur < s.mem.len →
      bpvLegal bpv = true → Config.selWidth sel = some n →
      VbuRow s (s.setVbu { s.vbu with bpv := bpv, sel := sel, cur := s.vbu.cur + 1, phase := .cnt })
  /-- CNT: the count field is not in the buffer. -/
  | countMissing (n : Nat) : s.vbu.phase = .cnt → Config.selWidth s.vbu.sel = some n → s.mem.len < s.vbu.cur + n →
      VbuRow s (s.vbuRaise .truncatedBuffer s.vbu.cur)
  /-- CNT: the payload is not in the buffer. -/
  | payloadMissing (n c e : Nat) : s.vbu.phase = .cnt → Config.selWidth s.vbu.sel = some n →
      s.vbu.cur + n ≤ s.mem.len → c = s.mem.leValue s.vbu.cur n →
      e = s.vbu.cur + n + payloadLen c s.vbu.bpv.toNat → s.mem.len < e →
      VbuRow s (s.vbuRaise .truncatedBuffer (s.vbu.cur + n))
  /-- CNT: a count of 0. -/
  | empty (n : Nat) : s.vbu.phase = .cnt → bpvLegal s.vbu.bpv = true → Config.selWidth s.vbu.sel = some n →
      s.vbu.cur + n ≤ s.mem.len → s.mem.leValue s.vbu.cur n = 0 →
      VbuRow s (s.setVbu { s.vbu with
        count := 0, cur := s.vbu.cur + n, endAddr := s.vbu.cur + n, idx := 0, newoff := s.vbu.cur + n
        phase := .done })
  /-- CNT: the first word is loaded. -/
  | load (n c e : Nat) : s.vbu.phase = .cnt → bpvLegal s.vbu.bpv = true → Config.selWidth s.vbu.sel = some n →
      s.vbu.cur + n ≤ s.mem.len → c = s.mem.leValue s.vbu.cur n → c < 2 ^ 32 → c ≠ 0 →
      e = s.vbu.cur + n + payloadLen c s.vbu.bpv.toNat → s.vbu.cur + n < e → e ≤ s.mem.len →
      VbuRow s (s.setVbu { s.vbu with
        count := BitVec.ofNat 32 c, endAddr := e, idx := 0, word := (fetchWordAt s.mem (s.vbu.cur + n) e).1
        cur := (fetchWordAt s.mem (s.vbu.cur + n) e).2, rem := Config.wordBits, phase := .unpack })
  /-- UNPACK: a value in the current word. -/
  | within : s.vbu.phase = .unpack → bpvLegal s.vbu.bpv = true → Config.selWidth s.vbu.sel ≠ none →
      s.vbu.idx < s.vbu.count.toNat → s.vbu.bpv.toNat ≤ s.vbu.rem →
      VbuRow s (s.setVbu ({ s.vbu with rem := s.vbu.rem - s.vbu.bpv.toNat }.finishValue
        (valueInWord s.vbu.word s.vbu.rem s.vbu.bpv.toNat)))
  /-- UNPACK: a value that spans into the next word. -/
  | across : s.vbu.phase = .unpack → bpvLegal s.vbu.bpv = true → Config.selWidth s.vbu.sel ≠ none →
      s.vbu.idx < s.vbu.count.toNat → s.vbu.rem < s.vbu.bpv.toNat → s.vbu.cur < s.vbu.endAddr →
      s.vbu.endAddr ≤ s.mem.len →
      VbuRow s (s.setVbu ({ s.vbu with
        cur := (fetchWordAt s.mem s.vbu.cur s.vbu.endAddr).2
        word := (fetchWordAt s.mem s.vbu.cur s.vbu.endAddr).1
        rem := Config.wordBits - (s.vbu.bpv.toNat - s.vbu.rem) }.finishValue
          (valueAcross s.vbu.word (fetchWordAt s.mem s.vbu.cur s.vbu.endAddr).1 s.vbu.rem s.vbu.bpv.toNat)))

/-- A row of RLD's table (41_rld.md R84) taken from `s`, by its next state. -/
inductive RldRow (s : State) : State → Prop
  /-- HEAD: the loop ends. -/
  | loopEnds : s.rld.phase = .head → s.rld.budget < Config.rleMinBudget →
      RldRow s (s.setRld { s.rld with phase := .endRec })
  /-- HEAD: no count in the buffer. -/
  | countMissing : s.rld.phase = .head → Config.rleMinBudget ≤ s.rld.budget → s.mem.len < s.rld.cur + 2 →
      RldRow s (s.rldRaise .truncatedBuffer s.rld.cur)
  /-- HEAD: a literal record starts, or its run is not in the buffer. -/
  | literal (w : Half) : s.rld.phase = .head → Config.rleMinBudget ≤ s.rld.budget → s.rld.cur + 2 ≤ s.mem.len →
      w.msb = false → w.toNat = s.mem.leValue s.rld.cur 2 → RldRow s (startLiteral w s)
  /-- HEAD: a repeat record starts, or its byte is not in the buffer. -/
  | repeats (w : Half) : s.rld.phase = .head → Config.rleMinBudget ≤ s.rld.budget → s.rld.cur + 2 ≤ s.mem.len →
      w.msb = true → w.toNat = s.mem.leValue s.rld.cur 2 → RldRow s (startRepeat w s)
  /-- LIT: one byte. -/
  | literalByte : s.rld.phase = .lit → 1 ≤ s.rld.left → s.rld.cur < s.mem.len →
      RldRow s (s.setRld { s.rld with
        out := s.rld.out ++ [cellAt s.mem.cells s.rld.cur], cur := s.rld.cur + 1, left := s.rld.left - 1
        phase := runPhase .lit s.rld.left })
  /-- REP: one byte. -/
  | repeatByte : s.rld.phase = .rep → 1 ≤ s.rld.left →
      RldRow s (s.setRld { s.rld with
        out := s.rld.out ++ [s.rld.rbyte], left := s.rld.left - 1, phase := runPhase .rep s.rld.left })
  /-- END: the sentinel is checked. -/
  | sentinel : s.rld.phase = .endRec → RldRow s (checkSentinel s)

/-- What a step did, by its next state. A row is taken from `s` with the host's list as it is after the step. -/
inductive StepRow (s : State) : State → Prop
  /-- VBU took a row. -/
  | vbu (h : List HostEvent) (t : State) : s.vbu.phase.busy = true → s.rld.phase.busy = false →
      VbuRow (s.setHost h) t → StepRow s t
  /-- RLD took a row. -/
  | rld (h : List HostEvent) (t : State) : s.rld.phase.busy = true → s.vbu.phase.busy = false →
      RldRow (s.setHost h) t → StepRow s t
  /-- No unit is busy; at most a host event is used up. -/
  | quiet (h : List HostEvent) : s.busy = false → StepRow s (s.setHost h)
  /-- The host started VBU. -/
  | read (offset : Nat) (rest : List HostEvent) : s.host = .vbuRead offset :: rest → s.busy = false →
      offset < 2 ^ s.params.addrW → StepRow s ((s.setHost rest).startVbu offset)
  /-- The host started RLD. -/
  | decode (offset : Nat) (n : BitVec 32) (rest : List HostEvent) : s.host = .rldDecode offset n :: rest →
      s.busy = false → offset < 2 ^ s.params.addrW → StepRow s ((s.setHost rest).startRld offset n)
  /-- The host replaced the buffer. -/
  | load (bytes : List Byte) (rest : List HostEvent) : s.host = .load bytes :: rest → s.busy = false →
      bytes.length ≤ 2 ^ s.params.addrW → StepRow s ((s.setHost rest).setMem (Memory.ofBytes bytes))
  /-- The host reset the block. -/
  | reset (rest : List HostEvent) : s.host = .reset :: rest → StepRow s (s.setHost rest).resetUnits

/-- What a header says (30_encoding.md R44, R46, R47, R53). -/
theorem classify_cases : ∀ (sel : BitVec 2) (bpv : BitVec 6),
    (classify sel bpv = .vbNone sel ∧ bpv = 0)
      ∨ (classify sel bpv = .vbRsv sel bpv ∧ bpv ≠ 0 ∧ (sel.toNat = 3 ∨ 32 < bpv.toNat))
      ∨ (bpvLegal bpv = true ∧ ((classify sel bpv = .vbC32 bpv ∧ sel = 0)
        ∨ (classify sel bpv = .vbC16 bpv ∧ sel = 1) ∨ (classify sel bpv = .vbC8 bpv ∧ sel = 2))) := by
  decide +kernel

/-- The little-endian number of `n` bytes is below `2^(8n)`. -/
theorem leValue_lt (m : Memory) (a : Nat) : ∀ n, m.leValue a n < 2 ^ (8 * n)
  | 0 => by simp [Memory.leValue]
  | n + 1 => by
    have ih := leValue_lt m a n
    have hb := byteVal_lt m (a + n)
    rw [Memory.leValue, show 8 * (n + 1) = 8 * n + 8 by ring, pow_add]
    nlinarith [Nat.two_pow_pos (8 * n)]

/-- A count step that answers a next state took a row of CNT. -/
theorem VbuRow.of_loadCount {s t : State} {n : Nat} (hp : s.vbu.phase = .cnt) (hl : bpvLegal s.vbu.bpv = true)
    (hn : Config.selWidth s.vbu.sel = some n) (h4 : n ≤ 4) (h : loadCount n s = .next t) : VbuRow s t := by
  rcases loadCount_next h with ⟨h1, rfl⟩ | ⟨c, e, h1, h2, h3, ⟨h5, rfl⟩ | ⟨h5, h6, rfl⟩ | ⟨h5, h6, h7, rfl⟩⟩
  · exact .countMissing n hp hn h1
  · exact .payloadMissing n c e hp hn h1 h2 h3 h5
  · subst h6
    have he : e = s.vbu.cur + n := by simpa [payloadLen] using h3
    subst he
    exact .empty n hp hl hn h1 h2.symm
  · refine .load n c e hp hl hn h1 h2 ?_ h6 h3 h7 h5
    exact h2 ▸ lt_of_lt_of_le (leValue_lt _ _ _) (Nat.pow_le_pow_right (by decide) (by omega))

/-- An unpack step that answers a next state took a row of UNPACK. -/
theorem VbuRow.of_unpackStep {s t : State} (hp : s.vbu.phase = .unpack) (hl : bpvLegal s.vbu.bpv = true)
    (hn : Config.selWidth s.vbu.sel ≠ none) (h : unpackStep s = .next t) : VbuRow s t := by
  rcases unpackStep_next h with ⟨h1, ⟨h2, rfl⟩ | ⟨h2, h3, h4, rfl⟩⟩
  · exact .within hp hl hn h1 h2
  · exact .across hp hl hn h1 h2 h3 h4

/-- What the element due in CNT or UNPACK did is a row. -/
theorem vbuRow_later {s t : State} (hp : s.vbu.phase = .cnt ∨ s.vbu.phase = .unpack)
    (h : exec (classify s.vbu.sel s.vbu.bpv) s = .next t) : VbuRow s t := by
  rcases classify_cases s.vbu.sel s.vbu.bpv with ⟨e, -⟩ | ⟨e, -⟩ | ⟨hl, ⟨e, hs⟩ | ⟨e, hs⟩ | ⟨e, hs⟩⟩ <;>
    rw [e] at h <;> simp only [exec] at h
  · simp [(execVbNone_next h).1] at hp
  · simp [(execVbRsv_next h).1] at hp
  all_goals
    rcases runCounted_next h with ⟨h1, -⟩ | ⟨h1, -, -, h2⟩ | ⟨h1, -, -, h2⟩
    · simp [h1] at hp
    · exact .of_loadCount h1 hl (by rw [hs]; rfl) (by decide) h2
    · exact .of_unpackStep h1 hl (by rw [hs]; decide) h2

/-- What a busy VBU did is a row. -/
theorem vbuRow_of_due {s t : State} (hb : s.vbu.phase.busy = true)
    (h : (∃ i u, vbuDue s = .run i u ∧ exec i u = .next t) ∨ vbuDue s = .go t) : VbuRow s t := by
  cases hp : s.vbu.phase <;> simp [VbuPhase.busy, hp] at hb
  · rcases vbuDue_hdr hp with ⟨h1, h2⟩ | ⟨h1, h2⟩ <;> rw [h2] at h
    · rcases h with ⟨_, _, h, -⟩ | h <;> cases h
      exact .headerMissing hp h1
    · rcases h with ⟨_, _, h, hx⟩ | h <;> cases h
      have hd : ∀ i, classify (headerSel (cellAt s.mem.cells s.vbu.cur)) (headerBpv (cellAt s.mem.cells s.vbu.cur)) = i →
          decodeHeader (cellAt s.mem.cells s.vbu.cur) = i := fun _ h => h
      rcases classify_cases (headerSel (cellAt s.mem.cells s.vbu.cur)) (headerBpv (cellAt s.mem.cells s.vbu.cur)) with
        ⟨e, -⟩ | ⟨e, -⟩ | ⟨hl, ⟨e, -⟩ | ⟨e, -⟩ | ⟨e, -⟩⟩ <;>
        rw [hd _ e] at hx <;> simp only [exec] at hx
      · obtain ⟨-, rfl⟩ := execVbNone_next hx
        exact .absent _ hp h1 (hd _ e)
      · obtain ⟨-, rfl⟩ := execVbRsv_next hx
        exact .reserved _ _ hp h1 (hd _ e)
      all_goals
        rcases runCounted_next hx with ⟨-, rfl⟩ | ⟨h2, -⟩ | ⟨h2, -⟩
        · exact .header _ _ _ hp h1 hl rfl
        · simp [hp] at h2
        · simp [hp] at h2
  · rw [vbuDue_later (.inl hp)] at h
    rcases h with ⟨_, _, h, hx⟩ | h <;> cases h
    exact vbuRow_later (.inl hp) hx
  · rw [vbuDue_later (.inr hp)] at h
    rcases h with ⟨_, _, h, hx⟩ | h <;> cases h
    exact vbuRow_later (.inr hp) hx

/-- A field of two bytes as a number. -/
theorem halfOfBytes_toNat (lo hi : Byte) : (halfOfBytes lo hi).toNat = lo.toNat + 256 * hi.toNat := by
  revert lo hi
  decide +kernel

/-- The two bytes at an address as a field are the little-endian number there. -/
theorem halfOfBytes_leValue (m : Memory) (a : Nat) :
    (halfOfBytes (cellAt m.cells a) (cellAt m.cells (a + 1))).toNat = m.leValue a 2 := by
  rw [halfOfBytes_toNat]
  simp [Memory.leValue, Memory.byteVal]
  omega

/-- What a busy RLD did is a row. -/
theorem rldRow_of_due {s t : State} (hb : s.rld.phase.busy = true)
    (h : (∃ i u, rldDue s = .run i u ∧ exec i u = .next t) ∨ rldDue s = .go t) : RldRow s t := by
  cases hp : s.rld.phase <;> simp [RldPhase.busy, hp] at hb
  · rcases rldDue_head hp with ⟨h1, h2⟩ | ⟨h1, h3, h2⟩ | ⟨h1, h3, h2⟩ <;> rw [h2] at h
    · rcases h with ⟨_, _, h, -⟩ | h <;> cases h
      exact .loopEnds hp h1
    · rcases h with ⟨_, _, h, -⟩ | h <;> cases h
      exact .countMissing hp h1 h3
    · rcases h with ⟨_, _, h, hx⟩ | h <;> cases h
      have hw := halfOfBytes_leValue s.mem s.rld.cur
      revert hx hw
      generalize halfOfBytes (cellAt s.mem.cells s.rld.cur) (cellAt s.mem.cells (s.rld.cur + 1)) = w
      intro hx hw
      by_cases hm : w.msb = true
      · simp only [decodeRecord, if_pos hm, exec] at hx
        rcases execRlRep_next hx with ⟨-, -, rfl⟩ | ⟨h4, -⟩
        · exact .repeats w hp h1 h3 hm hw
        · simp [hp] at h4
      · simp only [decodeRecord, if_neg hm, exec] at hx
        rcases execRlLit_next hx with ⟨-, -, rfl⟩ | ⟨h4, -⟩
        · exact .literal w hp h1 h3 (by simpa using hm) hw
        · simp [hp] at h4
  all_goals
    simp only [rldDue, hp] at h
    rcases h with ⟨_, _, h, hx⟩ | h <;> cases h
    simp only [exec] at hx
  · rcases execRlLit_next hx with ⟨h1, -⟩ | ⟨-, -, h1⟩
    · simp [hp] at h1
    · obtain ⟨h2, h3, rfl⟩ := literalByte_next h1
      exact .literalByte hp h2 h3
  · rcases execRlRep_next hx with ⟨h1, -⟩ | ⟨-, -, h1⟩
    · simp [hp] at h1
    · obtain ⟨h2, rfl⟩ := repeatByte_next h1
      exact .repeatByte hp h2
  · obtain ⟨-, rfl⟩ := execRlEnd_next hx
    exact .sentinel hp

/-- What the units did without a host action. -/
theorem stepRow_of_units {s t : State} (host : List HostEvent)
    (h : (∃ i u, unitsDue (s.setHost host) = .run i u ∧ exec i u = .next t) ∨ unitsDue (s.setHost host) = .go t) :
    StepRow s t := by
  unfold unitsDue at h
  by_cases hv : s.vbu.phase.busy = true
  · by_cases hr : s.rld.phase.busy = true
    · simp [hv, hr] at h
    · simp only [setHost_vbu, setHost_rld, hv, hr, if_true, if_false, Bool.false_eq_true] at h
      exact .vbu host t hv (by simpa using hr) (vbuRow_of_due hv h)
  · by_cases hr : s.rld.phase.busy = true
    · simp only [setHost_vbu, setHost_rld, hv, hr, if_true, if_false, Bool.false_eq_true] at h
      exact .rld host t hr (by simpa using hv) (rldRow_of_due hr h)
    · simp only [setHost_vbu, setHost_rld, hv, hr, if_false, Bool.false_eq_true] at h
      rcases h with ⟨_, _, h, -⟩ | h <;> cases h
      refine .quiet host ?_
      rw [State.busy, Bool.or_eq_false_iff]
      exact ⟨by simpa using hv, by simpa using hr⟩

/-- Every step that answers a next state took one of the rows. -/
theorem step_rows {s t : State} (h : step s = .next t) : StepRow s t := by
  have hs := step_next h
  rcases due_cases s with ⟨e, d⟩ | ⟨r, e, d⟩ | ⟨r, e, b, d⟩ | ⟨r, e, b, d⟩ | ⟨o, r, e, d⟩ | ⟨o, n, r, e, d⟩ | ⟨b, r, e, d⟩ |
    ⟨r, e, d⟩ <;> rw [d] at hs
  · exact stepRow_of_units s.host hs
  · exact stepRow_of_units r hs
  · exact stepRow_of_units s.host hs
  · rcases hs with ⟨_, _, h, -⟩ | h <;> cases h
    exact .quiet r b
  · rcases hs with ⟨_, _, h, hx⟩ | h <;> cases h
    simp only [exec] at hx
    obtain ⟨h1, h2, rfl⟩ := execVbuRead_next hx
    exact .read o r e h1 h2
  · rcases hs with ⟨_, _, h, hx⟩ | h <;> cases h
    simp only [exec] at hx
    obtain ⟨h1, h2, rfl⟩ := execRldDecode_next hx
    exact .decode o n r e h1 h2
  · unfold loadDue at hs
    by_cases hb : s.busy = true
    · simp [hb] at hs
    · by_cases hl : b.length ≤ 2 ^ s.params.addrW
      · rw [setHost_busy, setHost_params, if_neg hb, if_neg (Nat.not_lt.2 hl)] at hs
        rcases hs with ⟨_, _, h, -⟩ | h <;> cases h
        exact .load b r e (by simpa using hb) hl
      · rw [setHost_busy, setHost_params, if_neg hb, if_pos (Nat.lt_of_not_le hl)] at hs
        rcases hs with ⟨_, _, h, -⟩ | h <;> cases h
  · rcases hs with ⟨_, _, h, -⟩ | h <;> cases h
    exact .reset r e

end Sys2Proof.Laws
end

