-- ==== Sys2Proof/Laws/Run.lean ====
section
/-! SUPPORT. Runs of several steps, and the step of a busy unit when the host has nothing to do. -/

namespace Sys2Proof.Laws

open Sys2Proof.Machine

/-- A run goes on from the next state of its first step. -/
theorem core_run_next {M : Host.Core} {s t : M.State} {n : Nat} (h : M.step s = .next t) : M.run (n + 1) s = M.run n t := by
  simp only [Host.Core.run, h]

/-- A run that answers a next state has a first step that does. -/
theorem core_run_split {M : Host.Core} {s t : M.State} {n : Nat} (h : M.run (n + 1) s = .next t) :
    ∃ u, M.step s = .next u ∧ M.run n u = .next t := by
  simp only [Host.Core.run] at h
  split at h
  · exact ⟨_, ‹_›, h⟩
  · cases h
  · cases h

theorem runSteps_zero (s : State) : runSteps 0 s = .next s := rfl

theorem runSteps_next {n : Nat} {s t : State} (h : step s = .next t) : runSteps (n + 1) s = runSteps n t :=
  core_run_next (M := Sys2Proof.core) h

theorem runSteps_split {n : Nat} {s t : State} (h : runSteps (n + 1) s = .next t) :
    ∃ u, step s = .next u ∧ runSteps n u = .next t := core_run_split (M := Sys2Proof.core) h

/-- Two runs in a row are one run. -/
theorem runSteps_add {m : Nat} {t : State} : ∀ {n : Nat} {s : State}, runSteps n s = .next t →
    runSteps (n + m) s = runSteps m t
  | 0, s, h => by
    cases h
    rw [Nat.zero_add]
  | n + 1, s, h => by
    obtain ⟨u, h1, h2⟩ := runSteps_split h
    rw [show n + 1 + m = n + m + 1 by omega, runSteps_next h1, runSteps_add h2]

/-- What a step answers for what is due. -/
def answer : Due → Host.Outcome State Fault Refusal
  | .run i t => exec i t
  | .go t => .next t
  | .stop r => .refused r

theorem step_answer (s : State) : step s = answer s.due := by
  unfold step answer
  cases s.due <;> rfl

/-- With no host action to come, a busy VBU takes its row. -/
theorem step_vbu {s : State} (hh : s.host = []) (hr : s.rld.phase.busy = false) (hv : s.vbu.phase.busy = true) :
    step s = answer (vbuDue s) := by
  simp [step_answer, State.due, hh, unitsDue, hv, hr]

/-- With no host action to come, a busy RLD takes its row. -/
theorem step_rld {s : State} (hh : s.host = []) (hv : s.vbu.phase.busy = false) (hr : s.rld.phase.busy = true) :
    step s = answer (rldDue s) := by
  simp [step_answer, State.due, hh, unitsDue, hv, hr]

/-- The element the header registers name in CNT and UNPACK is a block with values, when they are legal. -/
theorem headerLegal_form {v : VbuRegs} (h : v.headerLegal) :
    ∃ f, countedForm (classify v.sel v.bpv) = some f ∧ Config.selWidth v.sel = some f.2 := by
  obtain ⟨h1, h2⟩ := h
  rcases classify_cases v.sel v.bpv with ⟨e, h0⟩ | ⟨e, h0, h3⟩ | ⟨-, ⟨e, hs⟩ | ⟨e, hs⟩ | ⟨e, hs⟩⟩ <;> rw [e]
  · rw [h0] at h1
    cases h1
  · rcases h3 with h3 | h3
    · have hs : v.sel = 3 := by rw [← BitVec.toNat_inj]; exact h3
      exact absurd (by rw [hs]; rfl) h2
    · have : ∀ b : BitVec 6, bpvLegal b = true → b.toNat ≤ 32 := by decide
      exact absurd (this _ h1) (by omega)
  all_goals exact ⟨_, rfl, by rw [hs]; rfl⟩

/-- A block with values in CNT takes the count step of its selector. -/
theorem exec_cnt {s : State} {i : Instr} {f : BitVec 2 × Nat} (hp : s.vbu.phase = .cnt)
    (hc : classify s.vbu.sel s.vbu.bpv = i) (hf : countedForm i = some f) : exec i s = loadCount f.2 s := by
  rcases classify_cases s.vbu.sel s.vbu.bpv with ⟨e, -⟩ | ⟨e, -⟩ | ⟨-, ⟨e, hs⟩ | ⟨e, hs⟩ | ⟨e, hs⟩⟩ <;> rw [hc] at e <;>
    subst e <;> simp [countedForm] at hf
  all_goals
    subst hf
    simp [exec, execVbC32, execVbC16, execVbC8, runCounted, hp, hs, Config.selC32, Config.selC16, Config.selC8]

/-- A block with values in UNPACK takes the unpack step. -/
theorem exec_unpack {s : State} {i : Instr} {f : BitVec 2 × Nat} (hp : s.vbu.phase = .unpack)
    (hc : classify s.vbu.sel s.vbu.bpv = i) (hf : countedForm i = some f) : exec i s = unpackStep s := by
  rcases classify_cases s.vbu.sel s.vbu.bpv with ⟨e, -⟩ | ⟨e, -⟩ | ⟨-, ⟨e, hs⟩ | ⟨e, hs⟩ | ⟨e, hs⟩⟩ <;> rw [hc] at e <;>
    subst e <;> simp [countedForm] at hf
  all_goals
    subst hf
    simp [exec, execVbC32, execVbC16, execVbC8, runCounted, hp, hs, Config.selC32, Config.selC16, Config.selC8]

end Sys2Proof.Laws
end

