-- ==== Sys2Proof/Tests/Slice0.lean ====
section
/-! SUPPORT. The model's own tests: ill-formed terms, words written out from the spec's encodings, one step of each
instruction, and a state that meets the hypotheses of each statement. Expected results are from spec/95_test_vectors.md
and the rules' worked examples. -/

namespace Sys2Proof.Tests

open Sys2Proof.Machine

/-! ### Well-formedness -/

theorem test_wf_block_bpv_zero : (Instr.vbC8 0).wellFormed Params.default = false := by decide
theorem test_wf_block16_bpv_33 : (Instr.vbC16 33).wellFormed Params.default = false := by decide
theorem test_wf_block32_bpv_63 : (Instr.vbC32 63).wellFormed Params.default = false := by decide
theorem test_wf_block_bpv_32 : (Instr.vbC32 32).wellFormed Params.default = true := by decide
theorem test_wf_reserved_bpv_zero : (Instr.vbRsv 3 0).wellFormed Params.default = false := by decide
theorem test_wf_reserved_legal_header : (Instr.vbRsv 2 32).wellFormed Params.default = false := by decide
theorem test_wf_literal_negative : (Instr.rlLit 0x8000).wellFormed Params.default = false := by decide
theorem test_wf_repeat_positive : (Instr.rlRep 0x7FFF).wellFormed Params.default = false := by decide
theorem test_wf_read_offset : (Instr.vbuRead (2 ^ 32)).wellFormed Params.default = false := by decide
theorem test_wf_decode_offset : (Instr.rldDecode (2 ^ 32) 0).wellFormed Params.default = false := by decide
theorem test_params_default_valid : Params.default.valid = true := by decide
theorem test_params_positive_sentinel : ({ rleEos := 0x7FFF, addrW := 32 } : Params).valid = false := by decide

/-! ### Decoding, from bytes written out of the formats R46 to R50 -/

theorem test_decode_none : decode Params.default .header [0b01000000] = .ok (.vbNone 1) [] := by decide
theorem test_decode_rsv_selector : decode Params.default .header [0b11000101] = .ok (.vbRsv 3 5) [] := by decide
theorem test_decode_rsv_bpv : decode Params.default .header [0b00100001] = .ok (.vbRsv 0 33) [] := by decide
theorem test_decode_c32 : decode Params.default .header [0b00000011, 1] = .ok (.vbC32 3) [1] := by decide
theorem test_decode_c16 : decode Params.default .header [0b01100000] = .ok (.vbC16 32) [] := by decide
theorem test_decode_c8 : decode Params.default .header [0b10100000] = .ok (.vbC8 32) [] := by decide
theorem test_decode_lit : decode Params.default .runLoop [0xFF, 0x7F, 9] = .ok (.rlLit 0x7FFF) [9] := by decide
theorem test_decode_rep : decode Params.default .runLoop [0x00, 0x80] = .ok (.rlRep 0x8000) [] := by decide
theorem test_decode_end : decode Params.default .afterLoop [0x00, 0x80] = .ok .rlEnd [] := by decide
theorem test_decode_not_end : decode Params.default .afterLoop [0x80, 0x00] = .reject .notSentinel := by decide
theorem test_decode_short : decode Params.default .runLoop [0x00] = .reject .truncated := by decide

theorem test_table_none : decodeTableWord 8 0xC0 = some (.vbNone 3) := by decide
theorem test_table_rsv : decodeTableWord 8 0xFF = some (.vbRsv 3 63) := by decide
theorem test_table_c32 : decodeTableWord 8 0x1F = some (.vbC32 31) := by decide
theorem test_table_c16 : decodeTableWord 8 0x50 = some (.vbC16 16) := by decide
theorem test_table_c8 : decodeTableWord 8 0x83 = some (.vbC8 3) := by decide
theorem test_table_lit : decodeTableWord 16 0x0002 = some (.rlLit 2) := by decide
theorem test_table_rep : decodeTableWord 16 0xFFFC = some (.rlRep 0xFFFC) := by decide
theorem test_table_end : decodeTableWord 16 0x8000 = some .rlEnd := by decide
theorem test_table_no_bits : decodeTableWord 0 0 = none := by decide

/-- The header byte classes of 95_test_vectors.md section 2.3, counted. -/
theorem test_header_class_counts :
    let all := (List.range 256).map (fun n => decodeHeader (BitVec.ofNat 8 n))
    (all.countP (fun i => match i with | .vbNone _ => true | _ => false),
      all.countP (fun i => match i with | .vbC32 _ => true | _ => false),
      all.countP (fun i => match i with | .vbC16 _ => true | _ => false),
      all.countP (fun i => match i with | .vbC8 _ => true | _ => false),
      all.countP (fun i => match i with | .vbRsv _ _ => true | _ => false)) = (4, 32, 32, 32, 156) := by
  decide +kernel

/-! ### One step -/

/-- The answer is a next state of which this holds. -/
def after (o : Host.Outcome State Fault Refusal) (f : State → Bool) : Bool :=
  match o with
  | .next t => f t
  | .fault _ => false
  | .refused _ => false

/-- A buffer with VBU in a phase at a cursor, RLD idle. -/
def vbuState (bytes : List Byte) (phase : VbuPhase) (cur : Nat) (sel : BitVec 2) (bpv : BitVec 6) : State :=
  { State.reset with
    mem := Memory.ofBytes bytes
    vbu := { VbuRegs.reset with phase := phase, cur := cur, sel := sel, bpv := bpv } }

/-- A buffer with RLD in a phase at a cursor with a budget, VBU idle. -/
def rldState (bytes : List Byte) (phase : RldPhase) (cur : Nat) (budget : Int) : State :=
  { State.reset with
    mem := Memory.ofBytes bytes
    rld := { RldRegs.reset with phase := phase, cur := cur, budget := budget } }

/-- P2's buffer in UNPACK before value 10: word 0 with 2 bits left (95_test_vectors.md P2). -/
def unpackState : State :=
  { State.reset with
    mem := Memory.ofBytes [0x83, 0x21, 0x0F, 0xD5, 0x19, 0x0F, 0x19, 0x0F, 0xD5, 0x19, 0xD5, 0x19, 0x0F, 0xD5, 0x00]
    vbu := { VbuRegs.reset with
      phase := .unpack, cur := 6, sel := 2, bpv := 3, count := 33, idx := 10, endAddr := 15, word := 0x0F19D50F
      rem := 2, out := [0, 3, 6, 1, 4, 7, 2, 5, 0, 3] } }

/-- V1's buffer in UNPACK before its last value (95_test_vectors.md, detail of V1). -/
def lastValueState : State :=
  { State.reset with
    mem := Memory.ofBytes [0x83, 0x03, 0x80, 0x29]
    vbu := { VbuRegs.reset with
      phase := .unpack, cur := 4, sel := 2, bpv := 3, count := 3, idx := 2, endAddr := 4, word := 0x29800000
      rem := 26, out := [1, 2] } }

/-- V30's buffer in LIT with two bytes left. -/
def literalState : State :=
  { State.reset with
    mem := Memory.ofBytes [0xFC, 0xFF, 0x41, 0x02, 0x00, 0x42, 0x43, 0x00, 0x80]
    rld := { RldRegs.reset with phase := .lit, cur := 5, budget := 2, cnt := 2, left := 2, out := [0x41] } }

/-- V30's buffer in REP with four bytes left. -/
def repeatState : State :=
  { State.reset with
    mem := Memory.ofBytes [0xFC, 0xFF, 0x41, 0x02, 0x00, 0x42, 0x43, 0x00, 0x80]
    rld := { RldRegs.reset with phase := .rep, cur := 3, budget := 6, cnt := 0xFFFC, left := 4, rbyte := 0x41 } }

/-- V14: `C0 FF` is absent, one byte on. -/
theorem test_none_absent : after (step (vbuState [0xC0, 0xFF] .hdr 0 0 0))
    (fun t => t.vbuOutcome = some (.absent 1)) = true := by decide

/-- V18: a reserved header at the last byte reports CorruptStream. -/
theorem test_rsv_last_byte : after (step (vbuState [0xFF] .hdr 0 0 0))
    (fun t => t.vbuOutcome = some (.fault .corruptStream 0)) = true := by decide

/-- V19: a header at `BUF_LEN` is missing. -/
theorem test_header_missing : after (step (vbuState [0x83] .hdr 1 0 0))
    (fun t => t.vbuOutcome = some (.fault .truncatedBuffer 1)) = true := by decide

/-- V8: a 4-byte count field. -/
theorem test_c32_count : after (step (vbuState [0x03, 1, 0, 0, 0, 0xA0] .cnt 1 0 3))
    (fun t => t.vbu.phase = .unpack ∧ t.vbu.count = 1 ∧ t.vbu.word = 0xA0000000) = true := by decide

/-- V20: three bytes of a 4-byte count field. -/
theorem test_c32_count_missing : after (step (vbuState [0x03, 1, 0, 0] .cnt 1 0 3))
    (fun t => t.vbuOutcome = some (.fault .truncatedBuffer 1)) = true := by decide

/-- V5: a 2-byte count field, and a full word little-endian. -/
theorem test_c16_count : after (step (vbuState [0x50, 2, 0, 0x34, 0x12, 0xEF, 0xBE] .cnt 1 1 16))
    (fun t => t.vbu.count = 2 ∧ t.vbu.word = 0xBEEF1234 ∧ t.vbu.endAddr = 7) = true := by decide

/-- V26: a tail word of three bytes, after a full word. -/
theorem test_tail_three : (fetchWordAt (Memory.ofBytes [0x51, 3, 0, 0x00, 0x80, 0xFF, 0xFF, 0xA0, 0xAA, 0x6A]) 7 10)
    = (0x6AAAA000, 10) := by decide

/-- V1: a 1-byte count field and a tail word of two bytes. -/
theorem test_c8_count : after (step (vbuState [0x83, 3, 0x80, 0x29] .cnt 1 2 3))
    (fun t => t.vbu.word = 0x29800000 ∧ t.vbu.cur = 4 ∧ t.vbu.rem = 32) = true := by decide

/-- P2, value 10: it spans two words with `hi = 3`, `need = 1`. -/
theorem test_unpack_across : after (step unpackState)
    (fun t => t.vbu.out = [0, 3, 6, 1, 4, 7, 2, 5, 0, 3, 6] ∧ t.vbu.rem = 31 ∧ t.vbu.cur = 10) = true := by decide

/-- V1, value 2: the last value ends the block. -/
theorem test_unpack_last : after (step lastValueState)
    (fun t => t.vbuOutcome = some (.values [1, 2, 3] 4)) = true := by decide

/-- V3: a count of 0 is the empty sequence, not absent. -/
theorem test_empty_block : after (step (vbuState [0x85, 0x00] .cnt 1 2 5))
    (fun t => t.vbuOutcome = some (.values [] 2)) = true := by decide

/-- V39: a literal that overruns the budget is no fault. -/
theorem test_lit_overruns : after (step (rldState [5, 0, 1, 2, 3, 4, 5, 0, 0x80] .head 0 4))
    (fun t => t.rld.phase = .lit ∧ t.rld.budget = -3 ∧ t.rld.left = 5) = true := by decide

/-- V30: a byte of a literal run. -/
theorem test_lit_byte : after (step literalState) (fun t => t.rld.out = [0x41, 0x42] ∧ t.rld.cur = 6) = true := by
  decide

/-- V38: the sentinel's pattern in the loop is a repeat of 32768. -/
theorem test_rep_longest : after (step (rldState [0, 0x80, 0x7A, 0, 0x80] .head 0 5))
    (fun t => t.rld.phase = .rep ∧ t.rld.left = 32768 ∧ t.rld.rbyte = 0x7A ∧ t.rld.budget = 2) = true := by decide

/-- V42: the repeat byte is missing. -/
theorem test_rep_missing : after (step (rldState [0xFE, 0xFF] .head 0 5))
    (fun t => t.rldOutcome = some (.fault .truncatedBuffer 2)) = true := by decide

/-- V32: the sentinel alone. -/
theorem test_end_right : after (step (rldState [0, 0x80] .endRec 0 2))
    (fun t => t.rldOutcome = some (.bytes []) ∧ t.rld.endcur = 2) = true := by decide

/-- V35: a wrong sentinel. -/
theorem test_end_wrong : after (step (rldState [1, 0x80] .endRec 0 2))
    (fun t => t.rldOutcome = some (.fault .corruptStream 0)) = true := by decide

/-- The loop ends on the budget: 2 is too little for a record. -/
theorem test_loop_ends : after (step (rldState [0, 0, 0, 0x80] .head 0 2)) (fun t => t.rld.phase = .endRec) = true := by
  decide

/-- P4 (a): in FAULT the status register reads `st` = 3, `absent` = 0, `err` = 2. -/
theorem test_status_in_fault : after (step (vbuState [0x83, 3, 0x80, 0x29, 0x50, 2, 0, 0x34, 0x12, 0xEF] .cnt 5 1 16))
    (fun t => t.vbuOutcome = some (.fault .truncatedBuffer 7) ∧ t.vbuStatus = 3 + 4 * 0 + 8 * 2) = true := by decide

/-- R86: a command empties the results and starts the unit. -/
theorem test_read_starts : after (exec (.vbuRead 7) lastValueState.resetUnits)
    (fun t => t.vbu.phase = .hdr ∧ t.vbu.cur = 7 ∧ t.vbu.out = []) = true := by decide

/-- R87: every `byteCount` is accepted. -/
theorem test_decode_starts : after (exec (.rldDecode 7 0xFFFFFFFF) State.reset)
    (fun t => t.rld.phase = .head ∧ t.rld.budget = 4294967295) = true := by decide

/-- U3: a command while a unit is busy. -/
theorem test_command_while_busy : exec (.rldDecode 0 0) unpackState = .refused .commandWhileBusy := rfl

/-- The next step runs the placed instruction, right after reset. -/
theorem test_placed_header : after (step (State.reset.withFetchWord 8 0x83)) (fun t => t.vbu.phase = .cnt) = true := by
  decide
theorem test_placed_literal : after (step (State.reset.withFetchWord 16 0x7FFF)) (fun t => t.rld.phase = .lit) = true := by
  decide
theorem test_placed_repeat : after (step (State.reset.withFetchWord 16 0xFFFF)) (fun t => t.rld.phase = .rep) = true := by
  decide
theorem test_placed_end : after (step (State.reset.withFetchWord 16 0x8000)) (fun t => t.rld.phase = .done) = true := by
  decide

/-- 95_test_vectors.md V1 and section 3.3: the reference packer and encoder. -/
theorem test_pack : pack 2 1 3 [1, 2, 3] = [0x83, 0x03, 0x80, 0x29] := by decide
theorem test_encode : encodeRle 0x8000 [1, 1, 1, 1, 1, 2, 3] = [0xFB, 0xFF, 1, 2, 0, 2, 3, 0, 0x80] := by decide +kernel

/-! ### Witnesses: for each statement with hypotheses, a state and operands that meet them together -/

/-- A state with a given list of the host's actions. -/
def hostState (s : State) (h : List HostEvent) : State := { s with host := h }

theorem witness_EncodedElementDecodesToItself :
    (Instr.rlRep 0x8000).wellFormed Params.default = true ∧ (Instr.rlRep 0x8000).context = some .runLoop
      ∧ (Instr.vbC8 32).wellFormed Params.default = true ∧ (Instr.vbC8 32).context = some .header
      ∧ Instr.rlEnd.wellFormed Params.default = true ∧ Instr.rlEnd.context = some .afterLoop := by decide

theorem witness_DecodedBytesEncodeBack :
    decode Params.default .header [0xA0, 1] = .ok (.vbC8 32) [1]
      ∧ decode Params.default .afterLoop [0x00, 0x80, 7] = .ok .rlEnd [7] := by decide

/-- The ends of each range of header bytes and of 16-bit fields. -/
theorem witness_OpcodeMapPartitionsAllPatterns :
    (0xC0 : Byte).toNat % 64 = 0 ∧ (1 ≤ (0x01 : Byte).toNat ∧ (0x20 : Byte).toNat ≤ 0x20)
      ∧ (0x41 ≤ (0x41 : Byte).toNat ∧ (0x60 : Byte).toNat ≤ 0x60)
      ∧ (0x81 ≤ (0x81 : Byte).toNat ∧ (0xA0 : Byte).toNat ≤ 0xA0)
      ∧ (0x21 ≤ (0x21 : Byte).toNat ∧ (0x3F : Byte).toNat ≤ 0x3F) ∧ (0x61 ≤ (0x61 : Byte).toNat)
      ∧ (0xA1 ≤ (0xA1 : Byte).toNat) ∧ 0xC1 ≤ (0xFF : Byte).toNat
      ∧ (0x7FFF : Half).toNat = (0xFF : Byte).toNat + 256 * (0x7F : Byte).toNat ∧ (0x7FFF : Half).toNat < 32768
      ∧ (0x8000 : Half).toNat = (0x00 : Byte).toNat + 256 * (0x80 : Byte).toNat ∧ 32768 ≤ (0x8000 : Half).toNat
      ∧ (0x8000 : Half) = Params.default.rleEos ∧ (0x7FFF : Half) ≠ Params.default.rleEos := by decide

theorem witness_MemReadIsLittleEndianAllOrNothing :
    (Memory.ofBytes [1, 2]).len < 1 + 2 ∧ 0 + 2 ≤ (Memory.ofBytes [1, 2]).len
      ∧ (Memory.ofBytes [1, 2]).read 0 2 = some 513 := by decide

theorem witness_BufferIsReadOnlyToTheBlock :
    (∃ t, exec (.vbNone 3) (vbuState [0xC0] .hdr 0 0 0) = .next t)
      ∧ ∃ t, step (hostState State.reset [.load [5]]) = .next t ∧ t.mem ≠ State.reset.mem :=
  ⟨⟨_, rfl⟩, _, rfl, by decide⟩

theorem witness_HostResetAbandonsTheCommand : (hostState unpackState [.reset, .idle]).host = .reset :: [.idle] := rfl

theorem witness_HostReplacesBufferOnlyBetweenCommands :
    (hostState unpackState [.load [1]]).busy = true ∧ (hostState State.reset [.load [1]]).busy = false
      ∧ [(1 : Byte)].length ≤ 2 ^ State.reset.params.addrW
      ∧ ({ State.reset with params := { rleEos := 0x8000, addrW := 1 }, host := [.load [1, 2, 3]] } : State).busy = false
      ∧ 2 ^ ({ rleEos := 0x8000, addrW := 1 } : Params).addrW < [(1 : Byte), 2, 3].length := by decide

theorem witness_HostActionsLandBetweenSteps :
    (hostState State.reset [.vbuRead 4]).host = .vbuRead 4 :: [] ∧ (hostState State.reset [.rldDecode 4 9]).host = .rldDecode 4 9 :: []
      ∧ ((hostState unpackState [.idle]).host = .idle :: [] ∧ ∃ t, step ((hostState unpackState [.idle]).setHost []) = .next t)
      ∧ (hostState State.reset [.await]).host = .await :: [] ∧ (hostState State.reset [.await]).busy = false :=
  ⟨rfl, rfl, ⟨rfl, _, rfl⟩, rfl, rfl⟩

theorem witness_VbuReadStartsTheUnit : State.reset.busy = false ∧ 4294967295 < 2 ^ State.reset.params.addrW := by decide

theorem witness_RldDecodeStartsTheUnit : State.reset.busy = false ∧ 50 < 2 ^ State.reset.params.addrW := by decide

theorem witness_CommandsAreRefusedWhenNotAllowed :
    literalState.busy = true ∧ State.reset.busy = false ∧ 2 ^ State.reset.params.addrW ≤ 4294967296 := by decide

theorem witness_VbNoneEndsAbsent : (vbuState [0xC0, 0xFF] .hdr 0 0 0).vbu.phase = .hdr := rfl

theorem witness_VbRsvTakesCorruptStream : (vbuState [0xFF] .hdr 0 0 0).vbu.phase = .hdr := rfl

theorem witness_CountedBlocksTakeTheirHeader : (vbuState [0x83, 0] .hdr 0 0 0).vbu.phase = .hdr := rfl

/-- V58 (the count field is missing) and V21 (the payload is). -/
theorem witness_CountStepFaultsOnMissingBytes :
    ((vbuState [0x83] .cnt 1 2 3).vbu.phase = .cnt ∧ classify 2 3 = .vbC8 3 ∧ countedForm (.vbC8 3) = some (2, 1)
      ∧ (vbuState [0x83] .cnt 1 2 3).mem.len < 1 + 1)
    ∧ (vbuState [0x83, 3, 0x80] .cnt 1 2 3).mem.read 1 1 = some 3
      ∧ (vbuState [0x83, 3, 0x80] .cnt 1 2 3).mem.len < 1 + 1 + (3 * (3 : BitVec 6).toNat + 7) / 8 := by decide

theorem witness_EmptyBlockCompletesAtOnce :
    (vbuState [0x85, 0] .cnt 1 2 5).vbu.phase = .cnt ∧ classify 2 5 = .vbC8 5 ∧ countedForm (.vbC8 5) = some (2, 1)
      ∧ (vbuState [0x85, 0] .cnt 1 2 5).mem.read 1 1 = some 0 ∧ (vbuState [0x85, 0] .cnt 1 2 5).vbu.out = []
      ∧ (vbuState [0x85, 0] .cnt 1 2 5).vbu.absent = false := by decide

/-- V8, V5 and V1: one block of each count width. -/
theorem witness_CountStepLoadsTheFirstWord :
    (classify 0 3 = .vbC32 3 ∧ countedForm (.vbC32 3) = some (0, 4)
      ∧ (vbuState [3, 1, 0, 0, 0, 0xA0] .cnt 1 0 3).mem.read 1 4 = some 1
      ∧ 1 + 4 + (1 * (3 : BitVec 6).toNat + 7) / 8 ≤ (vbuState [3, 1, 0, 0, 0, 0xA0] .cnt 1 0 3).mem.len)
    ∧ (classify 1 16 = .vbC16 16 ∧ countedForm (.vbC16 16) = some (1, 2)
      ∧ (vbuState [0x50, 2, 0, 0x34, 0x12, 0xEF, 0xBE] .cnt 1 1 16).mem.read 1 2 = some 2
      ∧ 1 + 2 + (2 * (16 : BitVec 6).toNat + 7) / 8
          ≤ (vbuState [0x50, 2, 0, 0x34, 0x12, 0xEF, 0xBE] .cnt 1 1 16).mem.len)
    ∧ classify 2 3 = .vbC8 3 ∧ countedForm (.vbC8 3) = some (2, 1)
      ∧ (vbuState [0x83, 3, 0x80, 0x29] .cnt 1 2 3).mem.read 1 1 = some 3
      ∧ 1 + 1 + (3 * (3 : BitVec 6).toNat + 7) / 8 ≤ (vbuState [0x83, 3, 0x80, 0x29] .cnt 1 2 3).mem.len := by decide

/-- A full word of exactly four bytes, and tail words of three bytes and one. -/
theorem witness_WordFetchFullAndTail :
    (1 < 5 ∧ 5 ≤ (Memory.ofBytes [9, 1, 2, 3, 4]).len ∧ 4 ≤ 5 - 1)
      ∧ (2 < 5 ∧ 5 ≤ (Memory.ofBytes [9, 1, 2, 3, 4]).len ∧ 5 - 2 < 4) ∧ (4 < 5 ∧ 5 - 4 < 4) := by decide

theorem witness_UnpackStepWithinTheWord :
    lastValueState.vbu.phase = .unpack ∧ classify lastValueState.vbu.sel lastValueState.vbu.bpv = .vbC8 3
      ∧ countedForm (.vbC8 3) = some (2, 1) ∧ lastValueState.vbu.idx < lastValueState.vbu.count.toNat
      ∧ lastValueState.vbu.bpv.toNat ≤ lastValueState.vbu.rem := by decide

theorem witness_UnpackStepAcrossWords :
    unpackState.vbu.phase = .unpack ∧ classify unpackState.vbu.sel unpackState.vbu.bpv = .vbC8 3
      ∧ countedForm (.vbC8 3) = some (2, 1) ∧ unpackState.vbu.idx < unpackState.vbu.count.toNat
      ∧ unpackState.vbu.rem < unpackState.vbu.bpv.toNat ∧ unpackState.vbu.cur < unpackState.vbu.endAddr
      ∧ unpackState.vbu.endAddr ≤ unpackState.mem.len := by decide

/-- Budgets 2 and 3, the two sides of the loop test, with the count present and missing. -/
theorem witness_LoopTestReadsOnlyTheBudget :
    (rldState [0, 0x80] .head 0 2).host = [] ∧ (rldState [0, 0x80] .head 0 2).vbu.phase.busy = false
      ∧ (rldState [0, 0x80] .head 0 2).rld.phase = .head ∧ (rldState [0, 0x80] .head 0 2).rld.budget < 3
      ∧ 3 ≤ (rldState [0, 0x80] .head 0 3).rld.budget ∧ 0 + 2 ≤ (rldState [0, 0x80] .head 0 3).mem.len
      ∧ (rldState [0] .head 0 3).mem.len < 0 + 2 := by decide

/-- V63 (a run that leaves the buffer), V39 (one that does not) and an empty literal. -/
theorem witness_LiteralRecordStarts :
    (rldState [0xFF, 0x7F] .head 0 3).rld.phase = .head ∧ 3 ≤ (rldState [0xFF, 0x7F] .head 0 3).rld.budget
      ∧ 0 ≤ (0x7FFF : Half).toInt ∧ (rldState [0xFF, 0x7F] .head 0 3).mem.len < 0 + 2 + (0x7FFF : Half).toNat
      ∧ 0 ≤ (5 : Half).toInt ∧ 0 + 2 + (5 : Half).toNat ≤ (rldState [5, 0, 1, 2, 3, 4, 5, 0, 0x80] .head 0 4).mem.len
      ∧ 0 ≤ (0 : Half).toInt ∧ 0 + 2 + (0 : Half).toNat ≤ (rldState [0, 0, 0, 0x80] .head 0 4).mem.len := by decide

theorem witness_LiteralByteIsCopied :
    literalState.rld.phase = .lit ∧ 1 ≤ literalState.rld.left ∧ literalState.rld.cur < literalState.mem.len := by decide

theorem witness_LiteralRunCopiesTheBytes :
    literalState.host = [] ∧ literalState.vbu.phase.busy = false ∧ literalState.rld.phase = .lit
      ∧ 1 ≤ literalState.rld.left ∧ literalState.rld.cur + literalState.rld.left ≤ literalState.mem.len := by decide

/-- V42 (the byte is missing) and V38 (`cnt` = -32768). -/
theorem witness_RepeatRecordStarts :
    (rldState [0xFE, 0xFF] .head 0 5).rld.phase = .head ∧ 3 ≤ (rldState [0xFE, 0xFF] .head 0 5).rld.budget
      ∧ (0xFFFE : Half).toInt < 0 ∧ (rldState [0xFE, 0xFF] .head 0 5).mem.len < 0 + 3
      ∧ (0x8000 : Half).toInt < 0 ∧ 0 + 3 ≤ (rldState [0, 0x80, 0x7A, 0, 0x80] .head 0 5).mem.len := by decide

theorem witness_RepeatRunEmitsTheByte :
    repeatState.host = [] ∧ repeatState.vbu.phase.busy = false ∧ repeatState.rld.phase = .rep
      ∧ 1 ≤ repeatState.rld.left := by decide

/-- V34, V32 and V35. -/
theorem witness_EndRecordChecksTheSentinel :
    ((rldState [0] .endRec 0 2).rld.phase = .endRec ∧ (rldState [0] .endRec 0 2).mem.len < 0 + 2)
      ∧ (0 + 2 ≤ (rldState [0, 0x80] .endRec 0 2).mem.len
        ∧ (0x8000 : Half).toNat = (rldState [0, 0x80] .endRec 0 2).mem.byteVal 0
            + 256 * (rldState [0, 0x80] .endRec 0 2).mem.byteVal 1
        ∧ (0x8000 : Half) = (rldState [0, 0x80] .endRec 0 2).params.rleEos)
      ∧ (0x8001 : Half).toNat = (rldState [1, 0x80] .endRec 0 2).mem.byteVal 0
            + 256 * (rldState [1, 0x80] .endRec 0 2).mem.byteVal 1
        ∧ (0x8001 : Half) ≠ (rldState [1, 0x80] .endRec 0 2).params.rleEos := by decide

theorem witness_CursorAndBudgetBalance :
    (∃ t, exec (.rldDecode 3 9) State.reset = .next t)
      ∧ ∃ t, step literalState = .next t ∧ literalState.rld.phase.busy = true ∧ t.rld.phase.busy = true :=
  ⟨⟨_, rfl⟩, _, rfl, rfl, rfl⟩

theorem witness_FaultEntryWritesOnlyItsRegisters :
    (∃ t, step (vbuState [0xFF] .hdr 0 0 0) = .next t ∧ (vbuState [0xFF] .hdr 0 0 0).vbu.phase ≠ .fault
        ∧ t.vbu.phase = .fault)
      ∧ ∃ t, step (rldState [1, 0x80] .endRec 0 2) = .next t ∧ (rldState [1, 0x80] .endRec 0 2).rld.phase ≠ .fault
        ∧ t.rld.phase = .fault :=
  ⟨⟨_, rfl, by decide, rfl⟩, _, rfl, by decide, rfl⟩

theorem witness_VbuFaultsHaveTheListedCauses :
    ∃ t, step (vbuState [0x83, 3, 0x80] .cnt 1 2 3) = .next t ∧ (vbuState [0x83, 3, 0x80] .cnt 1 2 3).vbu.phase ≠ .fault
      ∧ t.vbu.phase = .fault :=
  ⟨_, rfl, by decide, rfl⟩

theorem witness_RldFaultsHaveTheListedCauses :
    ∃ t, step (rldState [5, 0, 1, 2, 3] .head 0 9) = .next t ∧ (rldState [5, 0, 1, 2, 3] .head 0 9).rld.phase ≠ .fault
      ∧ t.rld.phase = .fault :=
  ⟨_, rfl, by decide, rfl⟩

theorem witness_FormatErrorIsNeverRaised :
    ∃ t, step unpackState = .next t ∧ unpackState.vbu.err ≠ .formatError ∧ unpackState.rld.err ≠ .formatError :=
  ⟨_, rfl, by decide, by decide⟩

/-- A VBU and an RLD in FAULT. -/
def vbuFaultState : State := unpackState.vbuRaise .truncatedBuffer 7
def rldFaultState : State := literalState.rldRaise .corruptStream 7

theorem witness_FaultIsLeftOnlyByCommandOrReset :
    (∃ t, step (hostState vbuFaultState [.vbuRead 0]) = .next t ∧ (hostState vbuFaultState [.vbuRead 0]).vbu.phase = .fault
        ∧ t.vbu ≠ (hostState vbuFaultState [.vbuRead 0]).vbu)
      ∧ ∃ t, step (hostState rldFaultState [.reset]) = .next t ∧ (hostState rldFaultState [.reset]).rld.phase = .fault
        ∧ t.rld ≠ (hostState rldFaultState [.reset]).rld :=
  ⟨⟨_, rfl, rfl, fun h => (by cases congrArg VbuRegs.phase h)⟩, _, rfl, rfl, by decide⟩

theorem witness_UnitsLeaveEachOtherAlone :
    (∃ t, exec (.vbC8 3) unpackState = .next t ∧ unitIsVbu (.vbC8 3) = true)
      ∧ ∃ t, exec (.rlLit 2) literalState = .next t ∧ unitIsVbu (.rlLit 2) = false :=
  ⟨⟨_, rfl, rfl⟩, _, rfl, rfl⟩

theorem witness_OutputsOnlyGrowWhileACommandRuns :
    (∃ t, step unpackState = .next t ∧ (∀ rest, unpackState.host ≠ .reset :: rest) ∧ unpackState.vbu.phase.busy = true
        ∧ t.vbu.phase ≠ .fault)
      ∧ ∃ t, step literalState = .next t ∧ (∀ rest, literalState.host ≠ .reset :: rest)
        ∧ literalState.rld.phase.busy = true ∧ t.rld.phase ≠ .fault :=
  ⟨⟨_, rfl, fun _ h => (by cases h), rfl, by decide⟩, _, rfl, fun _ h => (by cases h), rfl, by decide⟩

theorem witness_CursorsNeverMoveBackwards :
    (∃ t, step unpackState = .next t ∧ (∀ rest, unpackState.host ≠ .reset :: rest) ∧ unpackState.vbu.phase.busy = true)
      ∧ ∃ t, step literalState = .next t ∧ (∀ rest, literalState.host ≠ .reset :: rest)
        ∧ literalState.rld.phase.busy = true :=
  ⟨⟨_, rfl, fun _ h => (by cases h), rfl⟩, _, rfl, fun _ h => (by cases h), rfl⟩

/-- The invariant holds in the middle of a block: P2 before value 10. -/
theorem unpackState_inv : unpackState.Inv := by
  refine ⟨by decide, by decide, by decide, by decide, ?_, ?_⟩
  · refine ⟨by decide, by decide, by decide, ?_⟩
    refine ⟨⟨by decide, by decide⟩, by decide, by decide, ?_, by decide, by decide, by decide, by decide, by decide,
      by decide, by decide⟩
    simp [VbuRegs.valuesFit, unpackState]
  · exact ⟨by decide, by decide, rfl⟩

/-- And before the last value of V1. -/
theorem lastValueState_inv : lastValueState.Inv := by
  refine ⟨by decide, by decide, by decide, by decide, ?_, ?_⟩
  · refine ⟨by decide, by decide, by decide, ?_⟩
    refine ⟨⟨by decide, by decide⟩, by decide, by decide, ?_, by decide, by decide, by decide, by decide, by decide,
      by decide, by decide⟩
    simp [VbuRegs.valuesFit, lastValueState]
  · exact ⟨by decide, by decide, rfl⟩

/-- And in the middle of a literal run of V30. -/
theorem literalState_inv : literalState.Inv := by
  refine ⟨by decide, by decide, by decide, by decide, ⟨by decide, by decide, by decide, rfl⟩, by decide, by decide, ?_⟩
  exact ⟨⟨by decide, by decide⟩, by decide, by decide, by decide, by decide⟩

theorem witness_CursorEndsWhereTheBlockEnds :
    lastValueState.Inv ∧ ∃ t, step lastValueState = .next t ∧ lastValueState.vbu.phase = .unpack
      ∧ t.vbu.phase = .done :=
  ⟨lastValueState_inv, _, rfl, rfl, rfl⟩

theorem witness_NothingChangesWithoutACommand : vbuFaultState.host = [] ∧ vbuFaultState.busy = false := by decide

theorem witness_StepRunsTheDecodedElement :
    ((vbuState [0x83, 0] .hdr 0 0 0).host = [] ∧ (vbuState [0x83, 0] .hdr 0 0 0).rld.phase.busy = false
        ∧ (vbuState [0x83, 0] .hdr 0 0 0).vbu.phase = .hdr
        ∧ decode Params.default .header ((vbuState [0x83, 0] .hdr 0 0 0).mem.window 0 1) = .ok (.vbC8 3) [])
      ∧ unpackState.vbu.phase = .unpack ∧ (vbuState [0x83, 0] .cnt 1 2 3).vbu.phase = .cnt
      ∧ ((rldState [2, 0, 7, 7] .head 0 3).vbu.phase.busy = false ∧ (rldState [2, 0, 7, 7] .head 0 3).rld.phase = .head
        ∧ 3 ≤ (rldState [2, 0, 7, 7] .head 0 3).rld.budget
        ∧ decode Params.default .runLoop ((rldState [2, 0, 7, 7] .head 0 3).mem.window 0 2) = .ok (.rlLit 2) [])
      ∧ ((rldState [0, 0x80] .endRec 0 2).rld.phase = .endRec
        ∧ decode Params.default .afterLoop ((rldState [0, 0x80] .endRec 0 2).mem.window 0 2) = .ok .rlEnd [])
      ∧ literalState.rld.phase = .lit ∧ repeatState.rld.phase = .rep := by decide

theorem witness_HostReadsTheValidRegisters :
    (vbuState [] .done 1 0 0).vbu.phase = .done ∧ (vbuState [] .done 1 0 0).vbu.absent = false
      ∧ vbuFaultState.vbu.phase = .fault ∧ (rldState [] .done 0 0).rld.phase = .done
      ∧ rldFaultState.rld.phase = .fault := by decide

theorem witness_EveryStepKeepsTheInvariant :
    (unpackState.Inv ∧ ∃ t, step unpackState = .next t) ∧ literalState.Inv ∧ ∃ t, step literalState = .next t :=
  ⟨⟨unpackState_inv, _, rfl⟩, literalState_inv, _, rfl⟩

theorem witness_DutifulHostNeverStopsTheBlock : unpackState.Inv ∧ unpackState.hostDutiful = true :=
  ⟨unpackState_inv, rfl⟩

theorem witness_EveryCommandEnds : unpackState.Inv ∧ unpackState.host = [] := ⟨unpackState_inv, rfl⟩

theorem witness_VbuRunYieldsTheBigStepOutcome : State.reset.busy = false ∧ 12 < 2 ^ State.reset.params.addrW := by
  decide

theorem witness_RldRunYieldsTheBigStepOutcome : rldFaultState.busy = false ∧ 3 < 2 ^ rldFaultState.params.addrW := by
  decide

theorem witness_ValuesAreThePackedBits : vbuRead (Memory.ofBytes [0x83, 3, 0x80, 0x29]) 0 = .values [1, 2, 3] 4 := by
  decide

theorem witness_PackedStreamReadsBack :
    Config.selWidth 2 = some 1 ∧ bpvLegal 31 = true ∧ (∀ v ∈ [0x7FFFFFFF, 0x12345678], v < 2 ^ (31 : BitVec 6).toNat)
      ∧ [0x7FFFFFFF, 0x12345678].length < 2 ^ (8 * 1) := by decide

theorem witness_EncodedBytesDecodeBack : (encodeRle 0x8000 [1, 1, 1, 1, 2]).length < 2 ^ 32 := by decide +kernel

/-- Two states with different registers over one buffer. -/
theorem witness_CommandsSeeNothingOfTheCommandBefore :
    ((State.reset.setMem (Memory.ofBytes [0xC0])).mem = (vbuState [0xC0] .done 1 3 9).mem
        ∧ (State.reset.setMem (Memory.ofBytes [0xC0])).params = (vbuState [0xC0] .done 1 3 9).params
        ∧ (State.reset.setMem (Memory.ofBytes [0xC0])).busy = false ∧ (vbuState [0xC0] .done 1 3 9).busy = false)
      ∧ (∃ t, runSteps 2 ((State.reset.setMem (Memory.ofBytes [0xC0])).setHost [.vbuRead 0]) = .next t)
      ∧ (∃ t, runSteps 2 ((vbuState [0xC0] .done 1 3 9).setHost [.vbuRead 0]) = .next t)
      ∧ (∃ t, runSteps 2 ((State.reset.setMem (Memory.ofBytes [0xC0])).setHost [.rldDecode 0 2]) = .next t)
      ∧ ∃ t, runSteps 2 ((vbuState [0xC0] .done 1 3 9).setHost [.rldDecode 0 2]) = .next t :=
  ⟨by decide, ⟨_, rfl⟩, ⟨_, rfl⟩, ⟨_, rfl⟩, _, rfl⟩

end Sys2Proof.Tests
end

section
/-! PROOF. The buffer is read-only to the block (20_memory.md R29, R41): each instruction writes the registers of its own
unit only, so only the host's load can change the buffer. -/

namespace Sys2Proof.Proofs.BufferFrame

open Sys2Proof.Machine Sys2Proof.Laws

variable {s t : State}

/-! ### The frame of each unit -/

/-- From `s` to `t` nothing changed but the registers of VBU and the count of command starts. -/
def VbuOnly (s t : State) : Prop := ∃ v n, t = { s with vbu := v, free := n }

/-- From `s` to `t` nothing changed but the registers of RLD and the count of command starts. -/
def RldOnly (s t : State) : Prop := ∃ r n, t = { s with rld := r, free := n }

/-- From `s` to `t` the buffer, the parameters and the host's actions to come stayed. -/
def InputsKept (s t : State) : Prop := t.mem = s.mem ∧ t.params = s.params ∧ t.host = s.host

theorem VbuOnly.inputsKept (h : VbuOnly s t) : InputsKept s t := by
  obtain ⟨v, n, rfl⟩ := h
  exact ⟨rfl, rfl, rfl⟩

theorem RldOnly.inputsKept (h : RldOnly s t) : InputsKept s t := by
  obtain ⟨r, n, rfl⟩ := h
  exact ⟨rfl, rfl, rfl⟩

theorem vbuOnly_setVbu (s : State) (v : VbuRegs) : VbuOnly s (s.setVbu v) := ⟨_, _, rfl⟩

theorem vbuOnly_vbuRaise (s : State) (k : ErrKind) (a : Nat) : VbuOnly s (s.vbuRaise k a) := ⟨_, _, rfl⟩

theorem vbuOnly_startVbu (s : State) (offset : Nat) : VbuOnly s (s.startVbu offset) := ⟨_, _, rfl⟩

theorem rldOnly_setRld (s : State) (r : RldRegs) : RldOnly s (s.setRld r) := ⟨_, _, rfl⟩

theorem rldOnly_rldRaise (s : State) (k : ErrKind) (a : Nat) : RldOnly s (s.rldRaise k a) := ⟨_, _, rfl⟩

theorem rldOnly_startRld (s : State) (offset : Nat) (n : BitVec 32) : RldOnly s (s.startRld offset n) := ⟨_, _, rfl⟩

/-! ### The instructions of VBU -/

theorem loadCount_vbuOnly {n : Nat} (h : loadCount n s = .next t) : VbuOnly s t := by
  rcases loadCount_next h with ⟨-, rfl⟩ | ⟨c, e, -, -, -, ⟨-, rfl⟩ | ⟨-, -, rfl⟩ | ⟨-, -, -, rfl⟩⟩
  · exact vbuOnly_vbuRaise _ _ _
  · exact vbuOnly_vbuRaise _ _ _
  · exact vbuOnly_setVbu _ _
  · exact vbuOnly_setVbu _ _

theorem unpackStep_vbuOnly (h : unpackStep s = .next t) : VbuOnly s t := by
  rcases unpackStep_next h with ⟨-, ⟨-, rfl⟩ | ⟨-, -, -, rfl⟩⟩
  · exact vbuOnly_setVbu _ _
  · exact vbuOnly_setVbu _ _

theorem runCounted_vbuOnly {sel : BitVec 2} {n : Nat} {bpv : BitVec 6} (h : runCounted sel n bpv s = .next t) :
    VbuOnly s t := by
  rcases runCounted_next h with ⟨-, rfl⟩ | ⟨-, -, -, hcount⟩ | ⟨-, -, -, hunpack⟩
  · exact vbuOnly_setVbu _ _
  · exact loadCount_vbuOnly hcount
  · exact unpackStep_vbuOnly hunpack

/-- An instruction of VBU writes nothing but the registers of VBU. -/
theorem exec_vbuOnly {i : Instr} (hi : unitIsVbu i = true) (h : exec i s = .next t) : VbuOnly s t := by
  cases i with
  | vbNone sel =>
    obtain ⟨-, rfl⟩ := execVbNone_next h
    exact vbuOnly_setVbu _ _
  | vbRsv sel bpv =>
    obtain ⟨-, rfl⟩ := execVbRsv_next h
    exact vbuOnly_vbuRaise _ _ _
  | vbC32 bpv | vbC16 bpv | vbC8 bpv => exact runCounted_vbuOnly h
  | vbuRead offset =>
    obtain ⟨-, -, rfl⟩ := execVbuRead_next h
    exact vbuOnly_startVbu _ _
  | rlLit | rlRep | rlEnd | rldDecode => cases hi

/-! ### The instructions of RLD -/

theorem startLiteral_rldOnly (cnt : Half) (s : State) : RldOnly s (startLiteral cnt s) := by
  rcases startLiteral_cases cnt s with ⟨-, e⟩ | ⟨-, e⟩ <;> rw [e]
  · exact rldOnly_rldRaise _ _ _
  · exact rldOnly_setRld _ _

theorem startRepeat_rldOnly (cnt : Half) (s : State) : RldOnly s (startRepeat cnt s) := by
  rcases startRepeat_cases cnt s with ⟨-, e⟩ | ⟨-, e⟩ <;> rw [e]
  · exact rldOnly_rldRaise _ _ _
  · exact rldOnly_setRld _ _

theorem checkSentinel_rldOnly (s : State) : RldOnly s (checkSentinel s) := by
  rcases checkSentinel_cases s with ⟨-, e⟩ | ⟨-, -, e⟩ | ⟨-, -, e⟩ <;> rw [e]
  · exact rldOnly_rldRaise _ _ _
  · exact rldOnly_setRld _ _
  · exact rldOnly_rldRaise _ _ _

/-- An instruction of RLD writes nothing but the registers of RLD. -/
theorem exec_rldOnly {i : Instr} (hi : unitIsVbu i = false) (h : exec i s = .next t) : RldOnly s t := by
  cases i with
  | rlLit cnt =>
    rcases execRlLit_next h with ⟨-, -, rfl⟩ | ⟨-, -, hbyte⟩
    · exact startLiteral_rldOnly _ _
    · obtain ⟨-, -, rfl⟩ := literalByte_next hbyte
      exact rldOnly_setRld _ _
  | rlRep cnt =>
    rcases execRlRep_next h with ⟨-, -, rfl⟩ | ⟨-, -, hbyte⟩
    · exact startRepeat_rldOnly _ _
    · obtain ⟨-, rfl⟩ := repeatByte_next hbyte
      exact rldOnly_setRld _ _
  | rlEnd =>
    obtain ⟨-, rfl⟩ := execRlEnd_next h
    exact checkSentinel_rldOnly _
  | rldDecode offset n =>
    obtain ⟨-, -, rfl⟩ := execRldDecode_next h
    exact rldOnly_startRld _ _ _
  | vbNone | vbRsv | vbC32 | vbC16 | vbC8 | vbuRead => cases hi

/-! ### Instructions and steps -/

/-- No instruction writes the buffer (20_memory.md R29), the parameters or the host's list. -/
theorem exec_inputsKept {i : Instr} (h : exec i s = .next t) : InputsKept s t := by
  cases hi : unitIsVbu i with
  | true => exact (exec_vbuOnly hi h).inputsKept
  | false => exact (exec_rldOnly hi h).inputsKept

/-- Every row of VBU's table is a write of VBU's registers or a raise. -/
theorem vbuRow_vbuOnly (h : VbuRow s t) : VbuOnly s t := by
  cases h with
  | headerMissing | reserved | countMissing | payloadMissing => exact vbuOnly_vbuRaise _ _ _
  | absent | header | empty | load | within | across => exact vbuOnly_setVbu _ _

theorem rldRow_rldOnly (h : RldRow s t) : RldOnly s t := by
  cases h with
  | loopEnds | literalByte | repeatByte => exact rldOnly_setRld _ _
  | countMissing => exact rldOnly_rldRaise _ _ _
  | literal w => exact startLiteral_rldOnly w s
  | repeats w => exact startRepeat_rldOnly w s
  | sentinel => exact checkSentinel_rldOnly s

/-- A step keeps the buffer and the parameters, or it is the host's load while no unit is busy (20_memory.md R41). -/
theorem step_keepsInputs_or_loads (h : step s = .next t) :
    (t.mem = s.mem ∧ t.params = s.params)
      ∨ ∃ bytes rest, s.host = .load bytes :: rest ∧ s.busy = false
          ∧ t = (s.setHost rest).setMem (Memory.ofBytes bytes) := by
  cases step_rows h with
  | vbu _ _ _ _ hrow =>
    obtain ⟨hmem, hparams, -⟩ := (vbuRow_vbuOnly hrow).inputsKept
    exact .inl ⟨hmem, hparams⟩
  | rld _ _ _ _ hrow =>
    obtain ⟨hmem, hparams, -⟩ := (rldRow_rldOnly hrow).inputsKept
    exact .inl ⟨hmem, hparams⟩
  | quiet | read | decode | reset => exact .inl ⟨rfl, rfl⟩
  | load bytes rest hhost hbusy => exact .inr ⟨bytes, rest, hhost, hbusy, rfl⟩

end Sys2Proof.Proofs.BufferFrame

namespace Sys2Proof.Proofs

open Sys2Proof.Machine BufferFrame

/-- Settles O8: an instruction writes its own unit's registers only, and of the rows of a step only the host's load
writes the buffer. -/
theorem bufferIsReadOnlyToTheBlock : Obligations.BufferIsReadOnlyToTheBlock := by
  refine ⟨fun i s t h => exec_inputsKept h, fun s t h => ?_⟩
  rcases step_keepsInputs_or_loads h with ⟨hmem, hparams⟩ | ⟨bytes, rest, hhost, hbusy, rfl⟩
  · exact ⟨hparams, fun hne => absurd hmem hne⟩
  · exact ⟨rfl, fun _ => ⟨hbusy, bytes, rest, hhost, rfl⟩⟩

end Sys2Proof.Proofs
end

section
/-! PROOF. The opcode map of 30_encoding.md R53: every header byte falls in the class of its two fields, and a 16-bit field
means what its context says. -/

namespace Sys2Proof.Proofs.OpcodeMap

open Sys2Proof.Laws

/-! ### The fields of a header byte -/

theorem headerSel_toNat (h : Byte) : (headerSel h).toNat = h.toNat / 64 := by
  have hlt := h.isLt
  rw [headerSel, BitVec.extractLsb'_toNat, Nat.shiftRight_eq_div_pow]
  omega

theorem headerBpv_toNat (h : Byte) : (headerBpv h).toNat = h.toNat % 64 := by
  rw [headerBpv, BitVec.extractLsb'_toNat, Nat.shiftRight_zero]

theorem headerSel_eq_iff {h : Byte} {sel : BitVec 2} : headerSel h = sel ↔ h.toNat / 64 = sel.toNat := by
  rw [BitVec.toNat_eq, headerSel_toNat]

theorem headerBpv_eq_zero_iff {h : Byte} : headerBpv h = 0 ↔ h.toNat % 64 = 0 := by
  rw [BitVec.toNat_eq, headerBpv_toNat, BitVec.ofNat_eq_ofNat, BitVec.toNat_zero]

theorem bpvLegal_headerBpv {h : Byte} (h1 : 1 ≤ h.toNat % 64) (h32 : h.toNat % 64 ≤ 32) :
    bpvLegal (headerBpv h) = true := by
  simp [bpvLegal, Config.bpvMax, headerBpv_toNat, h1, h32]

/-! ### The classes of `sel` and `bpv` -/

/-- The test of `bpv` comes before that of the selector (92_eei_decisions.md D5). -/
theorem classify_zero (sel : BitVec 2) : classify sel 0 = .vbNone sel := if_pos rfl

/-- A legal `bpv` (30_encoding.md R46) is one that passes both of `classify`'s tests of it. -/
theorem bpvLegal_iff {bpv : BitVec 6} : bpvLegal bpv = true ↔ bpv ≠ 0 ∧ ¬ Config.bpvMax < bpv.toNat := by
  rw [bpvLegal, Bool.and_eq_true, decide_eq_true_iff, decide_eq_true_iff, ne_eq, BitVec.toNat_eq,
    BitVec.ofNat_eq_ofNat, BitVec.toNat_zero]
  omega

theorem classify_selC32 {bpv : BitVec 6} (hl : bpvLegal bpv = true) : classify Config.selC32 bpv = .vbC32 bpv := by
  obtain ⟨h0, h32⟩ := bpvLegal_iff.mp hl
  rw [classify, if_neg h0, if_neg (by decide), if_neg h32, if_pos rfl]

theorem classify_selC16 {bpv : BitVec 6} (hl : bpvLegal bpv = true) : classify Config.selC16 bpv = .vbC16 bpv := by
  obtain ⟨h0, h32⟩ := bpvLegal_iff.mp hl
  rw [classify, if_neg h0, if_neg (by decide), if_neg h32, if_neg (by decide), if_pos rfl]

theorem classify_selC8 {bpv : BitVec 6} (hl : bpvLegal bpv = true) : classify Config.selC8 bpv = .vbC8 bpv := by
  obtain ⟨h0, h32⟩ := bpvLegal_iff.mp hl
  rw [classify, if_neg h0, if_neg (by decide), if_neg h32, if_neg (by decide), if_neg (by decide)]

/-- The reserved headers (92_eei_decisions.md D3, D4): values of more than 32 bits, and the selector without a width. -/
theorem classify_reserved {sel : BitVec 2} {bpv : BitVec 6} (h0 : bpv ≠ 0)
    (hr : sel = 3 ∨ Config.bpvMax < bpv.toNat) : classify sel bpv = .vbRsv sel bpv := by
  rw [classify, if_neg h0]
  rcases hr with rfl | hbpv
  · exact if_pos (by decide)
  · rw [if_pos hbpv, ite_self]

/-! ### The classes of a header byte -/

theorem decodeHeader_vbNone {h : Byte} (h0 : h.toNat % 64 = 0) : decodeHeader h = .vbNone (headerSel h) := by
  rw [decodeHeader, headerBpv_eq_zero_iff.mpr h0, classify_zero]

theorem decodeHeader_vbC32 {h : Byte} (hlo : 1 ≤ h.toNat) (hhi : h.toNat ≤ 0x20) :
    decodeHeader h = .vbC32 (headerBpv h) := by
  have hsel : headerSel h = Config.selC32 := headerSel_eq_iff.mpr (show h.toNat / 64 = 0 by omega)
  rw [decodeHeader, hsel, classify_selC32 (bpvLegal_headerBpv (by omega) (by omega))]

theorem decodeHeader_vbC16 {h : Byte} (hlo : 0x41 ≤ h.toNat) (hhi : h.toNat ≤ 0x60) :
    decodeHeader h = .vbC16 (headerBpv h) := by
  have hsel : headerSel h = Config.selC16 := headerSel_eq_iff.mpr (show h.toNat / 64 = 1 by omega)
  rw [decodeHeader, hsel, classify_selC16 (bpvLegal_headerBpv (by omega) (by omega))]

theorem decodeHeader_vbC8 {h : Byte} (hlo : 0x81 ≤ h.toNat) (hhi : h.toNat ≤ 0xA0) :
    decodeHeader h = .vbC8 (headerBpv h) := by
  have hsel : headerSel h = Config.selC8 := headerSel_eq_iff.mpr (show h.toNat / 64 = 2 by omega)
  rw [decodeHeader, hsel, classify_selC8 (bpvLegal_headerBpv (by omega) (by omega))]

theorem decodeHeader_vbRsv {h : Byte} (h0 : h.toNat % 64 ≠ 0) (hr : 0xC0 ≤ h.toNat ∨ 32 < h.toNat % 64) :
    decodeHeader h = .vbRsv (headerSel h) (headerBpv h) := by
  have hlt := h.isLt
  refine classify_reserved (mt headerBpv_eq_zero_iff.mp h0) (hr.imp (fun hsel => ?_) fun hbpv => ?_)
  · exact headerSel_eq_iff.mpr (show h.toNat / 64 = 3 by omega)
  · rwa [headerBpv_toNat]

/-! ### The meanings of a 16-bit field -/

/-- The little-endian value of two bytes determines the field they hold (20_memory.md R31). -/
theorem halfOfBytes_eq {lo hi : Byte} {w : Half} (hw : w.toNat = lo.toNat + 256 * hi.toNat) :
    halfOfBytes lo hi = w :=
  BitVec.eq_of_toNat_eq ((halfOfBytes_toNat lo hi).trans hw.symm)

theorem decodeRecord_rlLit {w : Half} (hw : w.toNat < 32768) : decodeRecord w = .rlLit w := by
  have hmsb : w.msb = false := BitVec.msb_eq_false_iff_two_mul_lt.mpr (by omega)
  simp [decodeRecord, hmsb]

theorem decodeRecord_rlRep {w : Half} (hw : 32768 ≤ w.toNat) : decodeRecord w = .rlRep w := by
  have hmsb : w.msb = true := BitVec.msb_eq_true_iff_two_mul_ge.mpr (by omega)
  simp [decodeRecord, hmsb]

theorem decode_runLoop (p : Params) (lo hi : Byte) (rest : List Byte) :
    decode p .runLoop (lo :: hi :: rest) = .ok (decodeRecord (halfOfBytes lo hi)) rest := rfl

theorem decode_afterLoop (p : Params) (lo hi : Byte) (rest : List Byte) :
    decode p .afterLoop (lo :: hi :: rest)
      = if halfOfBytes lo hi = p.rleEos then .ok .rlEnd rest else .reject .notSentinel := rfl

end Sys2Proof.Proofs.OpcodeMap

namespace Sys2Proof.Proofs

open OpcodeMap

/-- Settles O3: a range of header bytes is a range of `bpv` under one `sel`, so each has one class of `classify`; a field's
class is bit 15 in the run loop and equality with `RLE_EOS` after it. -/
theorem opcodeMapPartitionsAllPatterns : Obligations.OpcodeMapPartitionsAllPatterns := by
  refine ⟨fun h => ⟨decodeHeader_vbNone, decodeHeader_vbC32, decodeHeader_vbC16, decodeHeader_vbC8, fun hr => ?_,
    headerSel_toNat h, headerBpv_toNat h⟩, fun p lo hi w hw => ?_⟩
  · have hlt := h.isLt
    exact decodeHeader_vbRsv (by omega) (by omega)
  · rw [decode_runLoop, decode_afterLoop, halfOfBytes_eq hw]
    refine ⟨fun hlit => ?_, fun hrep => ?_, fun heos => if_pos heos, fun hne => if_neg hne⟩
    · rw [decodeRecord_rlLit hlit]
    · rw [decodeRecord_rlRep hrep]

end Sys2Proof.Proofs
end

section
/-! PROOF. The rows of VBU that end a command without a value (40_vbu.md R60, R61, R71): what the row's element answers,
and the outcome the host then reads. -/

namespace Sys2Proof.Proofs.BlockEnds

open Sys2Proof.Machine Sys2Proof.Laws

variable {s : State}

/-! ### The outcome of a command that has ended -/

theorem vbuOutcome_absent (hp : s.vbu.phase = .done) (ha : s.vbu.absent = true) :
    s.vbuOutcome = some (.absent s.vbu.newoff) := by
  simp [State.vbuOutcome, hp, ha]

theorem vbuOutcome_values (hp : s.vbu.phase = .done) (ha : s.vbu.absent = false) :
    s.vbuOutcome = some (.values s.vbu.out s.vbu.newoff) := by
  simp [State.vbuOutcome, hp, ha]

theorem vbuOutcome_fault (hp : s.vbu.phase = .fault) : s.vbuOutcome = some (.fault s.vbu.err s.vbu.faddr) := by
  simp [State.vbuOutcome, hp]

/-! ### The rows -/

theorem exec_vbNone_hdr (sel : BitVec 2) (hp : s.vbu.phase = .hdr) :
    exec (.vbNone sel) s = .next (s.setVbu { s.vbu with
      bpv := 0, sel := sel, cur := s.vbu.cur + 1, absent := true, newoff := s.vbu.cur + 1, phase := .done }) := by
  simp only [exec, execVbNone, hp, VbuRegs.takeHeader]

theorem exec_vbRsv_hdr (sel : BitVec 2) (bpv : BitVec 6) (hp : s.vbu.phase = .hdr) :
    exec (.vbRsv sel bpv) s = .next (s.vbuRaise .corruptStream s.vbu.cur) := by
  simp only [exec, execVbRsv, hp]

theorem read_eq_some_iff {m : Memory} {a n v : Nat} : m.read a n = some v ↔ a + n ≤ m.len ∧ v = m.leValue a n := by
  rcases read_cases m a n with ⟨hlen, hr⟩ | ⟨hlen, hr⟩ <;> rw [hr]
  · simp only [reduceCtorEq, false_iff, not_and]
    omega
  · simp only [Option.some.injEq, hlen, true_and, eq_comm]

theorem payloadLen_zero (bpv : Nat) : payloadLen 0 bpv = 0 := by simp [payloadLen]

theorem loadCount_zero {n : Nat} (hr : s.mem.read s.vbu.cur n = some 0) :
    loadCount n s = .next (s.setVbu { s.vbu with
      count := 0, cur := s.vbu.cur + n, endAddr := s.vbu.cur + n, idx := 0, newoff := s.vbu.cur + n
      phase := .done }) := by
  obtain ⟨hlen, -⟩ := read_eq_some_iff.mp hr
  simp only [loadCount, hr, payloadLen_zero, Nat.add_zero, if_neg (Nat.not_lt.mpr hlen), if_true, VbuRegs.complete,
    BitVec.ofNat_eq_ofNat]

end Sys2Proof.Proofs.BlockEnds

namespace Sys2Proof.Proofs

open Sys2Proof.Machine Sys2Proof.Laws BlockEnds

/-- Settles O16: in HDR `VB.NONE` has one row, and it leaves the unit in DONE with `absent` 1. -/
theorem vbNoneEndsAbsent : Obligations.VbNoneEndsAbsent :=
  fun _ sel hp => ⟨_, exec_vbNone_hdr sel hp, rfl, vbuOutcome_absent rfl rfl⟩

/-- Settles O17: in HDR `VB.RSV` has one row, the raise. -/
theorem vbRsvTakesCorruptStream : Obligations.VbRsvTakesCorruptStream :=
  fun _ sel bpv hp => ⟨_, exec_vbRsv_hdr sel bpv hp, rfl, vbuOutcome_fault rfl⟩

/-- Settles O20: the element due in CNT runs the count step of its selector, and a count of 0 leaves no payload to check
or to load. -/
theorem emptyBlockCompletesAtOnce : Obligations.EmptyBlockCompletesAtOnce := by
  intro s i sel n hp hi hform hr
  refine ⟨_, (exec_cnt hp hi hform).trans (loadCount_zero hr), rfl, fun hout habsent => ?_⟩
  rw [← hout]
  exact vbuOutcome_values rfl habsent

end Sys2Proof.Proofs
end

section
/-! PROOF. The closed form of the packed values (40_vbu.md R70). The loop of R58 goes through the payload's bit string
from its most significant end: before each value its word, `rem` and cursor stand for one position in the string
(`AtBit`), and each of the two ways to take a value takes the next `bpv` bits from there. -/

namespace Sys2Proof.Proofs.PackedBits

open Sys2Proof.Machine Sys2Proof.Laws BlockEnds

/-! ### Digits of a bit string -/

section Digits

variable (bit : Nat → Bool)

theorem bitsValue_lt (p : Nat) : ∀ n, bitsValue bit p n < 2 ^ n
  | 0 => Nat.one_pos
  | n + 1 => by
    have ih := bitsValue_lt p n
    rw [bitsValue, pow_succ]
    split <;> omega

/-- The digits of two adjacent pieces of the string, the first piece more significant. -/
theorem bitsValue_add (p a : Nat) : ∀ b,
    bitsValue bit p (a + b) = bitsValue bit p a * 2 ^ b + bitsValue bit (p + a) b
  | 0 => by simp [bitsValue]
  | b + 1 => by
    rw [← Nat.add_assoc, bitsValue, bitsValue, bitsValue_add p a b, pow_succ, Nat.add_assoc p a b]
    ring

/-- A word holds the digits of at most 32 bits. -/
theorem ofNat_bitsValue_toNat {n : Nat} (p : Nat) (hn : n ≤ 32) :
    (BitVec.ofNat 32 (bitsValue bit p n)).toNat = bitsValue bit p n :=
  (BitVec.toNat_ofNat ..).trans
    (Nat.mod_eq_of_lt ((bitsValue_lt bit p n).trans_le (Nat.pow_le_pow_right Nat.two_pos hn)))

end Digits

/-! ### Slices of a payload word -/

theorem slice_zero_width (v lo : Nat) : slice v lo 0 = 0 := Nat.mod_one _

/-- A slice one bit longer at its low end. -/
theorem slice_succ (v lo n : Nat) : slice v lo (n + 1) = 2 * slice v (lo + 1) n + v / 2 ^ lo % 2 := by
  rw [slice, slice, pow_succ' 2 n, Nat.mod_mul, Nat.div_div_eq_div_mul, ← pow_succ, Nat.add_comm]

variable {m : Memory} {base e : Nat}

/-- Bit `k` of word `j`, by its place in the string (40_vbu.md R70: bit 31 of word 0 comes first). -/
theorem payloadBit_word {j k : Nat} (hk : k < 32) :
    (if payloadBit m base e (32 * j + (31 - k)) then 1 else 0) = (payloadWord m base e j).toNat / 2 ^ k % 2 := by
  have hword : (32 * j + (31 - k)) / 32 = j := by omega
  have hbit : 32 - 1 - (32 * j + (31 - k)) % 32 = k := by omega
  rw [payloadBit, Config.wordBits, hword, hbit, BitVec.getLsbD, Nat.testBit_eq_decide_div_mod_eq]
  rcases Nat.mod_two_eq_zero_or_one ((payloadWord m base e j).toNat / 2 ^ k) with h0 | h1
  · simp [h0]
  · simp [h1]

/-- The first `n` of the last `rem` bits of word `j` are a slice of the word. -/
theorem bitsValue_word {j p rem : Nat} (hrem : rem ≤ 32) (hp : p + rem = 32 * (j + 1)) : ∀ {n}, n ≤ rem →
    bitsValue (payloadBit m base e) p n = slice (payloadWord m base e j).toNat (rem - n) n
  | 0, _ => (slice_zero_width _ _).symm
  | n + 1, hn => by
    have hlow : rem - n = rem - (n + 1) + 1 := by omega
    have hplace : p + n = 32 * j + (31 - (rem - (n + 1))) := by omega
    rw [bitsValue, bitsValue_word hrem hp (Nat.le_of_succ_le hn), hplace, payloadBit_word (by omega), slice_succ, hlow]

/-! ### The loop's place in the string -/

/-- The loop's word, `rem` and cursor stand before bit `p` of the string: in word `j`, with the cursor after it. -/
def AtBit (m : Memory) (base e p : Nat) (word : Word) (rem cur : Nat) : Prop :=
  ∃ j, word = payloadWord m base e j ∧ p + rem = 32 * (j + 1) ∧ rem ≤ 32 ∧ cur = (fetchWordAt m (base + 4 * j) e).2

variable {p rem cur bpv : Nat} {word : Word}

theorem atBit_first : AtBit m base e 0 (fetchWordAt m base e).1 Config.wordBits (fetchWordAt m base e).2 :=
  ⟨0, rfl, rfl, Nat.le_refl 32, rfl⟩

theorem AtBit.within (h : AtBit m base e p word rem cur) (hle : bpv ≤ rem) :
    AtBit m base e (p + bpv) word (rem - bpv) cur := by
  obtain ⟨j, hword, hp, hrem, hcur⟩ := h
  exact ⟨j, hword, by omega, by omega, hcur⟩

theorem AtBit.valueInWord_eq (h : AtBit m base e p word rem cur) (hle : bpv ≤ rem) :
    valueInWord word rem bpv = BitVec.ofNat 32 (bitsValue (payloadBit m base e) p bpv) := by
  obtain ⟨j, rfl, hp, hrem, -⟩ := h
  rw [valueInWord, bitsValue_word hrem hp hle]

/-- A value that spans into the next word lies in the payload, so the current word was a full one and the fetch at the
cursor is the payload's next word. -/
theorem cursor_eq_next_word {j : Nat} (hp : p + rem = 32 * (j + 1)) (hcur : cur = (fetchWordAt m (base + 4 * j) e).2)
    (hspan : rem < bpv) (hend : p + bpv ≤ 8 * (e - base)) : cur = base + 4 * (j + 1) := by
  rw [hcur, fetchWordAt_cursor, if_pos (by omega)]
  ring

theorem AtBit.across (h : AtBit m base e p word rem cur) (hspan : rem < bpv) (hbpv : bpv ≤ 32)
    (hend : p + bpv ≤ 8 * (e - base)) :
    AtBit m base e (p + bpv) (fetchWordAt m cur e).1 (Config.wordBits - (bpv - rem)) (fetchWordAt m cur e).2 := by
  obtain ⟨j, -, hp, -, hcur⟩ := h
  rw [cursor_eq_next_word hp hcur hspan hend]
  refine ⟨j + 1, rfl, ?_, Nat.sub_le _ _, rfl⟩
  rw [Config.wordBits]
  omega

/-- The last `rem` bits of the current word and the first `bpv - rem` of the next are `bpv` bits in a row. -/
theorem AtBit.valueAcross_eq (h : AtBit m base e p word rem cur) (hspan : rem < bpv) (hbpv : bpv ≤ 32)
    (hend : p + bpv ≤ 8 * (e - base)) :
    valueAcross word (fetchWordAt m cur e).1 rem bpv = BitVec.ofNat 32 (bitsValue (payloadBit m base e) p bpv) := by
  obtain ⟨j, rfl, hp, hrem, hcur⟩ := h
  have hhigh : bitsValue (payloadBit m base e) p rem = slice (payloadWord m base e j).toNat 0 rem := by
    rw [bitsValue_word hrem hp (Nat.le_refl rem), Nat.sub_self]
  have hlow : bitsValue (payloadBit m base e) (p + rem) (bpv - rem)
      = slice (payloadWord m base e (j + 1)).toNat (32 - (bpv - rem)) (bpv - rem) :=
    bitsValue_word (Nat.le_refl 32) (by omega) (by omega)
  have hsplit : bpv = rem + (bpv - rem) := by omega
  rw [cursor_eq_next_word hp hcur hspan hend]
  conv_rhs => rw [hsplit, bitsValue_add, hhigh, hlow]
  rfl

/-! ### The loop -/

/-- The loop delivers the values of consecutive pieces of `bpv` bits. -/
theorem unpackLoop_eq (hbpv : bpv ≤ 32) : ∀ {n p rem cur : Nat} {word : Word}, AtBit m base e p word rem cur →
    p + n * bpv ≤ 8 * (e - base) →
    unpackLoop m bpv e n word rem cur
      = (List.range n).map fun i => BitVec.ofNat 32 (bitsValue (payloadBit m base e) (p + i * bpv) bpv)
  | 0, _, _, _, _, _, _ => rfl
  | n + 1, p, rem, cur, word, h, hend => by
    have hsucc : ∀ i, p + (i + 1) * bpv = p + bpv + i * bpv := fun i => by ring
    have hrest : p + bpv + n * bpv ≤ 8 * (e - base) := hsucc n ▸ hend
    simp only [List.range_succ_eq_map, List.map_cons, List.map_map, Function.comp_def, Nat.succ_eq_add_one, hsucc,
      Nat.zero_mul, Nat.add_zero]
    rw [unpackLoop]
    split
    · rename_i hle
      rw [h.valueInWord_eq hle, unpackLoop_eq hbpv (h.within hle) hrest]
    · rename_i hgt
      have hspan : rem < bpv := Nat.lt_of_not_le hgt
      have hin : p + bpv ≤ 8 * (e - base) := by omega
      simp only [h.valueAcross_eq hspan hbpv hin, unpackLoop_eq hbpv (h.across hspan hbpv hin) hrest]

/-! ### What a `values` outcome of `VBU_read` comes from -/

theorem readPayload_values {count : Nat} {seq : List Word} (h : readPayload m bpv count base = .values seq e) :
    e = base + payloadLen count bpv ∧ e ≤ m.len
      ∧ seq = unpackLoop m bpv e count (fetchWordAt m base e).1 Config.wordBits (fetchWordAt m base e).2 := by
  rw [readPayload] at h
  split at h
  · cases h
  · rename_i hlen
    split at h
    · rename_i h0
      cases h
      exact ⟨rfl, Nat.le_of_not_lt hlen, by rw [h0, unpackLoop]⟩
    · cases h
      exact ⟨rfl, Nat.le_of_not_lt hlen, rfl⟩

theorem readCounted_values {n a : Nat} {seq : List Word} (h : readCounted m bpv n a = .values seq e) :
    ∃ count, m.read a n = some count ∧ readPayload m bpv count (a + n) = .values seq e := by
  rw [readCounted] at h
  split at h
  · cases h
  · exact ⟨_, ‹_›, h⟩

/-- The fields of a header byte (30_encoding.md R43) as slices of its number. -/
theorem slice_bpv (h : Nat) : slice h 0 6 = h % 64 := by simp [slice]

theorem ofNat_slice_sel (h : Nat) : BitVec.ofNat 2 (slice h 6 2) = BitVec.ofNat 2 (h / 64) :=
  BitVec.eq_of_toNat_eq (by simp [slice])

theorem vbuRead_values {offset : Nat} {seq : List Word} (hv : vbuRead m offset = .values seq e) :
    ∃ h n, m.read offset 1 = some h ∧ Config.selWidth (BitVec.ofNat 2 (h / 64)) = some n ∧ h % 64 ≤ 32
      ∧ readCounted m (h % 64) n (offset + 1) = .values seq e := by
  rw [vbuRead] at hv
  split at hv
  · cases hv
  · rename_i h hread
    simp only [slice_bpv, ofNat_slice_sel] at hv
    split at hv
    · cases hv
    · split at hv
      · cases hv
      · rename_i n hsel
        split at hv
        · cases hv
        · rename_i hbpv
          exact ⟨h, n, hread, hsel, Nat.le_of_not_lt hbpv, hv⟩

end Sys2Proof.Proofs.PackedBits

namespace Sys2Proof.Proofs

open Sys2Proof.Machine PackedBits

/-- Settles O51: a `values` outcome is the loop's from the payload's first bit on, and the payload has the bits of all
values. -/
theorem valuesAreThePackedBits : Obligations.ValuesAreThePackedBits := by
  intro m offset e seq hv
  obtain ⟨h, n, hread, hsel, hbpv, hcounted⟩ := vbuRead_values hv
  obtain ⟨count, hcount, hpayload⟩ := readCounted_values hcounted
  obtain ⟨he, hlen, hseq⟩ := readPayload_values hpayload
  have hbits : 0 + count * (h % 64) ≤ 8 * (e - (offset + 1 + n)) := by
    rw [he, payloadLen]
    omega
  rw [unpackLoop_eq hbpv atBit_first hbits] at hseq
  refine ⟨h, n, count, hread, hsel, hcount, ?_, he, hlen, fun i hi => ?_⟩
  · rw [hseq, List.length_map, List.length_range]
  · rw [hseq, List.getElem?_map, List.getElem?_range hi, Option.map_some, Option.map_some,
      ofNat_bitsValue_toNat _ _ hbpv, Nat.zero_add, packedValue]

end Sys2Proof.Proofs
end

section
/-! PROOF. Where RLD's run loop ends: the test of the budget at its head (41_rld.md R75, R76) and the end record after
it (R79). Each is one row, stated here as one equation over its conditions. -/

namespace Sys2Proof.Proofs.RunLoop

open Sys2Proof.Machine Sys2Proof.Laws OpcodeMap

variable {s : State}

/-! ### The 16-bit field at an address -/

/-- The 16-bit field that stands at an address (30_encoding.md R47). -/
def fieldAt (m : Memory) (a : Nat) : Half := halfOfBytes (cellAt m.cells a) (cellAt m.cells (a + 1))

theorem fieldAt_toNat (m : Memory) (a : Nat) : (fieldAt m a).toNat = m.byteVal a + 256 * m.byteVal (a + 1) :=
  halfOfBytes_toNat _ _

theorem fieldAt_eq {m : Memory} {a : Nat} {w : Half} (hw : w.toNat = m.byteVal a + 256 * m.byteVal (a + 1)) :
    fieldAt m a = w :=
  halfOfBytes_eq hw

/-- A read of two bytes is the field there (20_memory.md R31). -/
theorem ofNat_leValue_two (m : Memory) (a : Nat) : BitVec.ofNat 16 (m.leValue a 2) = fieldAt m a := by
  rw [fieldAt, ← halfOfBytes_leValue, BitVec.ofNat_toNat, BitVec.setWidth_eq]

/-- Bit 15, which the decoder tests, is the sign of the field as an i16 (30_encoding.md R47). -/
theorem decodeRecord_eq (w : Half) : decodeRecord w = if w.toInt < 0 then .rlRep w else .rlLit w := by
  rw [decodeRecord, BitVec.msb_eq_toInt]
  simp only [decide_eq_true_eq]

/-! ### The rows -/

/-- The row of HEAD: the budget is tested first, and only then the field is fetched. -/
theorem step_head (hh : s.host = []) (hv : s.vbu.phase.busy = false) (hp : s.rld.phase = .head) :
    step s =
      if s.rld.budget < 3 then .next (s.setRld { s.rld with phase := .endRec })
      else if s.mem.len < s.rld.cur + 2 then .next (s.rldRaise .truncatedBuffer s.rld.cur)
      else exec (decodeRecord (fieldAt s.mem s.rld.cur)) s := by
  rw [step_rld hh hv (by rw [hp]; rfl)]
  rcases rldDue_head hp with ⟨hends, hdue⟩ | ⟨hgoes, hmissing, hdue⟩ | ⟨hgoes, hfield, hdue⟩ <;> rw [hdue]
  · exact (if_pos hends).symm
  · rw [if_neg (Int.not_lt.mpr hgoes : ¬ s.rld.budget < 3), if_pos hmissing]
    rfl
  · rw [if_neg (Int.not_lt.mpr hgoes : ¬ s.rld.budget < 3), if_neg (Nat.not_lt.mpr hfield)]
    rfl

/-- The row of END: it asks for the two bytes and their value, not for the budget. -/
theorem exec_rlEnd (hp : s.rld.phase = .endRec) :
    exec .rlEnd s = .next
      (if s.mem.len < s.rld.cur + 2 then s.rldRaise .truncatedBuffer s.rld.cur
      else if fieldAt s.mem s.rld.cur = s.params.rleEos then
        s.setRld { s.rld with endcur := s.rld.cur + 2, phase := .done }
      else s.rldRaise .corruptStream s.rld.cur) := by
  have hexec : exec .rlEnd s = .next (checkSentinel s) := by simp only [exec, execRlEnd, hp]
  rw [hexec, ← ofNat_leValue_two]
  rcases checkSentinel_cases s with ⟨hmissing, e⟩ | ⟨hfield, heos, e⟩ | ⟨hfield, hne, e⟩ <;> rw [e]
  · rw [if_pos hmissing]
  · rw [if_neg (Nat.not_lt.mpr hfield), if_pos heos]
  · rw [if_neg (Nat.not_lt.mpr hfield), if_neg hne]

end Sys2Proof.Proofs.RunLoop

namespace Sys2Proof.Proofs

open Sys2Proof.Machine RunLoop

/-- Settles O25: the budget is the first condition of HEAD's row, and the record run after it is the one the decoder
names by the sign of the field at the cursor. -/
theorem loopTestReadsOnlyTheBudget : Obligations.LoopTestReadsOnlyTheBudget := by
  intro s hh hv hp
  rw [step_head hh hv hp]
  refine ⟨fun hends => if_pos hends, fun hgoes hfield => ⟨fieldAt s.mem s.rld.cur, fieldAt_toNat _ _, ?_⟩,
    fun hgoes hmissing => ?_⟩
  · rw [if_neg (Int.not_lt.mpr hgoes), if_neg (Nat.not_lt.mpr hfield), decodeRecord_eq]
  · rw [if_neg (Int.not_lt.mpr hgoes), if_pos hmissing]

/-- Settles O31: the conditions of END's row are the missing bytes and the field at the cursor, which two bytes of the
value `w` make `w`. -/
theorem endRecordChecksTheSentinel : Obligations.EndRecordChecksTheSentinel := by
  intro s hp
  rw [exec_rlEnd hp]
  refine ⟨fun hmissing => ?_, fun w hfield hw => ?_⟩
  · rw [if_pos hmissing]
  · rw [if_neg (Nat.not_lt.mpr hfield), fieldAt_eq hw]
    refine ⟨fun heos => ?_, fun hne => ?_⟩
    · rw [if_pos heos]
    · rw [if_neg hne]

end Sys2Proof.Proofs
end

section
/-! PROOF. Taking a fault (60_exceptions.md R95, R99): a step either raises in a unit, with one of the two kinds the rows
raise, or it does not bring the unit into FAULT and at most clears its `err`. -/

namespace Sys2Proof.Proofs.FaultEntry

open Sys2Proof.Machine Sys2Proof.Laws

variable {s t : State}

/-! ### A raise, or none -/

/-- From `s` VBU takes a fault of a kind this block raises. -/
def VbuRaises (s t : State) : Prop := ∃ k a, k ≠ .formatError ∧ t = s.vbuRaise k a

/-- From `s` RLD takes a fault of a kind this block raises. -/
def RldRaises (s t : State) : Prop := ∃ k a, k ≠ .formatError ∧ t = s.rldRaise k a

/-- From `s` to `t` VBU did not come into FAULT, and its `err` stayed or was cleared. -/
def VbuNoFault (s t : State) : Prop :=
  (t.vbu.phase = .fault → s.vbu.phase = .fault) ∧ (t.vbu.err = s.vbu.err ∨ t.vbu.err = .none)

/-- From `s` to `t` RLD did not come into FAULT, and its `err` stayed or was cleared. -/
def RldNoFault (s t : State) : Prop :=
  (t.rld.phase = .fault → s.rld.phase = .fault) ∧ (t.rld.err = s.rld.err ∨ t.rld.err = .none)

theorem vbuRaises_vbuRaise {k : ErrKind} {a : Nat} (hk : k ≠ .formatError) : VbuRaises s (s.vbuRaise k a) :=
  ⟨k, a, hk, rfl⟩

theorem rldRaises_rldRaise {k : ErrKind} {a : Nat} (hk : k ≠ .formatError) : RldRaises s (s.rldRaise k a) :=
  ⟨k, a, hk, rfl⟩

theorem vbuNoFault_of_eq (h : t.vbu = s.vbu) : VbuNoFault s t := by simp [VbuNoFault, h]

theorem rldNoFault_of_eq (h : t.rld = s.rld) : RldNoFault s t := by simp [RldNoFault, h]

theorem vbuNoFault_setVbu {v : VbuRegs} (hp : v.phase ≠ .fault) (he : v.err = s.vbu.err) : VbuNoFault s (s.setVbu v) :=
  ⟨fun h => absurd h hp, .inl he⟩

theorem rldNoFault_setRld {r : RldRegs} (hp : r.phase ≠ .fault) (he : r.err = s.rld.err) : RldNoFault s (s.setRld r) :=
  ⟨fun h => absurd h hp, .inl he⟩

/-! ### The rows of VBU -/

theorem finishValue_phase_ne_fault {v : VbuRegs} (x : Word) (hp : v.phase ≠ .fault) :
    (v.finishValue x).phase ≠ .fault := by
  rcases finishValue_cases v x with ⟨-, e⟩ | ⟨-, e⟩ <;> rw [e]
  · nofun
  · exact hp

theorem finishValue_err (v : VbuRegs) (x : Word) : (v.finishValue x).err = v.err := by
  rcases finishValue_cases v x with ⟨-, e⟩ | ⟨-, e⟩ <;> rw [e]

theorem vbuRow_raises_or_not (h : VbuRow s t) : VbuRaises s t ∨ VbuNoFault s t := by
  cases h with
  | headerMissing | reserved | countMissing | payloadMissing => exact .inl (vbuRaises_vbuRaise nofun)
  | absent | header | empty | load => exact .inr (vbuNoFault_setVbu nofun rfl)
  | within hp | across hp =>
    exact .inr (vbuNoFault_setVbu (finishValue_phase_ne_fault _ (by simp [hp])) (finishValue_err _ _))

/-! ### The rows of RLD -/

theorem runPhase_ne_fault {p : RldPhase} (left : Nat) (hp : p ≠ .fault) : runPhase p left ≠ .fault := by
  unfold runPhase
  split
  · nofun
  · exact hp

theorem startLiteral_raises_or_not (cnt : Half) (s : State) :
    RldRaises s (startLiteral cnt s) ∨ RldNoFault s (startLiteral cnt s) := by
  rcases startLiteral_cases cnt s with ⟨-, e⟩ | ⟨-, e⟩ <;> rw [e]
  · exact .inl (rldRaises_rldRaise nofun)
  · exact .inr (rldNoFault_setRld (by dsimp only; split <;> nofun) rfl)

theorem startRepeat_raises_or_not (cnt : Half) (s : State) :
    RldRaises s (startRepeat cnt s) ∨ RldNoFault s (startRepeat cnt s) := by
  rcases startRepeat_cases cnt s with ⟨-, e⟩ | ⟨-, e⟩ <;> rw [e]
  · exact .inl (rldRaises_rldRaise nofun)
  · exact .inr (rldNoFault_setRld nofun rfl)

theorem checkSentinel_raises_or_not (s : State) :
    RldRaises s (checkSentinel s) ∨ RldNoFault s (checkSentinel s) := by
  rcases checkSentinel_cases s with ⟨-, e⟩ | ⟨-, -, e⟩ | ⟨-, -, e⟩ <;> rw [e]
  · exact .inl (rldRaises_rldRaise nofun)
  · exact .inr (rldNoFault_setRld nofun rfl)
  · exact .inl (rldRaises_rldRaise nofun)

theorem rldRow_raises_or_not (h : RldRow s t) : RldRaises s t ∨ RldNoFault s t := by
  cases h with
  | loopEnds => exact .inr (rldNoFault_setRld nofun rfl)
  | countMissing => exact .inl (rldRaises_rldRaise nofun)
  | literal w => exact startLiteral_raises_or_not w s
  | repeats w => exact startRepeat_raises_or_not w s
  | literalByte | repeatByte => exact .inr (rldNoFault_setRld (runPhase_ne_fault _ nofun) rfl)
  | sentinel => exact checkSentinel_raises_or_not s

/-! ### Steps -/

/-- What a step does to VBU: of its rows only VBU's own can raise; a command and a reset clear `err`. -/
theorem step_vbu_raises_or_not (h : step s = .next t) : (∃ host, VbuRaises (s.setHost host) t) ∨ VbuNoFault s t := by
  cases step_rows h with
  | vbu host _ _ _ hrow => exact (vbuRow_raises_or_not hrow).imp_left fun hraise => ⟨host, hraise⟩
  | rld host _ _ _ hrow =>
    obtain ⟨r, n, rfl⟩ := BufferFrame.rldRow_rldOnly hrow
    exact .inr (vbuNoFault_of_eq rfl)
  | quiet | decode | load => exact .inr (vbuNoFault_of_eq rfl)
  | read | reset => exact .inr ⟨nofun, .inr rfl⟩

/-- What a step does to RLD: of its rows only RLD's own can raise; a command and a reset clear `err`. -/
theorem step_rld_raises_or_not (h : step s = .next t) : (∃ host, RldRaises (s.setHost host) t) ∨ RldNoFault s t := by
  cases step_rows h with
  | vbu host _ _ _ hrow =>
    obtain ⟨v, n, rfl⟩ := BufferFrame.vbuRow_vbuOnly hrow
    exact .inr (rldNoFault_of_eq rfl)
  | rld host _ _ _ hrow => exact (rldRow_raises_or_not hrow).imp_left fun hraise => ⟨host, hraise⟩
  | quiet | read | load => exact .inr (rldNoFault_of_eq rfl)
  | decode | reset => exact .inr ⟨nofun, .inr rfl⟩

end Sys2Proof.Proofs.FaultEntry

namespace Sys2Proof.Proofs

open Sys2Proof.Machine FaultEntry

/-- Settles O33: a step that brings a unit into FAULT is that unit's raise, whose writes are the listed ones. -/
theorem faultEntryWritesOnlyItsRegisters : Obligations.FaultEntryWritesOnlyItsRegisters := by
  refine fun s t h => ⟨fun hs ht => ?_, fun hs ht => ?_⟩
  · rcases step_vbu_raises_or_not h with ⟨host, k, a, -, rfl⟩ | ⟨hphase, -⟩
    · exact ⟨rfl, rfl, rfl, rfl, rfl⟩
    · exact absurd (hphase ht) hs
  · rcases step_rld_raises_or_not h with ⟨host, k, a, -, rfl⟩ | ⟨hphase, -⟩
    · exact ⟨rfl, rfl, rfl, rfl, rfl⟩
    · exact absurd (hphase ht) hs

/-- Settles O36: a raise of either unit has one of the other kinds, and every other step keeps or clears `err`. -/
theorem formatErrorIsNeverRaised : Obligations.FormatErrorIsNeverRaised := by
  refine fun s t h => ⟨fun hs => ?_, fun hs => ?_⟩
  · rcases step_vbu_raises_or_not h with ⟨host, k, a, hk, rfl⟩ | ⟨-, herr | herr⟩
    · exact hk
    · rwa [herr]
    · rw [herr]
      nofun
  · rcases step_rld_raises_or_not h with ⟨host, k, a, hk, rfl⟩ | ⟨-, herr | herr⟩
    · exact hk
    · rwa [herr]
    · rw [herr]
      nofun

end Sys2Proof.Proofs
end

section
/-! PROOF. Decode and encode are inverse to each other (30_encoding.md R46 to R50, R53): the two fields of a header
byte and the two bytes of a 16-bit field each determine the whole, and `classify` sends a well-formed header to its
element. -/

namespace Sys2Proof.Proofs.Encoding

open Sys2Proof.Laws OpcodeMap

/-! ### The parts of a header byte and of a 16-bit field -/

theorem headerByte_toNat (sel : BitVec 2) (bpv : BitVec 6) :
    (headerByte sel bpv).toNat = 64 * sel.toNat + bpv.toNat := by
  rw [headerByte, BitVec.toNat_append, ← Nat.shiftLeft_add_eq_or_of_lt bpv.isLt, Nat.shiftLeft_eq, Nat.mul_comm]

@[simp] theorem headerSel_headerByte (sel : BitVec 2) (bpv : BitVec 6) : headerSel (headerByte sel bpv) = sel := by
  have hlt := bpv.isLt
  rw [headerSel_eq_iff, headerByte_toNat]
  omega

@[simp] theorem headerBpv_headerByte (sel : BitVec 2) (bpv : BitVec 6) : headerBpv (headerByte sel bpv) = bpv := by
  have hlt := bpv.isLt
  refine BitVec.eq_of_toNat_eq ?_
  rw [headerBpv_toNat, headerByte_toNat]
  omega

@[simp] theorem headerByte_fields (h : Byte) : headerByte (headerSel h) (headerBpv h) = h := by
  refine BitVec.eq_of_toNat_eq ?_
  rw [headerByte_toNat, headerSel_toNat, headerBpv_toNat]
  omega

theorem halfLow_toNat (w : Half) : (halfLow w).toNat = w.toNat % 256 := by
  rw [halfLow, BitVec.extractLsb'_toNat, Nat.shiftRight_zero]

theorem halfHigh_toNat (w : Half) : (halfHigh w).toNat = w.toNat / 256 := by
  have hlt := w.isLt
  rw [halfHigh, BitVec.extractLsb'_toNat, Nat.shiftRight_eq_div_pow]
  omega

@[simp] theorem halfOfBytes_parts (w : Half) : halfOfBytes (halfLow w) (halfHigh w) = w := by
  refine halfOfBytes_eq ?_
  rw [halfLow_toNat, halfHigh_toNat]
  omega

@[simp] theorem halfLow_halfOfBytes (lo hi : Byte) : halfLow (halfOfBytes lo hi) = lo := by
  have hlt := lo.isLt
  refine BitVec.eq_of_toNat_eq ?_
  rw [halfLow_toNat, halfOfBytes_toNat]
  omega

@[simp] theorem halfHigh_halfOfBytes (lo hi : Byte) : halfHigh (halfOfBytes lo hi) = hi := by
  have hlt := lo.isLt
  refine BitVec.eq_of_toNat_eq ?_
  rw [halfHigh_toNat, halfOfBytes_toNat]
  omega

/-! ### Decoding an encoded element -/

theorem decode_header (p : Params) (h : Byte) (rest : List Byte) :
    decode p .header (h :: rest) = .ok (decodeHeader h) rest := rfl

theorem decodeHeader_headerByte (sel : BitVec 2) (bpv : BitVec 6) :
    decodeHeader (headerByte sel bpv) = classify sel bpv := by
  rw [decodeHeader, headerSel_headerByte, headerBpv_headerByte]

theorem decode_headerByte {p : Params} {i : Instr} {sel : BitVec 2} {bpv : BitVec 6} (rest : List Byte)
    (hi : classify sel bpv = i) : decode p .header ([headerByte sel bpv] ++ rest) = .ok i rest := by
  rw [List.singleton_append, decode_header, decodeHeader_headerByte, hi]

theorem decode_runLoop_parts {p : Params} {i : Instr} {w : Half} (rest : List Byte) (hi : decodeRecord w = i) :
    decode p .runLoop ([halfLow w, halfHigh w] ++ rest) = .ok i rest := by
  rw [List.cons_append, List.singleton_append, decode_runLoop, halfOfBytes_parts, hi]

theorem decode_afterLoop_parts (p : Params) (rest : List Byte) :
    decode p .afterLoop ([halfLow p.rleEos, halfHigh p.rleEos] ++ rest) = .ok .rlEnd rest := by
  rw [List.cons_append, List.singleton_append, decode_afterLoop, halfOfBytes_parts, if_pos rfl]

/-! ### Well-formedness of the elements with a constraint -/

theorem selWidth_eq_none_iff : ∀ {sel : BitVec 2}, Config.selWidth sel = none ↔ sel = 3 := by decide

theorem wellFormed_vbRsv_iff {p : Params} {sel : BitVec 2} {bpv : BitVec 6} :
    (Instr.vbRsv sel bpv).wellFormed p = true ↔ bpv ≠ 0 ∧ (sel = 3 ∨ Config.bpvMax < bpv.toNat) := by
  rw [Instr.wellFormed, Bool.and_eq_true, bne_iff_ne, Bool.or_eq_true, Option.isNone_iff_eq_none, decide_eq_true_iff,
    selWidth_eq_none_iff]

theorem wellFormed_decodeRecord (p : Params) (w : Half) : (decodeRecord w).wellFormed p = true := by
  rw [decodeRecord]
  split
  · assumption
  · simpa [Instr.wellFormed] using ‹¬ w.msb = true›

/-- The encoding of a header's class is the header byte, and the class is a well-formed element of the header context.
-/
theorem classify_encodes (p : Params) (sel : BitVec 2) (bpv : BitVec 6) :
    encode p (classify sel bpv) = [headerByte sel bpv] ∧ (classify sel bpv).wellFormed p = true
      ∧ (classify sel bpv).context = some .header := by
  rcases classify_cases sel bpv with ⟨e, rfl⟩ | ⟨e, h0, hr⟩ | ⟨hl, ⟨e, rfl⟩ | ⟨e, rfl⟩ | ⟨e, rfl⟩⟩ <;> rw [e]
  · exact ⟨rfl, rfl, rfl⟩
  · exact ⟨rfl, wellFormed_vbRsv_iff.mpr ⟨h0, hr.imp_left (BitVec.eq_of_toNat_eq ·)⟩, rfl⟩
  all_goals exact ⟨rfl, hl, rfl⟩

theorem decodeRecord_encodes (p : Params) (w : Half) :
    encode p (decodeRecord w) = [halfLow w, halfHigh w] ∧ (decodeRecord w).context = some .runLoop := by
  rw [decodeRecord]
  split <;> exact ⟨rfl, rfl⟩

end Sys2Proof.Proofs.Encoding

namespace Sys2Proof.Proofs

open OpcodeMap Encoding

/-- Settles O1: each element is the class of the fields its encoding holds. -/
theorem encodedElementDecodesToItself : Obligations.EncodedElementDecodesToItself := by
  intro p i c rest hwf hc
  cases i with
  | vbNone sel =>
    cases hc
    exact decode_headerByte rest (classify_zero sel)
  | vbRsv sel bpv =>
    cases hc
    obtain ⟨h0, hr⟩ := wellFormed_vbRsv_iff.mp hwf
    exact decode_headerByte rest (classify_reserved h0 hr)
  | vbC32 bpv =>
    cases hc
    exact decode_headerByte rest (classify_selC32 hwf)
  | vbC16 bpv =>
    cases hc
    exact decode_headerByte rest (classify_selC16 hwf)
  | vbC8 bpv =>
    cases hc
    exact decode_headerByte rest (classify_selC8 hwf)
  | rlLit cnt =>
    cases hc
    exact decode_runLoop_parts rest (if_neg (by simpa [Instr.wellFormed] using hwf))
  | rlRep cnt =>
    cases hc
    exact decode_runLoop_parts rest (if_pos hwf)
  | rlEnd =>
    cases hc
    exact decode_afterLoop_parts p rest
  | vbuRead | rldDecode => cases hc

/-- Settles O2: in each context the bytes that decode are a header byte or a 16-bit field, and the element they decode
to is encoded as its parts. -/
theorem decodedBytesEncodeBack : Obligations.DecodedBytesEncodeBack := by
  intro p c bytes rest i h
  match c, bytes with
  | .header, [] | .runLoop, [] | .runLoop, [_] | .afterLoop, [] | .afterLoop, [_] => cases h
  | .header, b :: tail =>
    cases h
    obtain ⟨henc, hwf, hctx⟩ := classify_encodes p (headerSel b) (headerBpv b)
    refine ⟨?_, hwf, hctx⟩
    rw [decodeHeader, henc, headerByte_fields, List.singleton_append]
  | .runLoop, lo :: hi :: tail =>
    cases h
    obtain ⟨henc, hctx⟩ := decodeRecord_encodes p (halfOfBytes lo hi)
    refine ⟨?_, wellFormed_decodeRecord p _, hctx⟩
    rw [henc, halfLow_halfOfBytes, halfHigh_halfOfBytes, List.cons_append, List.singleton_append]
  | .afterLoop, lo :: hi :: tail =>
    rw [decode_afterLoop] at h
    split at h
    · rename_i heos
      cases h
      refine ⟨?_, rfl, rfl⟩
      rw [encode, ← heos, halfLow_halfOfBytes, halfHigh_halfOfBytes, List.cons_append, List.singleton_append]
    · cases h

/-- Settles O4: nine closed evaluations of the decoder. -/
theorem writtenOutBytesDecode : Obligations.WrittenOutBytesDecode := by
  unfold Obligations.WrittenOutBytesDecode
  decide

end Sys2Proof.Proofs
end

section
/-! PROOF. What the reads of the buffer deliver (20_memory.md R28, R30, R31): the little-endian number as a sum over its
bytes, a loaded buffer's bytes, and the decoder's window. -/

namespace Sys2Proof.Proofs.BufferReads

open Sys2Proof.Machine Sys2Proof.Laws

/-! ### Little-endian numbers -/

theorem leValue_eq_sum (m : Memory) (a : Nat) : ∀ n,
    m.leValue a n = ∑ i ∈ Finset.range n, m.byteVal (a + i) * 2 ^ (8 * i)
  | 0 => rfl
  | n + 1 => by rw [Memory.leValue, Finset.sum_range_succ, leValue_eq_sum m a n]

theorem read_eq_none {m : Memory} {a n : Nat} (h : m.len < a + n) : m.read a n = none := if_pos h

theorem read_eq_leValue {m : Memory} {a n : Nat} (h : a + n ≤ m.len) : m.read a n = some (m.leValue a n) :=
  if_neg (Nat.not_lt.mpr h)

/-! ### The cells of a sequence of bytes -/

/-- `cellsFrom` lists nothing below its first address. -/
theorem cellAt_cellsFrom_of_lt : ∀ (bytes : List Byte) {a k : Nat}, k < a → cellAt (cellsFrom a bytes) k = 0
  | [], _, _, _ => rfl
  | b :: rest, a, k, hk => by
    have hrest : cellAt (cellsFrom (a + 1) rest) k = 0 := cellAt_cellsFrom_of_lt rest (Nat.lt_succ_of_lt hk)
    rw [cellsFrom]
    split
    · exact hrest
    · rw [cellAt, if_neg (Nat.ne_of_gt hk), hrest]

theorem cellAt_cellsFrom_head (b : Byte) (rest : List Byte) (a : Nat) : cellAt (cellsFrom a (b :: rest)) a = b := by
  rw [cellsFrom]
  split
  · rw [cellAt_cellsFrom_of_lt rest (Nat.lt_succ_self a), ‹b = 0›]
  · rw [cellAt, if_pos rfl]

theorem cellAt_cellsFrom_tail (b : Byte) (rest : List Byte) {a k : Nat} (hk : a ≠ k) :
    cellAt (cellsFrom a (b :: rest)) k = cellAt (cellsFrom (a + 1) rest) k := by
  rw [cellsFrom]
  split
  · rfl
  · rw [cellAt, if_neg hk]

theorem cellAt_cellsFrom : ∀ (bytes : List Byte) (a : Nat) {i : Nat} (hi : i < bytes.length),
    cellAt (cellsFrom a bytes) (a + i) = bytes[i]
  | b :: rest, a, 0, _ => cellAt_cellsFrom_head b rest a
  | b :: rest, a, i + 1, hi => by
    have hi' : i < rest.length := Nat.lt_of_succ_lt_succ hi
    rw [cellAt_cellsFrom_tail b rest (by omega), ← Nat.add_assoc, Nat.add_right_comm, cellAt_cellsFrom rest (a + 1) hi',
      List.getElem_cons_succ]

theorem byte?_ofBytes (bytes : List Byte) (a : Nat) : (Memory.ofBytes bytes).byte? a = bytes[a]? := by
  rcases byte?_cases (Memory.ofBytes bytes) a with ⟨hlen, e⟩ | ⟨hlt, e⟩ <;> rw [e]
  · exact (List.getElem?_eq_none hlen).symm
  · have hcell := cellAt_cellsFrom bytes 0 hlt
    rw [Nat.zero_add] at hcell
    rw [List.getElem?_eq_getElem hlt]
    exact congrArg some hcell

/-! ### The window -/

theorem window_succ (m : Memory) (a n : Nat) :
    m.window a (n + 1) = match m.byte? a with
      | some b => b :: m.window (a + 1) n
      | none => [] := by
  rw [Memory.window, Memory.byte?]
  split <;> rfl

theorem window_ofBytes (bytes : List Byte) : ∀ (n a : Nat),
    (Memory.ofBytes bytes).window a n = (bytes.drop a).take n
  | 0, _ => rfl
  | n + 1, a => by
    rw [window_succ, byte?_ofBytes]
    by_cases ha : a < bytes.length
    · rw [List.getElem?_eq_getElem ha, List.drop_eq_getElem_cons ha, List.take_succ_cons, ← window_ofBytes bytes n]
    · rw [List.getElem?_eq_none (Nat.le_of_not_lt ha), List.drop_eq_nil_of_le (Nat.le_of_not_lt ha), List.take_nil]

end Sys2Proof.Proofs.BufferReads

namespace Sys2Proof.Proofs

open Sys2Proof.Machine Sys2Proof.Laws BlockEnds BufferReads

/-- Settles O5: `read` is `leValue` or nothing, by its one test, and `leValue` is a number of `n` bytes. -/
theorem memReadIsLittleEndianAllOrNothing : Obligations.MemReadIsLittleEndianAllOrNothing := by
  refine fun m a n => ⟨read_eq_none, fun h => ?_, fun v hv => ?_⟩
  · rw [read_eq_leValue h, leValue_eq_sum]
  · obtain ⟨-, rfl⟩ := read_eq_some_iff.mp hv
    exact leValue_lt m a n

/-- Settles O6: the cells of a sequence of bytes give each address its byte, a byte 0 by giving it no cell. -/
theorem loadedBufferHoldsItsBytes : Obligations.LoadedBufferHoldsItsBytes := byte?_ofBytes

/-- Settles O7, by induction on the window's length. -/
theorem windowIsTheBytesThatExist : Obligations.WindowIsTheBytesThatExist :=
  fun bytes a n => window_ofBytes bytes n a

end Sys2Proof.Proofs
end

section
/-! PROOF. The rows of VBU's table that go on (40_vbu.md R59, R62 to R69), each as one equation under its conditions,
and the word fetch (R66, R67). -/

namespace Sys2Proof.Proofs.VbuRows

open Sys2Proof.Machine Sys2Proof.Laws BlockEnds BufferReads

variable {s : State} {n c : Nat}

/-! ### What is due -/

theorem vbuDue_headerMissing (hp : s.vbu.phase = .hdr) (h : s.mem.len ≤ s.vbu.cur) :
    vbuDue s = .go (s.vbuRaise .truncatedBuffer s.vbu.cur) := by
  rcases vbuDue_hdr hp with ⟨-, e⟩ | ⟨hlt, -⟩
  · exact e
  · exact absurd hlt (Nat.not_lt.mpr h)

theorem vbuDue_header (hp : s.vbu.phase = .hdr) (h : s.vbu.cur < s.mem.len) :
    vbuDue s = .run (decodeHeader (cellAt s.mem.cells s.vbu.cur)) s := by
  rcases vbuDue_hdr hp with ⟨hle, -⟩ | ⟨-, e⟩
  · exact absurd h (Nat.not_lt.mpr hle)
  · exact e

/-! ### The header and the count field -/

theorem runCounted_hdr (sel : BitVec 2) (n : Nat) (bpv : BitVec 6) (hp : s.vbu.phase = .hdr) :
    runCounted sel n bpv s
      = .next (s.setVbu { s.vbu with bpv := bpv, sel := sel, cur := s.vbu.cur + 1, phase := .cnt }) := by
  simp only [runCounted, hp, VbuRegs.takeHeader]

/-- The header's fields name a block with values exactly when they are legal; its count field has the selector's width.
-/
theorem countedForm_classify {v : VbuRegs} {sel : BitVec 2} (hf : countedForm (classify v.sel v.bpv) = some (sel, n)) :
    bpvLegal v.bpv = true ∧ Config.selWidth v.sel = some n ∧ n ≤ 4 := by
  rcases classify_cases v.sel v.bpv with ⟨e, -⟩ | ⟨e, -⟩ | ⟨hl, ⟨e, hs⟩ | ⟨e, hs⟩ | ⟨e, hs⟩⟩ <;> rw [e] at hf <;>
    cases hf
  all_goals exact ⟨hl, by rw [hs]; rfl, by decide⟩

theorem bpvLegal_bounds {bpv : BitVec 6} (hl : bpvLegal bpv = true) : 1 ≤ bpv.toNat ∧ bpv.toNat ≤ 32 := by
  rwa [bpvLegal, Bool.and_eq_true, decide_eq_true_iff, decide_eq_true_iff] at hl

theorem payloadLen_pos {bpv : Nat} (hc : c ≠ 0) (hb : 1 ≤ bpv) : 0 < payloadLen c bpv := by
  have hbits : 0 < c * bpv := Nat.mul_pos (Nat.pos_of_ne_zero hc) hb
  rw [payloadLen]
  omega

theorem fetchWord_inside {m : Memory} {cur e : Nat} (hcur : cur < e) (he : e ≤ m.len) :
    fetchWord m cur e = some (fetchWordAt m cur e) := if_pos ⟨hcur, he⟩

theorem loadCount_countMissing (hlen : s.mem.len < s.vbu.cur + n) :
    loadCount n s = .next (s.vbuRaise .truncatedBuffer s.vbu.cur) := by
  simp only [loadCount, read_eq_none hlen]

theorem loadCount_payloadMissing (hr : s.mem.read s.vbu.cur n = some c)
    (he : s.mem.len < s.vbu.cur + n + payloadLen c s.vbu.bpv.toNat) :
    loadCount n s = .next (s.vbuRaise .truncatedBuffer (s.vbu.cur + n)) := by
  simp only [loadCount, hr, if_pos he]

theorem loadCount_first {e : Nat} (hr : s.mem.read s.vbu.cur n = some c) (hc : c ≠ 0)
    (he : e = s.vbu.cur + n + payloadLen c s.vbu.bpv.toNat) (hbase : s.vbu.cur + n < e) (hlen : e ≤ s.mem.len) :
    loadCount n s = .next (s.setVbu { s.vbu with
      count := BitVec.ofNat 32 c, endAddr := e, idx := 0, word := (fetchWordAt s.mem (s.vbu.cur + n) e).1
      cur := (fetchWordAt s.mem (s.vbu.cur + n) e).2, rem := Config.wordBits, phase := .unpack }) := by
  subst he
  simp only [loadCount, hr, if_neg (Nat.not_lt.mpr hlen), if_neg hc, fetchWord_inside hbase hlen]

/-! ### The values -/

theorem unpackStep_within (hi : s.vbu.idx < s.vbu.count.toNat) (hb : s.vbu.bpv.toNat ≤ s.vbu.rem) :
    unpackStep s = .next (s.setVbu ({ s.vbu with rem := s.vbu.rem - s.vbu.bpv.toNat }.finishValue
      (valueInWord s.vbu.word s.vbu.rem s.vbu.bpv.toNat))) := by
  simp only [unpackStep, if_neg (Nat.not_le.mpr hi), if_pos hb]

theorem unpackStep_across (hi : s.vbu.idx < s.vbu.count.toNat) (hb : s.vbu.rem < s.vbu.bpv.toNat)
    (hcur : s.vbu.cur < s.vbu.endAddr) (hend : s.vbu.endAddr ≤ s.mem.len) :
    unpackStep s = .next (s.setVbu ({ s.vbu with
      cur := (fetchWordAt s.mem s.vbu.cur s.vbu.endAddr).2, word := (fetchWordAt s.mem s.vbu.cur s.vbu.endAddr).1
      rem := Config.wordBits - (s.vbu.bpv.toNat - s.vbu.rem) }.finishValue
        (valueAcross s.vbu.word (fetchWordAt s.mem s.vbu.cur s.vbu.endAddr).1 s.vbu.rem s.vbu.bpv.toNat))) := by
  simp only [unpackStep, if_neg (Nat.not_le.mpr hi), if_neg (Nat.not_le.mpr hb), fetchWord_inside hcur hend]

/-- The end of an unpack step in UNPACK as one record. -/
theorem finishValue_eq {v : VbuRegs} (x : Word) (hp : v.phase = .unpack) :
    v.finishValue x = { v with
      out := v.out ++ [x], idx := v.idx + 1
      newoff := if v.idx + 1 = v.count.toNat then v.endAddr else v.newoff
      phase := if v.idx + 1 = v.count.toNat then .done else .unpack } := by
  rcases finishValue_cases v x with ⟨hlast, e⟩ | ⟨hmore, e⟩ <;> rw [e]
  · rw [if_pos hlast, if_pos hlast]
  · rw [if_neg hmore, if_neg hmore, ← hp]

theorem valueInWord_toNat (word : Word) (rem : Nat) {bpv : Nat} (hb : bpv ≤ 32) :
    (valueInWord word rem bpv).toNat = word.toNat / 2 ^ (rem - bpv) % 2 ^ bpv := by
  rw [valueInWord, BitVec.toNat_ofNat, slice]
  exact Nat.mod_eq_of_lt ((Nat.mod_lt _ (Nat.two_pow_pos _)).trans_le (Nat.pow_le_pow_right Nat.two_pos hb))

theorem valueInWord_lt (word : Word) (rem : Nat) {bpv : Nat} (hb : bpv ≤ 32) :
    (valueInWord word rem bpv).toNat < 2 ^ bpv := by
  rw [valueInWord_toNat word rem hb]
  exact Nat.mod_lt _ (Nat.two_pow_pos _)

theorem slice_zero (v width : Nat) : slice v 0 width = v % 2 ^ width := by rw [slice, pow_zero, Nat.div_one]

/-- The top `need` bits of a word: what is above them is nothing, so the slice is the quotient. -/
theorem slice_top (w : Word) {need : Nat} (hn : need ≤ 32) :
    slice w.toNat (Config.wordBits - need) need = w.toNat / 2 ^ (32 - need) := by
  rw [slice, Config.wordBits]
  refine Nat.mod_eq_of_lt (Nat.div_lt_of_lt_mul ?_)
  rw [← pow_add, Nat.sub_add_cancel hn]
  exact w.isLt

/-- Two adjacent pieces of `rem` and `bpv - rem` bits are below `2^bpv` together. -/
theorem pieces_lt {hi lo rem bpv : Nat} (hb : rem ≤ bpv) (hhi : hi < 2 ^ rem) (hlo : lo < 2 ^ (bpv - rem)) :
    hi * 2 ^ (bpv - rem) + lo < 2 ^ bpv := by
  calc hi * 2 ^ (bpv - rem) + lo < hi * 2 ^ (bpv - rem) + 2 ^ (bpv - rem) := Nat.add_lt_add_left hlo _
    _ = (hi + 1) * 2 ^ (bpv - rem) := (Nat.add_one_mul _ _).symm
    _ ≤ 2 ^ rem * 2 ^ (bpv - rem) := Nat.mul_le_mul_right _ hhi
    _ = 2 ^ bpv := by rw [← pow_add, Nat.add_sub_cancel' hb]

theorem valueAcross_spec (word w2 : Word) {rem bpv : Nat} (hr : rem ≤ bpv) (hb : bpv ≤ 32) :
    (valueAcross word w2 rem bpv).toNat = word.toNat % 2 ^ rem * 2 ^ (bpv - rem) + w2.toNat / 2 ^ (32 - (bpv - rem))
      ∧ (valueAcross word w2 rem bpv).toNat < 2 ^ bpv := by
  have htop : w2.toNat / 2 ^ (32 - (bpv - rem)) < 2 ^ (bpv - rem) := by
    rw [← slice_top w2 (by omega)]
    exact Nat.mod_lt _ (Nat.two_pow_pos _)
  have hlt := pieces_lt hr (Nat.mod_lt word.toNat (Nat.two_pow_pos rem)) htop
  rw [valueAcross, slice_zero, slice_top w2 (by omega), BitVec.toNat_ofNat,
    Nat.mod_eq_of_lt (hlt.trans_le (Nat.pow_le_pow_right Nat.two_pos hb))]
  exact ⟨rfl, hlt⟩

/-! ### The word fetch -/

theorem fetchWordAt_full {m : Memory} {cur e : Nat} (h : 4 ≤ e - cur) :
    (fetchWordAt m cur e).1.toNat = m.leValue cur 4 := by
  rw [fetchWordAt, if_pos h, BitVec.toNat_ofNat]
  exact Nat.mod_eq_of_lt (leValue_lt m cur 4)

theorem fetchWordAt_tail {m : Memory} {cur e : Nat} (h : e - cur < 4) :
    (fetchWordAt m cur e).1.toNat = m.leValue cur (e - cur) * 2 ^ (8 * (4 - (e - cur))) := by
  rw [fetchWordAt, if_neg (Nat.not_le.mpr h), tailWord, BitVec.toNat_ofNat]
  refine Nat.mod_eq_of_lt ?_
  calc m.leValue cur (e - cur) * 2 ^ (8 * (4 - (e - cur)))
      < 2 ^ (8 * (e - cur)) * 2 ^ (8 * (4 - (e - cur))) :=
        Nat.mul_lt_mul_of_pos_right (leValue_lt m cur _) (Nat.two_pow_pos _)
    _ = 2 ^ 32 := by rw [← pow_add]; congr 1; omega

end Sys2Proof.Proofs.VbuRows

namespace Sys2Proof.Proofs

open Sys2Proof.Machine Sys2Proof.Laws BlockEnds BufferReads VbuRows

/-- Settles O18: in HDR the three blocks share one row, with the selector of each. -/
theorem countedBlocksTakeTheirHeader : Obligations.CountedBlocksTakeTheirHeader :=
  fun _ bpv hp => ⟨runCounted_hdr _ 4 bpv hp, runCounted_hdr _ 2 bpv hp, runCounted_hdr _ 1 bpv hp⟩

/-- Settles O19: the count step's first two tests. -/
theorem countStepFaultsOnMissingBytes : Obligations.CountStepFaultsOnMissingBytes := by
  intro s i sel n hp hi hform
  rw [exec_cnt hp hi hform]
  exact ⟨loadCount_countMissing, fun count hr he => loadCount_payloadMissing hr he⟩

/-- Settles O21: a legal block with values has a payload, so the first word is fetched inside it; a count field of at
most 4 bytes fits the 32-bit register. -/
theorem countStepLoadsTheFirstWord : Obligations.CountStepLoadsTheFirstWord := by
  rintro s i sel n count hp rfl hform hr hc hlen
  obtain ⟨hl, -, hn⟩ := countedForm_classify hform
  have hpos : 0 < payloadLen count s.vbu.bpv.toNat := payloadLen_pos hc (bpvLegal_bounds hl).1
  obtain ⟨-, rfl⟩ := read_eq_some_iff.mp hr
  refine ⟨_, _, (exec_cnt hp rfl hform).trans (loadCount_first hr hc rfl (by omega) hlen), rfl, rfl, ?_⟩
  rw [setVbu_vbu, BitVec.toNat_ofNat]
  exact Nat.mod_eq_of_lt ((leValue_lt _ _ _).trans_le (Nat.pow_le_pow_right Nat.two_pos (by omega)))

/-- Settles O22: the full word is the little-endian number of four bytes; the tail word is that of its bytes, moved up
by the bytes it lacks. -/
theorem wordFetchFullAndTail : Obligations.WordFetchFullAndTail := by
  refine fun m cur e _ _ => ⟨fun h => ⟨?_, ?_⟩, fun h => ⟨?_, ?_⟩⟩
  · rw [fetchWordAt_full h, leValue_eq_sum]
  · rw [fetchWordAt_cursor, if_pos h]
  · rw [fetchWordAt_tail h, leValue_eq_sum, Finset.sum_mul]
    refine Finset.sum_congr rfl fun i _ => ?_
    rw [Nat.mul_assoc, ← pow_add, ← Nat.mul_add, Nat.add_comm i]
  · rw [fetchWordAt_cursor, if_neg (Nat.not_le.mpr h)]

/-- Settles O23: the row of a value in the current word, with the end of an unpack step as one record. -/
theorem unpackStepWithinTheWord : Obligations.UnpackStepWithinTheWord := by
  rintro s i ⟨sel, n⟩ hp rfl hform hi hb
  obtain ⟨hl, -, -⟩ := countedForm_classify hform
  refine ⟨_, _, (exec_unpack hp rfl hform).trans (unpackStep_within hi hb),
    valueInWord_toNat s.vbu.word s.vbu.rem (bpvLegal_bounds hl).2, ?_⟩
  exact congrArg s.setVbu (finishValue_eq _ hp)

/-- Settles O24: the row of a value across two words. -/
theorem unpackStepAcrossWords : Obligations.UnpackStepAcrossWords := by
  rintro s i ⟨sel, n⟩ hp rfl hform hi hb hcur hend
  obtain ⟨hl, -, -⟩ := countedForm_classify hform
  obtain ⟨hval, hlt⟩ := valueAcross_spec s.vbu.word (fetchWordAt s.mem s.vbu.cur s.vbu.endAddr).1 (Nat.le_of_lt hb)
    (bpvLegal_bounds hl).2
  refine ⟨_, _, _, (exec_unpack hp rfl hform).trans (unpackStep_across hi hb hcur hend), rfl, hval, hlt, ?_⟩
  exact congrArg s.setVbu (finishValue_eq _ hp)

end Sys2Proof.Proofs
end

section
/-! PROOF. The rows of RLD's runs (41_rld.md R77, R78, R84): the start of a record, one byte, and a whole run by
induction on the bytes left. -/

namespace Sys2Proof.Proofs.RldRows

open Sys2Proof.Machine Sys2Proof.Laws BufferReads RunLoop

variable {s : State} {cnt : Half}

/-! ### What is due -/

theorem rldDue_loopEnds (hp : s.rld.phase = .head) (hb : s.rld.budget < 3) :
    rldDue s = .go (s.setRld { s.rld with phase := .endRec }) := by
  rcases rldDue_head hp with ⟨-, e⟩ | ⟨hb', -⟩ | ⟨hb', -⟩
  · exact e
  all_goals exact absurd hb (Int.not_lt.mpr hb')

theorem rldDue_countMissing (hp : s.rld.phase = .head) (hb : 3 ≤ s.rld.budget) (hc : s.mem.len < s.rld.cur + 2) :
    rldDue s = .go (s.rldRaise .truncatedBuffer s.rld.cur) := by
  rcases rldDue_head hp with ⟨hb', -⟩ | ⟨-, -, e⟩ | ⟨-, hc', -⟩
  · exact absurd hb' (Int.not_lt.mpr hb)
  · exact e
  · exact absurd hc (Nat.not_lt.mpr hc')

theorem rldDue_record (hp : s.rld.phase = .head) (hb : 3 ≤ s.rld.budget) (hc : s.rld.cur + 2 ≤ s.mem.len) :
    rldDue s = .run (decodeRecord (fieldAt s.mem s.rld.cur)) s := by
  rcases rldDue_head hp with ⟨hb', -⟩ | ⟨-, hc', -⟩ | ⟨-, -, e⟩
  · exact absurd hb' (Int.not_lt.mpr hb)
  · exact absurd hc (Nat.not_le.mpr hc')
  · exact e

theorem rldDue_lit (hp : s.rld.phase = .lit) : rldDue s = .run (.rlLit s.rld.cnt) s := by rw [rldDue, hp]

theorem rldDue_rep (hp : s.rld.phase = .rep) : rldDue s = .run (.rlRep s.rld.cnt) s := by rw [rldDue, hp]

theorem rldDue_endRec (hp : s.rld.phase = .endRec) : rldDue s = .run .rlEnd s := by rw [rldDue, hp]

/-! ### The start of a record -/

theorem exec_rlLit_head (hp : s.rld.phase = .head) (hb : 3 ≤ s.rld.budget) :
    exec (.rlLit cnt) s = .next (startLiteral cnt s) := by
  simp only [exec, execRlLit, hp]
  exact if_neg (Int.not_lt.mpr hb)

theorem exec_rlRep_head (hp : s.rld.phase = .head) (hb : 3 ≤ s.rld.budget) :
    exec (.rlRep cnt) s = .next (startRepeat cnt s) := by
  simp only [exec, execRlRep, hp]
  exact if_neg (Int.not_lt.mpr hb)

theorem startLiteral_missing (h : s.mem.len < s.rld.cur + 2 + literalLen cnt) :
    startLiteral cnt s = s.rldRaise .truncatedBuffer (s.rld.cur + 2) := if_pos h

theorem startLiteral_inside (h : s.rld.cur + 2 + literalLen cnt ≤ s.mem.len) :
    startLiteral cnt s = s.setRld { s.rld with
      cnt := cnt, cur := s.rld.cur + 2, left := literalLen cnt, budget := s.rld.budget - literalCost cnt
      phase := if literalLen cnt = 0 then .head else .lit } := if_neg (Nat.not_lt.mpr h)

theorem byte?_inside {m : Memory} {a : Nat} (h : a < m.len) : m.byte? a = some (cellAt m.cells a) := if_pos h

theorem byte?_missing {m : Memory} {a : Nat} (h : m.len ≤ a) : m.byte? a = none := if_neg (Nat.not_lt.mpr h)

theorem startRepeat_missing (h : s.mem.len ≤ s.rld.cur + 2) :
    startRepeat cnt s = s.rldRaise .truncatedBuffer (s.rld.cur + 2) := by
  simp only [startRepeat, byte?_missing h]

theorem startRepeat_inside (h : s.rld.cur + 2 < s.mem.len) :
    startRepeat cnt s = s.setRld { s.rld with
      cnt := cnt, cur := s.rld.cur + 3, rbyte := cellAt s.mem.cells (s.rld.cur + 2), left := repeatLen cnt
      budget := s.rld.budget - repeatCost, phase := .rep } := by
  simp only [startRepeat, byte?_inside h]

/-- A count that is not negative is the same number with and without a sign. -/
theorem toInt_of_nonneg (h : 0 ≤ cnt.toInt) : cnt.toInt = cnt.toNat := by
  have hlt := cnt.isLt
  have := BitVec.toInt_eq_toNat_cond cnt
  split at this <;> omega

theorem literalLen_eq_zero_iff : literalLen cnt = 0 ↔ cnt = 0 := by
  rw [literalLen, BitVec.toNat_eq, BitVec.ofNat_eq_ofNat, BitVec.toNat_zero]

/-! ### One byte of a run -/

theorem literalByte_inside (hl : 1 ≤ s.rld.left) (hc : s.rld.cur < s.mem.len) :
    literalByte s = .next (s.setRld { s.rld with
      out := s.rld.out ++ [cellAt s.mem.cells s.rld.cur], cur := s.rld.cur + 1, left := s.rld.left - 1
      phase := runPhase .lit s.rld.left }) := by
  simp only [literalByte, if_neg (Nat.ne_of_gt hl), byte?_inside hc]
  rfl

theorem repeatByte_left (hl : 1 ≤ s.rld.left) :
    repeatByte s = .next (s.setRld { s.rld with
      out := s.rld.out ++ [s.rld.rbyte], left := s.rld.left - 1, phase := runPhase .rep s.rld.left }) := by
  rw [repeatByte, if_neg (Nat.ne_of_gt hl)]
  rfl

theorem exec_rlLit_lit (hp : s.rld.phase = .lit) : exec (.rlLit s.rld.cnt) s = literalByte s := by
  simp only [exec, execRlLit, hp, if_true]

theorem exec_rlRep_rep (hp : s.rld.phase = .rep) : exec (.rlRep s.rld.cnt) s = repeatByte s := by
  simp only [exec, execRlRep, hp, if_true]

theorem step_lit (hh : s.host = []) (hv : s.vbu.phase.busy = false) (hp : s.rld.phase = .lit) :
    step s = literalByte s := by
  rw [step_rld hh hv (by rw [hp]; rfl), rldDue_lit hp]
  exact exec_rlLit_lit hp

theorem step_rep (hh : s.host = []) (hv : s.vbu.phase.busy = false) (hp : s.rld.phase = .rep) :
    step s = repeatByte s := by
  rw [step_rld hh hv (by rw [hp]; rfl), rldDue_rep hp]
  exact exec_rlRep_rep hp

/-! ### The end record -/

theorem checkSentinel_missing (h : s.mem.len < s.rld.cur + 2) :
    checkSentinel s = s.rldRaise .truncatedBuffer s.rld.cur := by
  simp only [checkSentinel, read_eq_none h]

theorem checkSentinel_right (h : s.rld.cur + 2 ≤ s.mem.len)
    (heos : BitVec.ofNat 16 (s.mem.leValue s.rld.cur 2) = s.params.rleEos) :
    checkSentinel s = s.setRld { s.rld with endcur := s.rld.cur + 2, phase := .done } := by
  simp only [checkSentinel, read_eq_leValue h, if_pos heos]

theorem checkSentinel_wrong (h : s.rld.cur + 2 ≤ s.mem.len)
    (hne : BitVec.ofNat 16 (s.mem.leValue s.rld.cur 2) ≠ s.params.rleEos) :
    checkSentinel s = s.rldRaise .corruptStream s.rld.cur := by
  simp only [checkSentinel, read_eq_leValue h, if_neg hne]

theorem exec_rlEnd_endRec (hp : s.rld.phase = .endRec) : exec .rlEnd s = .next (checkSentinel s) := by
  simp only [exec, execRlEnd, hp]

/-! ### A whole run -/

theorem runPhase_one (p : RldPhase) : runPhase p 1 = .head := if_pos rfl

theorem runPhase_more (p : RldPhase) (k : Nat) : runPhase p (k + 2) = p := if_neg (by omega)

/-- The `n` bytes of a buffer from an address on, as the run of R77 copies them. -/
def bytesFrom (m : Memory) (a n : Nat) : List Byte := (List.range n).map fun k => cellAt m.cells (a + k)

theorem bytesFrom_succ (m : Memory) (a n : Nat) :
    bytesFrom m a (n + 1) = cellAt m.cells a :: bytesFrom m (a + 1) n := by
  rw [bytesFrom, List.range_succ_eq_map, List.map_cons, List.map_map]
  refine congrArg (_ :: ·) (List.map_congr_left fun k _ => ?_)
  rw [Function.comp_apply, Nat.succ_eq_one_add, Nat.add_assoc]

theorem literal_run : ∀ (k : Nat) {s : State}, s.host = [] → s.vbu.phase.busy = false → s.rld.phase = .lit →
    s.rld.left = k + 1 → s.rld.cur + (k + 1) ≤ s.mem.len →
    runSteps (k + 1) s = .next (s.setRld { s.rld with
      out := s.rld.out ++ bytesFrom s.mem s.rld.cur (k + 1), cur := s.rld.cur + (k + 1), left := 0, phase := .head })
  | 0, s, hh, hv, hp, hl, hc => by
    rw [runSteps_next ((step_lit hh hv hp).trans (literalByte_inside (by omega) (by omega))), runSteps_zero, hl,
      runPhase_one]
    rfl
  | k + 1, s, hh, hv, hp, hl, hc => by
    rw [runSteps_next ((step_lit hh hv hp).trans (literalByte_inside (by omega) (by omega))), hl, runPhase_more,
      literal_run k]
    · simp only [setRld_rld, setRld_mem, bytesFrom_succ _ s.rld.cur, List.append_assoc, List.singleton_append,
        Nat.add_assoc, Nat.add_comm 1]
      rfl
    · exact hh
    · exact hv
    · rfl
    · rfl
    · simp only [setRld_rld, setRld_mem]
      omega

theorem repeat_run : ∀ (k : Nat) {s : State}, s.host = [] → s.vbu.phase.busy = false → s.rld.phase = .rep →
    s.rld.left = k + 1 →
    runSteps (k + 1) s = .next (s.setRld { s.rld with
      out := s.rld.out ++ List.replicate (k + 1) s.rld.rbyte, left := 0, phase := .head })
  | 0, s, hh, hv, hp, hl => by
    rw [runSteps_next ((step_rep hh hv hp).trans (repeatByte_left (by omega))), runSteps_zero, hl, runPhase_one]
    rfl
  | k + 1, s, hh, hv, hp, hl => by
    rw [runSteps_next ((step_rep hh hv hp).trans (repeatByte_left (by omega))), hl, runPhase_more,
      repeat_run k]
    · simp only [setRld_rld, List.replicate_succ (n := k + 1), List.append_assoc, List.singleton_append]
      rfl
    · exact hh
    · exact hv
    · rfl
    · rfl

end Sys2Proof.Proofs.RldRows

namespace Sys2Proof.Proofs

open Sys2Proof.Machine Sys2Proof.Laws RldRows

/-- Settles O26: the test of the whole run comes before every write of the row. -/
theorem literalRecordStarts : Obligations.LiteralRecordStarts := by
  intro s cnt hp hb hcnt
  rw [exec_rlLit_head hp hb]
  refine ⟨fun hmissing => congrArg _ (startLiteral_missing hmissing), fun hinside => ?_⟩
  rw [startLiteral_inside hinside, literalCost, toInt_of_nonneg hcnt]
  simp only [literalLen_eq_zero_iff]
  rfl

/-- Settles O27: the row of LIT with the byte in the buffer. -/
theorem literalByteIsCopied : Obligations.LiteralByteIsCopied :=
  fun _ hp hl hc => ⟨_, _, (exec_rlLit_lit hp).trans (literalByte_inside hl hc), byte?_inside hc, rfl⟩

/-- Settles O28, by induction on the bytes left. -/
theorem literalRunCopiesTheBytes : Obligations.LiteralRunCopiesTheBytes := by
  intro s hh hv hp hl hc
  obtain ⟨k, hk⟩ := Nat.exists_eq_add_of_le' hl
  rw [hk] at hc ⊢
  exact literal_run k hh hv hp hk hc

/-- Settles O29: the row's one test is of the byte after the count; `-cnt` is positive, so `left` is exactly it. -/
theorem repeatRecordStarts : Obligations.RepeatRecordStarts := by
  intro s cnt hp hb hcnt
  rw [exec_rlRep_head hp hb]
  refine ⟨fun hmissing => congrArg _ (startRepeat_missing (by omega)), fun hinside => ?_⟩
  refine ⟨_, _, congrArg _ (startRepeat_inside hinside), byte?_inside hinside, rfl, ?_⟩
  rw [setRld_rld, repeatLen, Int.toNat_of_nonneg (by omega)]

/-- Settles O30, by induction on the bytes left. -/
theorem repeatRunEmitsTheByte : Obligations.RepeatRunEmitsTheByte := by
  intro s hh hv hp hl
  obtain ⟨k, hk⟩ := Nat.exists_eq_add_of_le' hl
  rw [hk]
  exact repeat_run k hh hv hp hk

end Sys2Proof.Proofs
end

section
/-! PROOF. The host's side: what each entry of its list makes of a step (20_memory.md R41, 42_commands.md R85 to R92,
70_reset_and_hazards.md R107, R108), what the two commands answer, and what the host reads back (10_state.md R20, R21).
-/

namespace Sys2Proof.Proofs.HostActions

open Sys2Proof.Machine Sys2Proof.Laws BlockEnds BufferReads VbuRows RldRows

variable {s : State} {rest : List HostEvent}

/-! ### A step, by the entry at the head of the host's list -/

theorem step_no_event (hh : s.host = []) : step s = answer (unitsDue s) := by
  rw [step_answer, State.due, hh]

theorem step_idle (hh : s.host = .idle :: rest) : step s = answer (unitsDue (s.setHost rest)) := by
  rw [step_answer, State.due, hh]

theorem step_await_quiet (hh : s.host = .await :: rest) (hb : s.busy = false) : step s = .next (s.setHost rest) := by
  rw [step_answer, State.due, hh]
  simp only [hb, Bool.false_eq_true, if_false, answer]

theorem step_await_busy (hh : s.host = .await :: rest) (hb : s.busy = true) : step s = answer (unitsDue s) := by
  rw [step_answer, State.due, hh]
  simp only [hb, if_true]

theorem step_vbuRead {offset : Nat} (hh : s.host = .vbuRead offset :: rest) :
    step s = exec (.vbuRead offset) (s.setHost rest) := by
  rw [step_answer, State.due, hh, answer]

theorem step_rldDecode {offset : Nat} {n : BitVec 32} (hh : s.host = .rldDecode offset n :: rest) :
    step s = exec (.rldDecode offset n) (s.setHost rest) := by
  rw [step_answer, State.due, hh, answer]

theorem step_load {bytes : List Byte} (hh : s.host = .load bytes :: rest) :
    step s = answer (loadDue bytes (s.setHost rest)) := by
  rw [step_answer, State.due, hh]

theorem loadDue_busy (bytes : List Byte) (hb : s.busy = true) : loadDue bytes s = .stop .bufferChangedWhileBusy :=
  if_pos hb

theorem loadDue_long {bytes : List Byte} (hb : s.busy = false) (hl : 2 ^ s.params.addrW < bytes.length) :
    loadDue bytes s = .stop .bufferTooLong := by
  simp only [loadDue, hb, Bool.false_eq_true, if_false, if_pos hl]

theorem loadDue_accepted {bytes : List Byte} (hb : s.busy = false) (hl : bytes.length ≤ 2 ^ s.params.addrW) :
    loadDue bytes s = .go (s.setMem (Memory.ofBytes bytes)) := by
  simp only [loadDue, hb, Bool.false_eq_true, if_false, if_neg (Nat.not_lt.mpr hl)]

theorem step_reset (hh : s.host = .reset :: rest) : step s = .next (s.setHost rest).resetUnits := by
  rw [step_answer, State.due, hh, answer]

/-! ### No unit busy -/

theorem busy_eq_false_iff : s.busy = false ↔ s.vbu.phase.busy = false ∧ s.rld.phase.busy = false := by
  rw [State.busy, Bool.or_eq_false_iff]

theorem unitsDue_quiet (hb : s.busy = false) : unitsDue s = .go s := by
  obtain ⟨hv, hr⟩ := busy_eq_false_iff.mp hb
  simp only [unitsDue, hv, hr, Bool.false_eq_true, if_false]

theorem step_quiet (hh : s.host = []) (hb : s.busy = false) : step s = .next s := by
  rw [step_no_event hh, unitsDue_quiet hb, answer]

/-! ### The two commands -/

theorem exec_vbuRead_accepted {offset : Nat} (hb : s.busy = false) (ho : offset < 2 ^ s.params.addrW) :
    exec (.vbuRead offset) s = .next (s.startVbu offset) := by
  simp only [exec, execVbuRead, State.commandRefusal, hb, Bool.false_eq_true, if_false, if_neg (Nat.not_le.mpr ho)]

theorem exec_rldDecode_accepted {offset : Nat} (n : BitVec 32) (hb : s.busy = false)
    (ho : offset < 2 ^ s.params.addrW) : exec (.rldDecode offset n) s = .next (s.startRld offset n) := by
  simp only [exec, execRldDecode, State.commandRefusal, hb, Bool.false_eq_true, if_false, if_neg (Nat.not_le.mpr ho)]

/-- Both commands give the reason their common check names. -/
theorem exec_commands_refused {offset : Nat} {r : Refusal} (n : BitVec 32) (hr : s.commandRefusal offset = some r) :
    exec (.vbuRead offset) s = .refused r ∧ exec (.rldDecode offset n) s = .refused r := by
  simp only [exec, execVbuRead, execRldDecode, hr, and_self]

/-! ### The units do not see the host's list

What an element answers in one state it answers in the same state with another list, by the inversion of its meaning and
the equation of the row it took. -/

variable {t : State} (host : List HostEvent)

theorem loadCount_setHost {n : Nat} (h : loadCount n s = .next t) :
    loadCount n (s.setHost host) = .next (t.setHost host) := by
  rcases loadCount_next h with ⟨hlen, rfl⟩ | ⟨c, e, hlen, rfl, rfl, ⟨he, rfl⟩ | ⟨he, h0, rfl⟩ | ⟨he, hc, hlt, rfl⟩⟩
  · exact loadCount_countMissing hlen
  · exact loadCount_payloadMissing (read_eq_leValue hlen) he
  · rw [h0, payloadLen_zero]
    exact loadCount_zero ((read_eq_leValue hlen).trans (congrArg some h0))
  · exact loadCount_first (read_eq_leValue hlen) hc rfl hlt he

theorem unpackStep_setHost (h : unpackStep s = .next t) : unpackStep (s.setHost host) = .next (t.setHost host) := by
  rcases unpackStep_next h with ⟨hi, ⟨hb, rfl⟩ | ⟨hb, hcur, hend, rfl⟩⟩
  · exact unpackStep_within hi hb
  · exact unpackStep_across hi hb hcur hend

theorem runCounted_setHost {sel : BitVec 2} {n : Nat} {bpv : BitVec 6} (h : runCounted sel n bpv s = .next t) :
    runCounted sel n bpv (s.setHost host) = .next (t.setHost host) := by
  rcases runCounted_next h with ⟨hp, rfl⟩ | ⟨hp, hs, hb, hcount⟩ | ⟨hp, hs, hb, hunpack⟩
  · exact runCounted_hdr sel n bpv hp
  · simp only [runCounted, setHost_vbu, hp, hs, hb, and_self, if_true]
    exact loadCount_setHost host hcount
  · simp only [runCounted, setHost_vbu, hp, hs, hb, and_self, if_true]
    exact unpackStep_setHost host hunpack

theorem startLiteral_setHost (cnt : Half) : startLiteral cnt (s.setHost host) = (startLiteral cnt s).setHost host := by
  rcases startLiteral_cases cnt s with ⟨hlen, e⟩ | ⟨hlen, e⟩ <;> rw [e]
  · exact startLiteral_missing hlen
  · exact startLiteral_inside hlen

theorem startRepeat_setHost (cnt : Half) : startRepeat cnt (s.setHost host) = (startRepeat cnt s).setHost host := by
  rcases startRepeat_cases cnt s with ⟨hlen, e⟩ | ⟨hlen, e⟩ <;> rw [e]
  · exact startRepeat_missing hlen
  · exact startRepeat_inside hlen

theorem execRlLit_setHost {cnt : Half} (h : execRlLit cnt s = .next t) :
    execRlLit cnt (s.setHost host) = .next (t.setHost host) := by
  rcases execRlLit_next h with ⟨hp, hb, rfl⟩ | ⟨hp, rfl, hbyte⟩
  · rw [← startLiteral_setHost]
    exact exec_rlLit_head hp hb
  · obtain ⟨hl, hc, rfl⟩ := literalByte_next hbyte
    exact (exec_rlLit_lit (s := s.setHost host) hp).trans (literalByte_inside hl hc)

theorem execRlRep_setHost {cnt : Half} (h : execRlRep cnt s = .next t) :
    execRlRep cnt (s.setHost host) = .next (t.setHost host) := by
  rcases execRlRep_next h with ⟨hp, hb, rfl⟩ | ⟨hp, rfl, hbyte⟩
  · rw [← startRepeat_setHost]
    exact exec_rlRep_head hp hb
  · obtain ⟨hl, rfl⟩ := repeatByte_next hbyte
    exact (exec_rlRep_rep (s := s.setHost host) hp).trans (repeatByte_left hl)

theorem checkSentinel_setHost : checkSentinel (s.setHost host) = (checkSentinel s).setHost host := by
  rcases checkSentinel_cases s with ⟨hlen, e⟩ | ⟨hlen, heos, e⟩ | ⟨hlen, hne, e⟩ <;> rw [e]
  · exact checkSentinel_missing hlen
  · exact checkSentinel_right hlen heos
  · exact checkSentinel_wrong hlen hne

theorem execRlEnd_setHost (h : execRlEnd s = .next t) : execRlEnd (s.setHost host) = .next (t.setHost host) := by
  obtain ⟨hp, rfl⟩ := execRlEnd_next h
  rw [← checkSentinel_setHost]
  exact exec_rlEnd_endRec hp

/-- Every instruction answers the same next state, with the other list. -/
theorem exec_setHost {i : Instr} (h : exec i s = .next t) :
    exec i (s.setHost host) = .next (t.setHost host) := by
  cases i with
  | vbNone sel =>
    obtain ⟨hp, rfl⟩ := execVbNone_next h
    exact exec_vbNone_hdr sel hp
  | vbRsv sel bpv =>
    obtain ⟨hp, rfl⟩ := execVbRsv_next h
    exact exec_vbRsv_hdr sel bpv hp
  | vbC32 | vbC16 | vbC8 => exact runCounted_setHost host h
  | rlLit => exact execRlLit_setHost host h
  | rlRep => exact execRlRep_setHost host h
  | rlEnd => exact execRlEnd_setHost host h
  | vbuRead offset =>
    obtain ⟨hb, ho, rfl⟩ := execVbuRead_next h
    exact exec_vbuRead_accepted hb ho
  | rldDecode offset n =>
    obtain ⟨hb, ho, rfl⟩ := execRldDecode_next h
    exact exec_rldDecode_accepted n hb ho

/-- What is due in one state is due in the same state with another list. -/
def dueWithHost (host : List HostEvent) : Due → Due
  | .run i t => .run i (t.setHost host)
  | .go t => .go (t.setHost host)
  | .stop r => .stop r

theorem vbuDue_setHost (hb : s.vbu.phase.busy = true) : vbuDue (s.setHost host) = dueWithHost host (vbuDue s) := by
  cases hp : s.vbu.phase with
  | hdr =>
    rcases vbuDue_hdr hp with ⟨hlen, e⟩ | ⟨hlen, e⟩ <;> rw [e]
    · exact vbuDue_headerMissing hp hlen
    · exact vbuDue_header hp hlen
  | cnt =>
    rw [vbuDue_later (.inl hp)]
    exact vbuDue_later (s := s.setHost host) (.inl hp)
  | unpack =>
    rw [vbuDue_later (.inr hp)]
    exact vbuDue_later (s := s.setHost host) (.inr hp)
  | idle | done | fault => simp [hp, VbuPhase.busy] at hb

theorem rldDue_setHost (hb : s.rld.phase.busy = true) : rldDue (s.setHost host) = dueWithHost host (rldDue s) := by
  cases hp : s.rld.phase with
  | head =>
    rcases rldDue_head hp with ⟨hends, e⟩ | ⟨hgoes, hlen, e⟩ | ⟨hgoes, hlen, e⟩ <;> rw [e]
    · exact rldDue_loopEnds hp hends
    · exact rldDue_countMissing hp hgoes hlen
    · exact rldDue_record hp hgoes hlen
  | lit =>
    rw [rldDue_lit hp]
    exact rldDue_lit hp
  | rep =>
    rw [rldDue_rep hp]
    exact rldDue_rep hp
  | endRec =>
    rw [rldDue_endRec hp]
    exact rldDue_endRec hp
  | idle | done | fault => simp [hp, RldPhase.busy] at hb

theorem unitsDue_setHost : unitsDue (s.setHost host) = dueWithHost host (unitsDue s) := by
  cases hv : s.vbu.phase.busy <;> cases hr : s.rld.phase.busy <;>
    simp only [unitsDue, setHost_vbu, setHost_rld, hv, hr, if_true, if_false, Bool.false_eq_true]
  · rfl
  · exact rldDue_setHost host hr
  · exact vbuDue_setHost host hv
  · rfl

theorem answer_dueWithHost : ∀ {d : Due}, answer d = .next t → answer (dueWithHost host d) = .next (t.setHost host)
  | .run _ _, h => exec_setHost host h
  | .go _, h => by
    cases h
    rfl

/-! ### The host's view -/

/-- After the loop every field that decodes is the end record. -/
theorem decode_afterLoop_ok {p : Params} : ∀ {bytes rest : List Byte} {i : Instr},
    decode p .afterLoop bytes = .ok i rest → i = .rlEnd
  | lo :: hi :: tail, _, _, h => by
    rw [OpcodeMap.decode_afterLoop] at h
    split at h
    · cases h
      rfl
    · cases h

theorem bitOf_lt (b : Bool) : bitOf b < 2 := by cases b <;> decide

theorem vbuPhase_st_lt (p : VbuPhase) : p.st < 4 := by cases p <;> decide

end Sys2Proof.Proofs.HostActions

namespace Sys2Proof.Proofs

open Sys2Proof.Machine Sys2Proof.Laws HostActions

/-- Settles O9: the reset state's registers, read off. -/
theorem resetLeavesBothUnitsIdle : Obligations.ResetLeavesBothUnitsIdle :=
  ⟨rfl, rfl, rfl, rfl, rfl, rfl, rfl, rfl, rfl⟩

/-- Settles O10: a reset entry makes the step the reset of both units, and an idle unit has no outcome. -/
theorem hostResetAbandonsTheCommand : Obligations.HostResetAbandonsTheCommand :=
  fun _ _ hh => ⟨_, step_reset hh, rfl, rfl, rfl, rfl, rfl, rfl, rfl, rfl, rfl, rfl, rfl, rfl⟩

/-- Settles O11: the three branches of the host's replacement. -/
theorem hostReplacesBufferOnlyBetweenCommands : Obligations.HostReplacesBufferOnlyBetweenCommands := by
  intro s bytes rest hh
  rw [step_load hh]
  exact ⟨fun hb => congrArg answer (loadDue_busy (s := s.setHost rest) bytes hb),
    fun hb hl => congrArg answer (loadDue_accepted (s := s.setHost rest) hb hl),
    fun hb hl => congrArg answer (loadDue_long (s := s.setHost rest) hb hl)⟩

/-- Settles O12: each entry but `idle` is read off; for `idle` the units answer the same without their list. -/
theorem hostActionsLandBetweenSteps : Obligations.HostActionsLandBetweenSteps := by
  refine fun s rest => ⟨fun offset hh => step_vbuRead hh, fun offset n hh => step_rldDecode hh, fun hh t ht => ?_,
    step_await_quiet⟩
  rw [step_no_event rfl] at ht
  have h := answer_dueWithHost rest ht
  rw [← unitsDue_setHost] at h
  exact (step_idle hh).trans h

/-- Settles O13: an accepted command's start, register by register. -/
theorem vbuReadStartsTheUnit : Obligations.VbuReadStartsTheUnit :=
  fun _ _ hb ho => ⟨_, exec_vbuRead_accepted hb ho, rfl, rfl, rfl, rfl, rfl, rfl, rfl, rfl, rfl⟩

/-- Settles O14: an accepted command's start, register by register. -/
theorem rldDecodeStartsTheUnit : Obligations.RldDecodeStartsTheUnit :=
  fun _ _ n hb ho => ⟨_, exec_rldDecode_accepted n hb ho, rfl, rfl, rfl, rfl, rfl, rfl, rfl, rfl, rfl⟩

/-- Settles O15: the check both commands make. -/
theorem commandsAreRefusedWhenNotAllowed : Obligations.CommandsAreRefusedWhenNotAllowed := by
  refine fun s offset n => ⟨fun hb => exec_commands_refused n ?_, fun hb ho => exec_commands_refused n ?_⟩
  · rw [State.commandRefusal, if_pos hb]
  · rw [State.commandRefusal, hb, if_neg Bool.false_ne_true, if_pos ho]

/-- Settles O42: with no unit busy the units are due to leave the state. -/
theorem nothingChangesWithoutACommand : Obligations.NothingChangesWithoutACommand := fun _ => step_quiet

/-- Settles O43: what each busy phase makes due, run; after the loop every field that decodes decodes to `RL.END`. -/
theorem stepRunsTheDecodedElement : Obligations.StepRunsTheDecodedElement := by
  refine fun s hh => ⟨fun hr => ⟨fun hp i rest hd => ?_, fun hp => ?_⟩,
    fun hv => ⟨fun hp hb i rest hd => ?_, fun hp i rest hd => ?_, fun hp => ?_, fun hp => ?_⟩⟩
  · rw [step_vbu hh hr (by rw [hp]; rfl), vbuDue, hp]
    simp only [hd, answer]
  · rw [step_vbu hh hr (by rcases hp with hp | hp <;> rw [hp] <;> rfl), vbuDue_later hp, answer]
  · rw [step_rld hh hv (by rw [hp]; rfl), rldDue, hp]
    simp only [Config.rleMinBudget, if_neg (Int.not_lt.mpr hb), hd, answer]
  · rw [step_rld hh hv (by rw [hp]; rfl), RldRows.rldDue_endRec hp, answer, decode_afterLoop_ok hd]
  · rw [step_rld hh hv (by rw [hp]; rfl), RldRows.rldDue_lit hp, answer]
  · rw [step_rld hh hv (by rw [hp]; rfl), RldRows.rldDue_rep hp, answer]

/-- Settles O44: each register's validity test by the phase, and the status register's fields as digits of its number.
-/
theorem hostReadsTheValidRegisters : Obligations.HostReadsTheValidRegisters := by
  intro s n
  have hst := vbuPhase_st_lt s.vbu.phase
  have hbit := bitOf_lt s.vbu.absent
  refine ⟨fun hp => ?_, fun hp => ?_, fun hp => ?_, fun hp => ?_, rfl, rfl, ?_, ?_, ?_⟩
  · refine ⟨?_, ?_, ?_, fun ha => ?_, ?_⟩
    · rw [State.readReg, if_pos hp]
    · rw [State.readReg, if_pos hp]
    · rw [State.readReg, if_pos hp]
    · rw [State.readReg, if_pos ⟨hp, ha⟩]
    · rw [State.vbuValid, hp]
      rfl
  · refine ⟨?_, ?_⟩
    · rw [State.readReg, if_pos hp]
    · rw [State.vbuValid, hp]
      rfl
  · refine ⟨?_, ?_, ?_, ?_⟩
    · rw [State.readReg, if_pos hp]
    · rw [State.readReg, if_pos hp]
    · rw [State.readReg, if_pos hp]
    · rw [State.rldValid, hp]
      rfl
  · refine ⟨?_, ?_⟩
    · rw [State.readReg, if_pos hp]
    · rw [State.rldValid, hp]
      rfl
  all_goals
    rw [State.vbuStatus]
    omega

end Sys2Proof.Proofs
end

section
/-! PROOF. What any step of a busy unit does to its cursor, its output and its account, and what brings a unit into
FAULT or out of it (10_state.md R13, R16, R17; 41_rld.md R81; 60_exceptions.md R94, R96, R102). Each claim is a case
analysis over the rows of the unit's table. -/

namespace Sys2Proof.Proofs.StepFrames

open Sys2Proof.Machine Sys2Proof.Laws BlockEnds BufferReads FaultEntry HostActions

variable {s t : State}

/-! ### Which rows a step can have taken -/

theorem busy_of_vbu (hb : s.vbu.phase.busy = true) : ¬ s.busy = false := fun h => by
  rw [(busy_eq_false_iff.mp h).1] at hb
  cases hb

theorem busy_of_rld (hb : s.rld.phase.busy = true) : ¬ s.busy = false := fun h => by
  rw [(busy_eq_false_iff.mp h).2] at hb
  cases hb

/-- Without a reset, a busy VBU took a row of its table. -/
theorem step_vbuRow_or_reset (h : step s = .next t) (hb : s.vbu.phase.busy = true) :
    (∃ host, VbuRow (s.setHost host) t) ∨ ∃ rest, s.host = .reset :: rest ∧ t = (s.setHost rest).resetUnits := by
  cases step_rows h with
  | vbu host _ _ _ hrow => exact .inl ⟨host, hrow⟩
  | rld _ _ _ hv => exact absurd (hv ▸ hb) Bool.false_ne_true
  | quiet _ hq => exact absurd hq (busy_of_vbu hb)
  | read _ _ _ hq => exact absurd hq (busy_of_vbu hb)
  | decode _ _ _ _ hq => exact absurd hq (busy_of_vbu hb)
  | load _ _ _ hq => exact absurd hq (busy_of_vbu hb)
  | reset rest hh => exact .inr ⟨rest, hh, rfl⟩

/-- Without a reset, a busy RLD took a row of its table. -/
theorem step_rldRow_or_reset (h : step s = .next t) (hb : s.rld.phase.busy = true) :
    (∃ host, RldRow (s.setHost host) t) ∨ ∃ rest, s.host = .reset :: rest ∧ t = (s.setHost rest).resetUnits := by
  cases step_rows h with
  | vbu _ _ _ hr => exact absurd (hr ▸ hb) Bool.false_ne_true
  | rld host _ _ _ hrow => exact .inl ⟨host, hrow⟩
  | quiet _ hq => exact absurd hq (busy_of_rld hb)
  | read _ _ _ hq => exact absurd hq (busy_of_rld hb)
  | decode _ _ _ _ hq => exact absurd hq (busy_of_rld hb)
  | load _ _ _ hq => exact absurd hq (busy_of_rld hb)
  | reset rest hh => exact .inr ⟨rest, hh, rfl⟩

/-- A unit that is not busy is changed by a command to it or by a reset only. -/
theorem step_vbu_of_not_busy (h : step s = .next t) (hb : s.vbu.phase.busy = false) :
    t.vbu = s.vbu ∨ (∃ offset rest, s.host = .vbuRead offset :: rest ∧ t = (s.setHost rest).startVbu offset)
      ∨ ∃ rest, s.host = .reset :: rest ∧ t = (s.setHost rest).resetUnits := by
  cases step_rows h with
  | vbu _ _ hv => exact absurd (hb ▸ hv) Bool.false_ne_true
  | rld _ _ _ _ hrow =>
    obtain ⟨r, n, rfl⟩ := BufferFrame.rldRow_rldOnly hrow
    exact .inl rfl
  | quiet | decode | load => exact .inl rfl
  | read offset rest hh => exact .inr (.inl ⟨offset, rest, hh, rfl⟩)
  | reset rest hh => exact .inr (.inr ⟨rest, hh, rfl⟩)

theorem step_rld_of_not_busy (h : step s = .next t) (hb : s.rld.phase.busy = false) :
    t.rld = s.rld ∨ (∃ offset n rest, s.host = .rldDecode offset n :: rest ∧ t = (s.setHost rest).startRld offset n)
      ∨ ∃ rest, s.host = .reset :: rest ∧ t = (s.setHost rest).resetUnits := by
  cases step_rows h with
  | vbu _ _ _ _ hrow =>
    obtain ⟨v, n, rfl⟩ := BufferFrame.vbuRow_vbuOnly hrow
    exact .inl rfl
  | rld _ _ hr => exact absurd (hb ▸ hr) Bool.false_ne_true
  | quiet | read | load => exact .inl rfl
  | decode offset n rest hh => exact .inr (.inl ⟨offset, n, rest, hh, rfl⟩)
  | reset rest hh => exact .inr (.inr ⟨rest, hh, rfl⟩)

/-- A step that brings VBU into FAULT took a row of its table. -/
theorem step_vbuRow_of_fault (h : step s = .next t) (hs : s.vbu.phase ≠ .fault) (ht : t.vbu.phase = .fault) :
    ∃ host, VbuRow (s.setHost host) t := by
  cases hb : s.vbu.phase.busy with
  | true =>
    rcases step_vbuRow_or_reset h hb with hrow | ⟨rest, -, rfl⟩
    · exact hrow
    · cases ht
  | false =>
    rcases step_vbu_of_not_busy h hb with e | ⟨offset, rest, -, rfl⟩ | ⟨rest, -, rfl⟩
    · exact absurd (e ▸ ht) hs
    · cases ht
    · cases ht

theorem step_rldRow_of_fault (h : step s = .next t) (hs : s.rld.phase ≠ .fault) (ht : t.rld.phase = .fault) :
    ∃ host, RldRow (s.setHost host) t := by
  cases hb : s.rld.phase.busy with
  | true =>
    rcases step_rldRow_or_reset h hb with hrow | ⟨rest, -, rfl⟩
    · exact hrow
    · cases ht
  | false =>
    rcases step_rld_of_not_busy h hb with e | ⟨offset, n, rest, -, rfl⟩ | ⟨rest, -, rfl⟩
    · exact absurd (e ▸ ht) hs
    · cases ht
    · cases ht

/-! ### The cursors -/

theorem le_fetchWordAt_cursor (m : Memory) {cur e : Nat} (h : cur < e) : cur ≤ (fetchWordAt m cur e).2 := by
  rw [fetchWordAt_cursor]
  split <;> omega

theorem finishValue_cur (v : VbuRegs) (x : Word) : (v.finishValue x).cur = v.cur := by
  rcases finishValue_cases v x with ⟨-, e⟩ | ⟨-, e⟩ <;> rw [e]

theorem finishValue_out (v : VbuRegs) (x : Word) : (v.finishValue x).out = v.out ++ [x] := by
  rcases finishValue_cases v x with ⟨-, e⟩ | ⟨-, e⟩ <;> rw [e]

theorem vbuRow_cur_le (h : VbuRow s t) : s.vbu.cur ≤ t.vbu.cur := by
  cases h with
  | headerMissing | reserved | countMissing | payloadMissing => exact Nat.le_refl _
  | absent | header => exact Nat.le_succ _
  | empty => exact Nat.le_add_right _ _
  | load n c e _ _ _ _ _ _ _ _ hbase => exact (Nat.le_add_right _ _).trans (le_fetchWordAt_cursor s.mem hbase)
  | within =>
    rw [setVbu_vbu, finishValue_cur]
  | across _ _ _ _ _ hcur =>
    rw [setVbu_vbu, finishValue_cur]
    exact le_fetchWordAt_cursor s.mem hcur

theorem rldRow_cur_le (h : RldRow s t) : s.rld.cur ≤ t.rld.cur := by
  cases h with
  | loopEnds | countMissing | repeatByte => exact Nat.le_refl _
  | literalByte => exact Nat.le_succ _
  | literal w =>
    rcases startLiteral_cases w s with ⟨-, e⟩ | ⟨-, e⟩ <;> rw [e]
    · exact Nat.le_refl _
    · exact Nat.le_add_right _ _
  | repeats w =>
    rcases startRepeat_cases w s with ⟨-, e⟩ | ⟨-, e⟩ <;> rw [e]
    · exact Nat.le_refl _
    · exact Nat.le_add_right _ _
  | sentinel => rcases checkSentinel_cases s with ⟨-, e⟩ | ⟨-, -, e⟩ | ⟨-, -, e⟩ <;> rw [e] <;> exact Nat.le_refl _

/-! ### The outputs -/

theorem vbuRow_out (h : VbuRow s t) (ht : t.vbu.phase ≠ .fault) :
    t.vbu.out = s.vbu.out ∨ ∃ x, t.vbu.out = s.vbu.out ++ [x] := by
  cases h with
  | headerMissing | reserved | countMissing | payloadMissing => exact absurd rfl ht
  | absent | header | empty | load => exact .inl rfl
  | within | across => exact .inr ⟨_, finishValue_out _ _⟩

theorem rldRow_out (h : RldRow s t) (ht : t.rld.phase ≠ .fault) :
    t.rld.out = s.rld.out ∨ ∃ b, t.rld.out = s.rld.out ++ [b] := by
  cases h with
  | loopEnds => exact .inl rfl
  | countMissing => exact absurd rfl ht
  | literal w =>
    rcases startLiteral_cases w s with ⟨-, e⟩ | ⟨-, e⟩ <;> rw [e] at ht ⊢
    · exact absurd rfl ht
    · exact .inl rfl
  | repeats w =>
    rcases startRepeat_cases w s with ⟨-, e⟩ | ⟨-, e⟩ <;> rw [e] at ht ⊢
    · exact absurd rfl ht
    · exact .inl rfl
  | literalByte | repeatByte => exact .inr ⟨_, rfl⟩
  | sentinel =>
    rcases checkSentinel_cases s with ⟨-, e⟩ | ⟨-, -, e⟩ | ⟨-, -, e⟩ <;> rw [e] at ht ⊢
    · exact absurd rfl ht
    · exact .inl rfl
    · exact absurd rfl ht

/-! ### The account of cursor and budget -/

theorem ledger_of_lit {r : RldRegs} (hp : r.phase = .lit) : r.ledger = r.cur + r.left + r.budget := by
  rw [RldRegs.ledger, if_pos hp]

theorem ledger_of_ne_lit {r : RldRegs} (hp : r.phase ≠ .lit) : r.ledger = r.cur + r.budget := by
  rw [RldRegs.ledger, if_neg hp, Nat.cast_zero, Int.add_zero]

theorem startLiteral_ledger {cnt : Half} (hp : s.rld.phase = .head) (ht : (startLiteral cnt s).rld.phase.busy = true) :
    (startLiteral cnt s).rld.ledger = s.rld.ledger := by
  rw [ledger_of_ne_lit (r := s.rld) (by simp [hp])]
  rcases startLiteral_cases cnt s with ⟨-, e⟩ | ⟨-, e⟩ <;> rw [e] at ht ⊢
  · cases ht
  · by_cases h0 : literalLen cnt = 0
    · rw [ledger_of_ne_lit (by simp [h0])]
      simp only [setRld_rld, literalCost, h0]
      omega
    · rw [ledger_of_lit (by simp [h0])]
      simp only [setRld_rld, literalCost]
      omega

theorem startRepeat_ledger {cnt : Half} (hp : s.rld.phase = .head) (ht : (startRepeat cnt s).rld.phase.busy = true) :
    (startRepeat cnt s).rld.ledger = s.rld.ledger := by
  rw [ledger_of_ne_lit (r := s.rld) (by simp [hp])]
  rcases startRepeat_cases cnt s with ⟨-, e⟩ | ⟨-, e⟩ <;> rw [e] at ht ⊢
  · cases ht
  · rw [ledger_of_ne_lit (by simp)]
    simp only [setRld_rld, repeatCost]
    omega

theorem rldRow_ledger (h : RldRow s t) (ht : t.rld.phase.busy = true) : t.rld.ledger = s.rld.ledger := by
  cases h with
  | loopEnds hp =>
    rw [ledger_of_ne_lit (r := s.rld) (by simp [hp]), ledger_of_ne_lit (by simp)]
    rfl
  | countMissing => cases ht
  | literal w hp => exact startLiteral_ledger hp ht
  | repeats w hp => exact startRepeat_ledger hp ht
  | literalByte hp hl =>
    rw [ledger_of_lit (r := s.rld) hp]
    by_cases h1 : s.rld.left = 1
    · rw [ledger_of_ne_lit (by simp [runPhase, h1])]
      simp only [setRld_rld, h1]
      omega
    · rw [ledger_of_lit (by simp [runPhase, h1])]
      simp only [setRld_rld]
      omega
  | repeatByte hp =>
    rw [ledger_of_ne_lit (r := s.rld) (by simp [hp]), ledger_of_ne_lit]
    · rfl
    · simp only [setRld_rld, runPhase]
      split <;> simp
  | sentinel hp =>
    rcases checkSentinel_cases s with ⟨-, e⟩ | ⟨-, -, e⟩ | ⟨-, -, e⟩ <;> rw [e] at ht <;> cases ht

/-! ### The causes of a fault -/

/-- The headers that are reserved: a selector without a width, or a `bpv` above 32 (60_exceptions.md R96). -/
theorem decodeHeader_vbRsv_cause {h : Byte} {sel : BitVec 2} {bpv : BitVec 6} (hd : decodeHeader h = .vbRsv sel bpv) :
    h.toNat % 64 ≠ 0 ∧ (h.toNat / 64 = 3 ∨ 32 < h.toNat % 64) := by
  rw [decodeHeader] at hd
  rcases classify_cases (headerSel h) (headerBpv h) with ⟨e, -⟩ | ⟨-, h0, hr⟩ | ⟨-, ⟨e, -⟩ | ⟨e, -⟩ | ⟨e, -⟩⟩
  · rw [e] at hd
    cases hd
  · rw [OpcodeMap.headerSel_toNat, OpcodeMap.headerBpv_toNat] at hr
    exact ⟨mt OpcodeMap.headerBpv_eq_zero_iff.mpr h0, hr⟩
  all_goals
    rw [e] at hd
    cases hd

/-- A 16-bit field that stands in the buffer, as a read of it. -/
theorem read_two_of_field {m : Memory} {a : Nat} {w : Half} (hlen : a + 2 ≤ m.len) (hw : w.toNat = m.leValue a 2) :
    m.read a 2 = some w.toNat := read_eq_some_iff.mpr ⟨hlen, hw⟩

theorem toInt_nonneg_of_msb {w : Half} (hm : w.msb = false) : 0 ≤ w.toInt := by
  rw [BitVec.msb_eq_toInt, decide_eq_false_iff_not] at hm
  exact Int.not_lt.mp hm

theorem toInt_neg_of_msb {w : Half} (hm : w.msb = true) : w.toInt < 0 := by
  rwa [BitVec.msb_eq_toInt, decide_eq_true_iff] at hm

end Sys2Proof.Proofs.StepFrames

namespace Sys2Proof.Proofs

open Sys2Proof.Machine Sys2Proof.Laws BlockEnds BufferReads FaultEntry StepFrames

/-- Settles O32: the command starts the account, and each row of RLD's table that stays busy keeps it. -/
theorem cursorAndBudgetBalance : Obligations.CursorAndBudgetBalance := by
  refine ⟨fun s t offset n h => ?_, fun s t h hs ht => ?_⟩
  · obtain ⟨-, -, rfl⟩ := execRldDecode_next h
    exact ledger_of_ne_lit (by simp)
  · rcases step_rldRow_or_reset h hs with ⟨host, hrow⟩ | ⟨rest, -, rfl⟩
    · exact (rldRow_ledger hrow ht :)
    · cases ht

/-- Settles O34: the rows of VBU's table that end in FAULT, each with its condition. -/
theorem vbuFaultsHaveTheListedCauses : Obligations.VbuFaultsHaveTheListedCauses := by
  intro s t h hs ht
  obtain ⟨host, hrow⟩ := step_vbuRow_of_fault h hs ht
  cases hrow with
  | headerMissing hp hlen => exact .inl ⟨hp, Nat.lt_succ_of_le hlen, rfl, rfl⟩
  | reserved sel bpv hp hlt hd =>
    exact .inr (.inl ⟨hp, rfl, rfl, _, RldRows.byte?_inside hlt, decodeHeader_vbRsv_cause hd⟩)
  | countMissing n hp hn hlen => exact .inr (.inr (.inl ⟨hp, rfl, rfl, n, hn, hlen⟩))
  | payloadMissing n c e hp hn hlen hc he hlt =>
    subst hc he
    exact .inr (.inr (.inr ⟨hp, rfl, n, _, hn, rfl, read_eq_leValue hlen, hlt⟩))
  | absent | header | empty | load => cases ht
  | within hp | across hp => exact absurd ht (finishValue_phase_ne_fault _ (by simp [show s.vbu.phase = _ from hp]))

/-- Settles O35: the rows of RLD's table that end in FAULT, each with its condition. -/
theorem rldFaultsHaveTheListedCauses : Obligations.RldFaultsHaveTheListedCauses := by
  intro s t h hs ht
  obtain ⟨host, hrow⟩ := step_rldRow_of_fault h hs ht
  cases hrow with
  | loopEnds => cases ht
  | countMissing hp hb hlen => exact .inl ⟨hp, hb, rfl, .inl ⟨hlen, rfl⟩⟩
  | literal w hp hb hlen hm hw =>
    rcases startLiteral_cases w (s.setHost host) with ⟨hrun, e⟩ | ⟨-, e⟩ <;> rw [e] at ht ⊢
    · exact .inl ⟨hp, hb, rfl, .inr ⟨w, read_two_of_field hlen hw, rfl, .inr ⟨toInt_nonneg_of_msb hm, hrun⟩⟩⟩
    · simp only [setRld_rld] at ht
      split at ht <;> cases ht
  | repeats w hp hb hlen hm hw =>
    rcases startRepeat_cases w (s.setHost host) with ⟨hrun, e⟩ | ⟨-, e⟩ <;> rw [e] at ht ⊢
    · exact .inl ⟨hp, hb, rfl,
        .inr ⟨w, read_two_of_field hlen hw, rfl, .inl ⟨toInt_neg_of_msb hm, Nat.lt_succ_of_le hrun⟩⟩⟩
    · cases ht
  | literalByte | repeatByte => exact absurd ht (runPhase_ne_fault _ nofun)
  | sentinel hp =>
    rcases checkSentinel_cases (s.setHost host) with ⟨hlen, e⟩ | ⟨-, -, e⟩ | ⟨hlen, hne, e⟩ <;> rw [e] at ht ⊢
    · exact .inr ⟨hp, rfl, .inl ⟨hlen, rfl⟩⟩
    · cases ht
    · refine .inr ⟨hp, rfl, .inr ⟨_, read_two_of_field hlen ?_, hne, rfl⟩⟩
      rw [BitVec.toNat_ofNat]
      exact Nat.mod_eq_of_lt (leValue_lt _ _ 2)

/-- Settles O37: a unit in FAULT is not busy, and its command and the reset are what else changes it. -/
theorem faultIsLeftOnlyByCommandOrReset : Obligations.FaultIsLeftOnlyByCommandOrReset := by
  refine fun s t h => ⟨fun hp hne => ?_, fun hp hne => ?_⟩
  · rcases step_vbu_of_not_busy h (by rw [hp]; rfl) with e | ⟨offset, rest, hh, rfl⟩ | ⟨rest, hh, rfl⟩
    · exact absurd e hne
    · exact ⟨rfl, .inl ⟨offset, rest, hh, rfl⟩⟩
    · exact ⟨rfl, .inr ⟨rest, hh, rfl⟩⟩
  · rcases step_rld_of_not_busy h (by rw [hp]; rfl) with e | ⟨offset, n, rest, hh, rfl⟩ | ⟨rest, hh, rfl⟩
    · exact absurd e hne
    · exact ⟨rfl, .inl ⟨offset, n, rest, hh, rfl⟩⟩
    · exact ⟨rfl, .inr ⟨rest, hh, rfl⟩⟩

/-- Settles O38: an instruction writes nothing but its own unit's registers. -/
theorem unitsLeaveEachOtherAlone : Obligations.UnitsLeaveEachOtherAlone := by
  refine fun i s t h => ⟨fun hi => ?_, fun hi => ?_⟩
  · obtain ⟨v, n, rfl⟩ := BufferFrame.exec_vbuOnly hi h
    rfl
  · obtain ⟨r, n, rfl⟩ := BufferFrame.exec_rldOnly hi h
    rfl

/-- Settles O39: each row that does not raise keeps the output or appends one element. -/
theorem outputsOnlyGrowWhileACommandRuns : Obligations.OutputsOnlyGrowWhileACommandRuns := by
  refine fun s t h hreset => ⟨fun hb ht => ?_, fun hb ht => ?_⟩
  · rcases step_vbuRow_or_reset h hb with ⟨host, hrow⟩ | ⟨rest, hh, -⟩
    · exact (vbuRow_out hrow ht :)
    · exact absurd hh (hreset rest)
  · rcases step_rldRow_or_reset h hb with ⟨host, hrow⟩ | ⟨rest, hh, -⟩
    · exact (rldRow_out hrow ht :)
    · exact absurd hh (hreset rest)

/-- Settles O40: no row lowers its unit's cursor. -/
theorem cursorsNeverMoveBackwards : Obligations.CursorsNeverMoveBackwards := by
  refine fun s t h hreset => ⟨fun hb => ?_, fun hb => ?_⟩
  · rcases step_vbuRow_or_reset h hb with ⟨host, hrow⟩ | ⟨rest, hh, -⟩
    · exact (vbuRow_cur_le hrow :)
    · exact absurd hh (hreset rest)
  · rcases step_rldRow_or_reset h hb with ⟨host, hrow⟩ | ⟨rest, hh, -⟩
    · exact (rldRow_cur_le hrow :)
    · exact absurd hh (hreset rest)

end Sys2Proof.Proofs
end

section
/-! PROOF. The invariant of VBU: the place of the unread bits in UNPACK (40_vbu.md R70, R72) and its part in each row.
-/

namespace Sys2Proof.Proofs.VbuInvariant

open Sys2Proof.Machine Sys2Proof.Laws BlockEnds BufferReads VbuRows

variable {m : Memory} {v : VbuRegs} {k : Nat}

/-! ### The place of the unread bits -/

/-- After `taken` values the bits left in the cursor word are the last of the words fetched so far (40_vbu.md R70): what
`unpackInv` says of `rem`, the cursor and the number of values. -/
def Placed (v : VbuRegs) (taken : Nat) : Prop :=
  v.rem ≤ Config.wordBits ∧ v.base ≤ v.cur ∧ v.cur ≤ v.endAddr
    ∧ v.rem + taken * v.bpv.toNat = 32 * ((v.cur - v.base + 3) / 4)
    ∧ (v.cur = v.endAddr ∨ (v.cur - v.base) % 4 = 0)

theorem unpackInv_iff : v.unpackInv m ↔
    v.headerLegal ∧ v.idx < v.count.toNat ∧ v.out.length = v.idx ∧ v.valuesFit ∧ v.payload ≤ v.endAddr
      ∧ v.endAddr ≤ m.len ∧ Placed v v.idx := by
  constructor
  · rintro ⟨hl, hi, hlen, hfit, hrem, hpay, hbase, hcur, hend, hbits, hword⟩
    exact ⟨hl, hi, hlen, hfit, hpay, hend, hrem, hbase, hcur, hbits, hword⟩
  · rintro ⟨hl, hi, hlen, hfit, hpay, hend, hrem, hbase, hcur, hbits, hword⟩
    exact ⟨hl, hi, hlen, hfit, hrem, hpay, hbase, hcur, hend, hbits, hword⟩

theorem Placed.within (h : Placed v k) (hb : v.bpv.toNat ≤ v.rem) :
    Placed { v with rem := v.rem - v.bpv.toNat } (k + 1) := by
  obtain ⟨hrem, hbase, hcur, hbits, hword⟩ := h
  refine ⟨(Nat.sub_le _ _).trans hrem, hbase, hcur, ?_, hword⟩
  change v.rem - v.bpv.toNat + (k + 1) * v.bpv.toNat = 32 * ((v.cur - v.base + 3) / 4)
  rw [Nat.add_one_mul]
  omega

/-- A value across two words takes one more word: the cursor stood at a word's end, since it was before the payload's.
-/
theorem Placed.across (h : Placed v k) (hb : v.rem < v.bpv.toNat) (hmax : v.bpv.toNat ≤ 32) (hlt : v.cur < v.endAddr) :
    Placed { v with
      cur := (fetchWordAt m v.cur v.endAddr).2, word := (fetchWordAt m v.cur v.endAddr).1
      rem := Config.wordBits - (v.bpv.toNat - v.rem) } (k + 1) := by
  obtain ⟨hrem, hbase, hcur, hbits, hword⟩ := h
  have hnext : v.base ≤ (fetchWordAt m v.cur v.endAddr).2 ∧ (fetchWordAt m v.cur v.endAddr).2 ≤ v.endAddr
      ∧ ((fetchWordAt m v.cur v.endAddr).2 - v.base + 3) / 4 = (v.cur - v.base + 3) / 4 + 1
      ∧ ((fetchWordAt m v.cur v.endAddr).2 = v.endAddr ∨ ((fetchWordAt m v.cur v.endAddr).2 - v.base) % 4 = 0) := by
    rw [fetchWordAt_cursor]
    split <;> omega
  obtain ⟨hbase', hcur', hwords, hword'⟩ := hnext
  refine ⟨Nat.sub_le _ _, hbase', hcur', ?_, hword'⟩
  change 32 - (v.bpv.toNat - v.rem) + (k + 1) * v.bpv.toNat
    = 32 * (((fetchWordAt m v.cur v.endAddr).2 - v.base + 3) / 4)
  rw [hwords, Nat.add_one_mul]
  omega

/-- With a value to come that the cursor word does not hold, the payload has a word left (40_vbu.md R65). -/
theorem Placed.cur_lt (h : Placed v k) (hpay : v.payload ≤ v.endAddr) (hk : k < v.count.toNat)
    (hb : v.rem < v.bpv.toNat) : v.cur < v.endAddr := by
  obtain ⟨-, -, hcur, hbits, -⟩ := h
  have hneed : k * v.bpv.toNat + v.bpv.toNat ≤ v.count.toNat * v.bpv.toNat :=
    (Nat.add_one_mul k _).symm.le.trans (Nat.mul_le_mul_right _ hk)
  refine Nat.lt_of_le_of_ne hcur fun hend => ?_
  rw [VbuRegs.base, hend, VbuRegs.payload, payloadLen] at hbits
  rw [VbuRegs.payload, payloadLen] at hpay
  omega

/-- After the last value the cursor is at the end (40_vbu.md R69). -/
theorem Placed.cur_eq (h : Placed v v.count.toNat) (hpay : v.payload ≤ v.endAddr) : v.cur = v.endAddr := by
  obtain ⟨-, hbase, hcur, hbits, hword⟩ := h
  rw [VbuRegs.base, VbuRegs.payload, payloadLen] at hbase hbits hword
  rw [VbuRegs.payload, payloadLen] at hpay
  omega

/-- Right after the first word. -/
theorem placed_first {base e : Nat} (hbase : v.base = base) (he : v.endAddr = e) (hlt : base < e)
    (hcur : v.cur = (fetchWordAt m base e).2) (hrem : v.rem = Config.wordBits) : Placed v 0 := by
  rw [fetchWordAt_cursor] at hcur
  rw [Placed, hbase, he, hrem, hcur, Config.wordBits, Nat.zero_mul]
  split <;> omega

/-! ### The invariant in a busy phase -/

theorem inv_of_not_absent (ha : v.absent = false) (he : v.err = .none) (hp : v.phase ≠ .fault) (h : v.phaseInv m) :
    v.inv m := by
  refine ⟨fun h => ?_, ⟨fun _ => hp, fun _ => he⟩, ?_, h⟩
  · rw [ha] at h
    cases h
  · rw [he]
    nofun

theorem inv_busy (h : v.inv m) (hb : v.phase.busy = true) : v.absent = false ∧ v.err = .none ∧ v.phaseInv m := by
  obtain ⟨habs, herr, -, hph⟩ := h
  refine ⟨?_, herr.mpr fun hf => ?_, hph⟩
  · rw [← Bool.not_eq_true]
    intro ha
    rw [habs ha] at hb
    cases hb
  · rw [hf] at hb
    cases hb

theorem phaseInv_hdr (hp : v.phase = .hdr) : v.phaseInv m ↔ v.out = [] := by rw [VbuRegs.phaseInv, hp]

theorem phaseInv_cnt (hp : v.phase = .cnt) : v.phaseInv m ↔ v.out = [] ∧ v.headerLegal ∧ v.cur ≤ m.len := by
  rw [VbuRegs.phaseInv, hp]

theorem phaseInv_unpack (hp : v.phase = .unpack) : v.phaseInv m ↔ v.unpackInv m := by rw [VbuRegs.phaseInv, hp]

theorem phaseInv_absent (hp : v.phase = .done) (ha : v.absent = true) : v.phaseInv m ↔ v.out = [] ∧ v.bpv = 0 := by
  simp only [VbuRegs.phaseInv, hp, ha, if_true]

theorem phaseInv_done (hp : v.phase = .done) (ha : v.absent = false) : v.phaseInv m ↔
    v.out.length = v.count.toNat ∧ v.valuesFit ∧ v.headerLegal ∧ v.newoff = v.endAddr := by
  simp only [VbuRegs.phaseInv, hp, ha, Bool.false_eq_true, if_false]

/-- Without a unit busy the invariant does not speak of the buffer. -/
theorem inv_of_not_busy {m' : Memory} (h : v.inv m) (hb : v.phase.busy = false) : v.inv m' := by
  obtain ⟨habs, herr, hfmt, hph⟩ := h
  refine ⟨habs, herr, hfmt, ?_⟩
  rw [VbuRegs.phaseInv] at hph ⊢
  cases hp : v.phase <;> simp only [hp] at hph ⊢
  case idle | done | fault => exact hph
  all_goals
    rw [hp] at hb
    cases hb

/-! ### Each row keeps the invariant -/

variable {s t : State}

theorem inv_vbuRaise {e : ErrKind} (a : Nat) (h0 : e ≠ .none) (hf : e ≠ .formatError) : (s.vbuRaise e a).vbu.inv m :=
  ⟨nofun, ⟨fun h => absurd h h0, fun h => absurd rfl h⟩, hf, rfl⟩

/-- Emitting a value that fits keeps what `valuesFit` says. -/
theorem valuesFit_append {out : List Word} {x : Word} {b : Nat}
    (h : ∀ y ∈ out, y.toNat < 2 ^ b) (hx : x.toNat < 2 ^ b) :
    ∀ y ∈ out ++ [x], y.toNat < 2 ^ b := by
  intro y hy
  rcases List.mem_append.mp hy with hy | hy
  · exact h y hy
  · rwa [List.mem_singleton.mp hy]

/-- The end of an unpack step, from registers in which the value's bits are taken and the value not yet counted. -/
theorem inv_finishValue {x : Word} (hp : v.phase = .unpack) (ha : v.absent = false) (he : v.err = .none)
    (hl : v.headerLegal) (hi : v.idx < v.count.toNat) (hlen : v.out.length = v.idx) (hfit : v.valuesFit)
    (hpay : v.payload ≤ v.endAddr) (hend : v.endAddr ≤ m.len) (hplace : Placed v (v.idx + 1))
    (hx : x.toNat < 2 ^ v.bpv.toNat) : (v.finishValue x).inv m := by
  have hlen' : (v.out ++ [x]).length = v.idx + 1 := by rw [List.length_append, hlen, List.length_singleton]
  rcases finishValue_cases v x with ⟨hlast, e⟩ | ⟨hmore, e⟩ <;> rw [e]
  · exact inv_of_not_absent ha he nofun
      ((phaseInv_done (by rfl) (by exact ha)).mpr ⟨hlen'.trans hlast, valuesFit_append hfit hx, hl, rfl⟩)
  · refine inv_of_not_absent ha he (by simp [hp])
      ((phaseInv_unpack (by exact hp)).mpr (unpackInv_iff.mpr ?_))
    exact ⟨hl, Nat.lt_of_le_of_ne hi hmore, hlen', valuesFit_append hfit hx, hpay, hend, hplace⟩

/-- If the value was the last, the cursor is where the block ends (40_vbu.md R69). -/
theorem finishValue_completes {x : Word} (hp : v.phase = .unpack) (hd : (v.finishValue x).phase = .done)
    (hlen : v.out.length = v.idx) (hpay : v.payload ≤ v.endAddr) (hplace : Placed v (v.idx + 1)) :
    (v.finishValue x).cur = (v.finishValue x).newoff ∧ (v.finishValue x).newoff = v.endAddr
      ∧ (v.finishValue x).out.length = v.count.toNat := by
  rcases finishValue_cases v x with ⟨hlast, e⟩ | ⟨-, e⟩ <;> rw [e] at hd ⊢
  · refine ⟨(hlast ▸ hplace).cur_eq hpay, rfl, ?_⟩
    rw [List.length_append, hlen, List.length_singleton, hlast]
  · cases hp.symm.trans hd

theorem inv_load {n c e : Nat} (h : s.vbu.inv s.mem) (hp : s.vbu.phase = .cnt) (hc : c < 2 ^ 32)
    (hc0 : c ≠ 0) (he : e = s.vbu.cur + n + payloadLen c s.vbu.bpv.toNat)
    (hlt : s.vbu.cur + n < e) (hend : e ≤ s.mem.len) :
    VbuRegs.inv s.mem { s.vbu with
      count := BitVec.ofNat 32 c, endAddr := e, idx := 0, word := (fetchWordAt s.mem (s.vbu.cur + n) e).1
      cur := (fetchWordAt s.mem (s.vbu.cur + n) e).2, rem := Config.wordBits, phase := .unpack } := by
  obtain ⟨ha, herr, hph⟩ := inv_busy h (by rw [hp]; rfl)
  obtain ⟨hout, hlegal, -⟩ := (phaseInv_cnt hp).mp hph
  have hcount : (BitVec.ofNat 32 c).toNat = c := by rw [BitVec.toNat_ofNat, Nat.mod_eq_of_lt hc]
  refine inv_of_not_absent ha herr nofun ((phaseInv_unpack rfl).mpr (unpackInv_iff.mpr ⟨hlegal, ?_, ?_, ?_, ?_, hend,
    placed_first (base := s.vbu.cur + n) (e := e) ?_ rfl hlt rfl rfl⟩))
  · exact (Nat.pos_of_ne_zero hc0).trans_le hcount.ge
  · exact congrArg List.length hout
  · simp only [VbuRegs.valuesFit, hout, List.not_mem_nil, false_implies, implies_true]
  · simp only [VbuRegs.payload, hcount]
    omega
  · simp only [VbuRegs.base, VbuRegs.payload, hcount]
    omega

theorem vbuRow_inv (h : VbuRow s t) (hinv : s.vbu.inv s.mem) : t.vbu.inv s.mem := by
  cases h with
  | headerMissing | reserved | countMissing | payloadMissing => exact inv_vbuRaise _ nofun nofun
  | absent sel hp =>
    obtain ⟨-, herr, hph⟩ := inv_busy hinv (by rw [hp]; rfl)
    refine ⟨fun _ => rfl, ⟨fun _ => nofun, fun _ => herr⟩, ne_of_eq_of_ne herr nofun,
      (phaseInv_absent (by rfl) (by rfl)).mpr ⟨(phaseInv_hdr hp).mp hph, rfl⟩⟩
  | header sel n bpv hp hlt hl hn =>
    obtain ⟨ha, herr, hph⟩ := inv_busy hinv (by rw [hp]; rfl)
    refine inv_of_not_absent ha herr nofun ⟨(phaseInv_hdr hp).mp hph, ⟨hl, ?_⟩, hlt⟩
    rw [setVbu_vbu, hn]
    nofun
  | empty n hp hl hn hlen h0 =>
    obtain ⟨ha, herr, hph⟩ := inv_busy hinv (by rw [hp]; rfl)
    obtain ⟨hout, hlegal, -⟩ := (phaseInv_cnt hp).mp hph
    refine inv_of_not_absent ha herr nofun ((phaseInv_done (by rfl) (by exact ha)).mpr
      ⟨congrArg List.length hout, ?_, hlegal, rfl⟩)
    simp only [VbuRegs.valuesFit, setVbu_vbu, hout, List.not_mem_nil, false_implies, implies_true]
  | load n c e hp _ _ _ _ hc hc0 he hlt hend => exact inv_load hinv hp hc hc0 he hlt hend
  | within hp hl _ hi hb =>
    obtain ⟨ha, herr, hph⟩ := inv_busy hinv (by rw [hp]; rfl)
    obtain ⟨hlegal, -, hlen, hfit, hpay, hend, hplace⟩ := unpackInv_iff.mp ((phaseInv_unpack hp).mp hph)
    exact inv_finishValue hp ha herr hlegal hi hlen hfit hpay hend (hplace.within hb)
      (valueInWord_lt _ _ (bpvLegal_bounds hl).2)
  | across hp hl _ hi hb hcur =>
    obtain ⟨ha, herr, hph⟩ := inv_busy hinv (by rw [hp]; rfl)
    obtain ⟨hlegal, -, hlen, hfit, hpay, hend, hplace⟩ := unpackInv_iff.mp ((phaseInv_unpack hp).mp hph)
    have hmax := (bpvLegal_bounds hl).2
    exact inv_finishValue hp ha herr hlegal hi hlen hfit hpay hend (hplace.across hb hmax hcur)
      (valueAcross_spec _ _ (Nat.le_of_lt hb) hmax).2

/-! ### A busy VBU has a row -/

theorem exec_classify_hdr (sel : BitVec 2) (bpv : BitVec 6) (hp : s.vbu.phase = .hdr) :
    ∃ t, exec (classify sel bpv) s = .next t := by
  rcases classify_cases sel bpv with ⟨e, -⟩ | ⟨e, -⟩ | ⟨-, ⟨e, -⟩ | ⟨e, -⟩ | ⟨e, -⟩⟩ <;> rw [e]
  · exact ⟨_, exec_vbNone_hdr _ hp⟩
  · exact ⟨_, exec_vbRsv_hdr _ _ hp⟩
  all_goals exact ⟨_, runCounted_hdr _ _ _ hp⟩

theorem loadCount_progress (n : Nat) (hl : bpvLegal s.vbu.bpv = true) : ∃ t, loadCount n s = .next t := by
  rcases read_cases s.mem s.vbu.cur n with ⟨hlen, -⟩ | ⟨-, hr⟩
  · exact ⟨_, loadCount_countMissing hlen⟩
  · by_cases he : s.mem.len < s.vbu.cur + n + payloadLen (s.mem.leValue s.vbu.cur n) s.vbu.bpv.toNat
    · exact ⟨_, loadCount_payloadMissing hr he⟩
    · by_cases hc : s.mem.leValue s.vbu.cur n = 0
      · exact ⟨_, loadCount_zero (hr.trans (congrArg some hc))⟩
      · have hpos := payloadLen_pos hc (bpvLegal_bounds hl).1
        exact ⟨_, loadCount_first hr hc rfl (Nat.lt_add_of_pos_right hpos) (Nat.le_of_not_lt he)⟩

theorem unpackStep_progress (h : s.vbu.unpackInv s.mem) : ∃ t, unpackStep s = .next t := by
  obtain ⟨-, hi, -, -, hpay, hend, hplace⟩ := unpackInv_iff.mp h
  rcases Nat.lt_or_ge s.vbu.rem s.vbu.bpv.toNat with hb | hb
  · exact ⟨_, unpackStep_across hi hb (hplace.cur_lt hpay hi hb) hend⟩
  · exact ⟨_, unpackStep_within hi hb⟩

/-- A busy VBU that meets its invariant has a row to take (70_reset_and_hazards.md R117). -/
theorem vbuDue_progress (hinv : s.vbu.inv s.mem) (hb : s.vbu.phase.busy = true) : ∃ t, answer (vbuDue s) = .next t := by
  obtain ⟨-, -, hph⟩ := inv_busy hinv hb
  cases hp : s.vbu.phase with
  | hdr =>
    rcases vbuDue_hdr hp with ⟨-, e⟩ | ⟨-, e⟩ <;> rw [e]
    · exact ⟨_, rfl⟩
    · exact exec_classify_hdr _ _ hp
  | cnt =>
    obtain ⟨-, hlegal, -⟩ := (phaseInv_cnt hp).mp hph
    obtain ⟨f, hf, -⟩ := headerLegal_form hlegal
    rw [vbuDue_later (.inl hp), answer, exec_cnt hp rfl hf]
    exact loadCount_progress f.2 hlegal.1
  | unpack =>
    have hu := (phaseInv_unpack hp).mp hph
    obtain ⟨f, hf, -⟩ := headerLegal_form (unpackInv_iff.mp hu).1
    rw [vbuDue_later (.inr hp), answer, exec_unpack hp rfl hf]
    exact unpackStep_progress hu
  | idle | done | fault =>
    rw [hp] at hb
    cases hb

end Sys2Proof.Proofs.VbuInvariant
end

section
/-! PROOF. The invariant of RLD, row by row (41_rld.md R84), and of the block: every step keeps it, and with a dutiful
host every state that meets it has a next one (70_reset_and_hazards.md R117). -/

namespace Sys2Proof.Proofs.RldInvariant

open Sys2Proof.Machine Sys2Proof.Laws BlockEnds BufferReads RunLoop RldRows StepFrames

variable {m : Memory} {r : RldRegs} {s t : State}

/-! ### The invariant in a busy phase -/

theorem inv_of_no_error (he : r.err = .none) (hp : r.phase ≠ .fault) (h : r.phaseInv m) : r.inv m :=
  ⟨⟨fun _ => hp, fun _ => he⟩, ne_of_eq_of_ne he nofun, h⟩

theorem inv_busy (h : r.inv m) (hb : r.phase.busy = true) : r.err = .none ∧ r.phaseInv m := by
  obtain ⟨herr, -, hph⟩ := h
  refine ⟨herr.mpr fun hf => ?_, hph⟩
  rw [hf] at hb
  cases hb

theorem phaseInv_head (hp : r.phase = .head) : r.phaseInv m ↔ r.budgetInRange := by rw [RldRegs.phaseInv, hp]

theorem phaseInv_lit (hp : r.phase = .lit) : r.phaseInv m ↔
    r.budgetInRange ∧ r.cur + r.left ≤ m.len ∧ 1 ≤ r.left ∧ r.left ≤ literalLen r.cnt ∧ r.cnt.msb = false := by
  rw [RldRegs.phaseInv, hp]

theorem phaseInv_rep (hp : r.phase = .rep) : r.phaseInv m ↔
    r.budgetInRange ∧ r.cur ≤ m.len ∧ 1 ≤ r.left ∧ r.left ≤ repeatLen r.cnt ∧ r.cnt.msb = true := by
  rw [RldRegs.phaseInv, hp]

theorem phaseInv_endRec (hp : r.phase = .endRec) : r.phaseInv m ↔ r.budgetInRange ∧ r.budget < Config.rleMinBudget := by
  rw [RldRegs.phaseInv, hp]

theorem inv_of_not_busy {m' : Memory} (h : r.inv m) (hb : r.phase.busy = false) : r.inv m' := by
  obtain ⟨herr, hfmt, hph⟩ := h
  refine ⟨herr, hfmt, ?_⟩
  rw [RldRegs.phaseInv] at hph ⊢
  cases hp : r.phase <;> simp only [hp] at hph ⊢
  case idle | done | fault => exact hph
  all_goals
    rw [hp] at hb
    cases hb

/-! ### The lengths of runs -/

theorem literalLen_lt {cnt : Half} (hm : cnt.msb = false) : literalLen cnt < 32768 := by
  rw [BitVec.msb_eq_false_iff_two_mul_lt] at hm
  rw [literalLen]
  omega

theorem repeatLen_bounds {cnt : Half} (hm : cnt.msb = true) : 1 ≤ repeatLen cnt ∧ repeatLen cnt ≤ 32768 := by
  have hneg := toInt_neg_of_msb hm
  have hlow := BitVec.le_toInt cnt
  rw [repeatLen]
  omega

/-! ### Each row keeps the invariant -/

theorem inv_rldRaise {e : ErrKind} (a : Nat) (h0 : e ≠ .none) (hf : e ≠ .formatError) : (s.rldRaise e a).rld.inv m :=
  ⟨⟨fun h => absurd h h0, fun h => absurd rfl h⟩, hf, rfl⟩

theorem inv_startLiteral {cnt : Half} (hinv : s.rld.inv s.mem) (hp : s.rld.phase = .head) (hb : 3 ≤ s.rld.budget)
    (hm : cnt.msb = false) : (startLiteral cnt s).rld.inv s.mem := by
  obtain ⟨herr, hph⟩ := inv_busy hinv (by rw [hp]; rfl)
  obtain ⟨-, hhigh⟩ := (phaseInv_head hp).mp hph
  rcases startLiteral_cases cnt s with ⟨-, e⟩ | ⟨hrun, e⟩ <;> rw [e]
  · exact inv_rldRaise _ nofun nofun
  · have hlen := literalLen_lt hm
    have hrange : -32766 ≤ s.rld.budget - literalCost cnt ∧ s.rld.budget - literalCost cnt < 2 ^ 32 := by
      rw [literalCost]
      omega
    by_cases h0 : literalLen cnt = 0
    · exact inv_of_no_error herr (by simp [h0]) ((phaseInv_head (by simp [h0])).mpr hrange)
    · exact inv_of_no_error herr (by simp [h0])
        ((phaseInv_lit (by simp [h0])).mpr ⟨hrange, hrun, Nat.pos_of_ne_zero h0, Nat.le_refl _, hm⟩)

theorem inv_startRepeat {cnt : Half} (hinv : s.rld.inv s.mem) (hp : s.rld.phase = .head) (hb : 3 ≤ s.rld.budget)
    (hm : cnt.msb = true) : (startRepeat cnt s).rld.inv s.mem := by
  obtain ⟨herr, hph⟩ := inv_busy hinv (by rw [hp]; rfl)
  obtain ⟨-, hhigh⟩ := (phaseInv_head hp).mp hph
  rcases startRepeat_cases cnt s with ⟨-, e⟩ | ⟨hrun, e⟩ <;> rw [e]
  · exact inv_rldRaise _ nofun nofun
  · have hrange : -32766 ≤ s.rld.budget - repeatCost ∧ s.rld.budget - repeatCost < 2 ^ 32 := by
      rw [repeatCost]
      omega
    exact inv_of_no_error herr nofun
      ((phaseInv_rep (by rfl)).mpr ⟨hrange, hrun, (repeatLen_bounds hm).1, Nat.le_refl _, hm⟩)

theorem rldRow_inv (h : RldRow s t) (hinv : s.rld.inv s.mem) : t.rld.inv s.mem := by
  cases h with
  | loopEnds hp hb =>
    obtain ⟨herr, hph⟩ := inv_busy hinv (by rw [hp]; rfl)
    exact inv_of_no_error herr nofun ((phaseInv_endRec (by rfl)).mpr ⟨(phaseInv_head hp).mp hph, hb⟩)
  | countMissing => exact inv_rldRaise _ nofun nofun
  | literal w hp hb _ hm => exact inv_startLiteral hinv hp hb hm
  | repeats w hp hb _ hm => exact inv_startRepeat hinv hp hb hm
  | literalByte hp hl =>
    obtain ⟨herr, hph⟩ := inv_busy hinv (by rw [hp]; rfl)
    obtain ⟨hrange, hrun, -, hcnt, hm⟩ := (phaseInv_lit hp).mp hph
    by_cases h1 : s.rld.left = 1
    · exact inv_of_no_error herr (by simp [runPhase, h1]) ((phaseInv_head (by simp [runPhase, h1])).mpr hrange)
    · refine inv_of_no_error herr (by simp [runPhase, h1]) ((phaseInv_lit (by simp [runPhase, h1])).mpr ?_)
      refine ⟨hrange, ?_, ?_, (Nat.sub_le _ _).trans hcnt, hm⟩ <;> simp only [setRld_rld] <;> omega
  | repeatByte hp hl =>
    obtain ⟨herr, hph⟩ := inv_busy hinv (by rw [hp]; rfl)
    obtain ⟨hrange, hcur, -, hcnt, hm⟩ := (phaseInv_rep hp).mp hph
    by_cases h1 : s.rld.left = 1
    · exact inv_of_no_error herr (by simp [runPhase, h1]) ((phaseInv_head (by simp [runPhase, h1])).mpr hrange)
    · refine inv_of_no_error herr (by simp [runPhase, h1]) ((phaseInv_rep (by simp [runPhase, h1])).mpr ?_)
      refine ⟨hrange, hcur, ?_, (Nat.sub_le _ _).trans hcnt, hm⟩
      simp only [setRld_rld]
      omega
  | sentinel hp =>
    obtain ⟨herr, -⟩ := inv_busy hinv (by rw [hp]; rfl)
    rcases checkSentinel_cases s with ⟨-, e⟩ | ⟨-, -, e⟩ | ⟨-, -, e⟩ <;> rw [e]
    · exact inv_rldRaise _ nofun nofun
    · exact inv_of_no_error herr nofun rfl
    · exact inv_rldRaise _ nofun nofun

/-! ### A busy RLD has a row -/

theorem exec_decodeRecord_head (w : Half) (hp : s.rld.phase = .head) (hb : 3 ≤ s.rld.budget) :
    ∃ t, exec (decodeRecord w) s = .next t := by
  rw [decodeRecord]
  split
  · exact ⟨_, exec_rlRep_head hp hb⟩
  · exact ⟨_, exec_rlLit_head hp hb⟩

/-- A busy RLD that meets its invariant has a row to take (70_reset_and_hazards.md R117). -/
theorem rldDue_progress (hinv : s.rld.inv s.mem) (hb : s.rld.phase.busy = true) : ∃ t, answer (rldDue s) = .next t := by
  obtain ⟨-, hph⟩ := inv_busy hinv hb
  cases hp : s.rld.phase with
  | head =>
    rcases rldDue_head hp with ⟨-, e⟩ | ⟨-, -, e⟩ | ⟨hgoes, -, e⟩ <;> rw [e]
    · exact ⟨_, rfl⟩
    · exact ⟨_, rfl⟩
    · exact exec_decodeRecord_head _ hp hgoes
  | lit =>
    obtain ⟨-, hrun, hl, -⟩ := (phaseInv_lit hp).mp hph
    rw [rldDue_lit hp, answer, exec_rlLit_lit hp]
    exact ⟨_, literalByte_inside hl (by omega)⟩
  | rep =>
    obtain ⟨-, -, hl, -⟩ := (phaseInv_rep hp).mp hph
    rw [rldDue_rep hp, answer, exec_rlRep_rep hp]
    exact ⟨_, repeatByte_left hl⟩
  | endRec =>
    rw [rldDue_endRec hp, answer]
    exact ⟨_, exec_rlEnd_endRec hp⟩
  | idle | done | fault =>
    rw [hp] at hb
    cases hb

end Sys2Proof.Proofs.RldInvariant

namespace Sys2Proof.Proofs.BlockInvariant

open Sys2Proof.Machine Sys2Proof.Laws HostActions StepFrames

variable {s t : State}

theorem vbuReset_inv (m : Memory) : VbuRegs.reset.inv m := ⟨nofun, ⟨fun _ => nofun, fun _ => rfl⟩, nofun, rfl⟩

theorem rldReset_inv (m : Memory) : RldRegs.reset.inv m := ⟨⟨fun _ => nofun, fun _ => rfl⟩, nofun, rfl⟩

theorem startVbu_inv (m : Memory) (offset : Nat) : (s.startVbu offset).vbu.inv m :=
  VbuInvariant.inv_of_not_absent rfl rfl nofun rfl

theorem startRld_inv (m : Memory) (offset : Nat) (n : BitVec 32) : (s.startRld offset n).rld.inv m := by
  refine RldInvariant.inv_of_no_error rfl nofun ((RldInvariant.phaseInv_head (by rfl)).mpr ⟨?_, ?_⟩) <;>
    rw [startRld_budget] <;> omega

/-- The units of a state that meets the invariant are not stuck. -/
theorem unitsDue_progress (hone : ¬ (s.vbu.phase.busy = true ∧ s.rld.phase.busy = true)) (hv : s.vbu.inv s.mem)
    (hr : s.rld.inv s.mem) : ∃ t, answer (unitsDue s) = .next t := by
  rw [unitsDue]
  by_cases hbv : s.vbu.phase.busy = true
  · rw [if_pos hbv, if_neg fun hbr => hone ⟨hbv, hbr⟩]
    exact VbuInvariant.vbuDue_progress hv hbv
  · rw [if_neg hbv]
    by_cases hbr : s.rld.phase.busy = true
    · rw [if_pos hbr]
      exact RldInvariant.rldDue_progress hr hbr
    · rw [if_neg hbr]
      exact ⟨_, rfl⟩

end Sys2Proof.Proofs.BlockInvariant

namespace Sys2Proof.Proofs

open Sys2Proof.Machine Sys2Proof.Laws HostActions StepFrames VbuInvariant BlockInvariant

/-- Settles O45: both units of the reset state are idle over the empty buffer. -/
theorem resetMeetsTheInvariant : Obligations.ResetMeetsTheInvariant :=
  ⟨rfl, Nat.zero_le _, by decide, by decide, vbuReset_inv _, rldReset_inv _⟩

/-- Settles O46: a row changes its own unit only and keeps that unit's invariant; the host's actions start a unit afresh
or come while no unit is busy, when the invariant does not speak of the buffer. -/
theorem everyStepKeepsTheInvariant : Obligations.EveryStepKeepsTheInvariant := by
  rintro s t ⟨hwf, hlen, hparams, hone, hv, hr⟩ h
  cases step_rows h with
  | vbu host _ hbv hbr hrow =>
    have hv' : t.vbu.inv s.mem := (VbuInvariant.vbuRow_inv hrow hv :)
    obtain ⟨v, n, rfl⟩ := BufferFrame.vbuRow_vbuOnly hrow
    exact ⟨hwf, hlen, hparams, fun hb => absurd hb.2 (Bool.eq_false_iff.mp hbr), hv', hr⟩
  | rld host _ hbr hbv hrow =>
    have hr' : t.rld.inv s.mem := (RldInvariant.rldRow_inv hrow hr :)
    obtain ⟨r, n, rfl⟩ := BufferFrame.rldRow_rldOnly hrow
    exact ⟨hwf, hlen, hparams, fun hb => absurd hb.1 (Bool.eq_false_iff.mp hbv), hv, hr'⟩
  | quiet => exact ⟨hwf, hlen, hparams, hone, hv, hr⟩
  | read offset rest _ hq =>
    have hbr := (busy_eq_false_iff.mp hq).2
    exact ⟨hwf, hlen, hparams, fun hb => absurd hb.2 (Bool.eq_false_iff.mp hbr), startVbu_inv _ _, hr⟩
  | decode offset n rest _ hq =>
    have hbv := (busy_eq_false_iff.mp hq).1
    exact ⟨hwf, hlen, hparams, fun hb => absurd hb.1 (Bool.eq_false_iff.mp hbv), hv, startRld_inv _ _ _⟩
  | load bytes rest _ hq hl =>
    obtain ⟨hbv, hbr⟩ := busy_eq_false_iff.mp hq
    exact ⟨ofBytes_wf bytes, hl, hparams, hone, VbuInvariant.inv_of_not_busy hv hbv,
      RldInvariant.inv_of_not_busy hr hbr⟩
  | reset => exact ⟨hwf, hlen, hparams, nofun, vbuReset_inv _, rldReset_inv _⟩

/-- Settles O47: the units of a good state are not stuck, and a duty is the condition under which an entry is accepted.
-/
theorem dutifulHostNeverStopsTheBlock : Obligations.DutifulHostNeverStopsTheBlock := by
  rintro s ⟨-, -, -, hone, hv, hr⟩ hduty
  rw [State.hostDutiful] at hduty
  rcases hh : s.host with _ | ⟨e, rest⟩
  · rw [step_no_event hh]
    exact unitsDue_progress hone hv hr
  · rw [hh] at hduty
    cases e with
    | idle =>
      rw [step_idle hh]
      exact unitsDue_progress (s := s.setHost rest) hone hv hr
    | await =>
      cases hb : s.busy with
      | false => exact ⟨_, step_await_quiet hh hb⟩
      | true =>
        rw [step_await_busy hh hb]
        exact unitsDue_progress hone hv hr
    | vbuRead offset =>
      simp only [Bool.and_eq_true, Bool.not_eq_true', decide_eq_true_eq] at hduty
      exact ⟨_, (step_vbuRead hh).trans (exec_vbuRead_accepted (s := s.setHost rest) hduty.1 hduty.2)⟩
    | rldDecode offset n =>
      simp only [Bool.and_eq_true, Bool.not_eq_true', decide_eq_true_eq] at hduty
      exact ⟨_, (step_rldDecode hh).trans (exec_rldDecode_accepted (s := s.setHost rest) n hduty.1 hduty.2)⟩
    | load bytes =>
      simp only [Bool.and_eq_true, Bool.not_eq_true', decide_eq_true_eq] at hduty
      exact ⟨_, (step_load hh).trans (congrArg answer (loadDue_accepted (s := s.setHost rest) hduty.1 hduty.2))⟩
    | reset => exact ⟨_, step_reset hh⟩

/-- Settles O41: the row that completes is the last value's, after which the bits taken are those of all values. -/
theorem cursorEndsWhereTheBlockEnds : Obligations.CursorEndsWhereTheBlockEnds := by
  rintro s t ⟨-, -, -, -, hv, -⟩ h hs ht
  obtain ⟨-, -, hph⟩ := VbuInvariant.inv_busy hv (by rw [hs]; rfl)
  obtain ⟨-, -, hlen, -, hpay, -, hplace⟩ := unpackInv_iff.mp ((phaseInv_unpack hs).mp hph)
  rcases step_vbuRow_or_reset h (by rw [hs]; rfl) with ⟨host, hrow⟩ | ⟨rest, -, rfl⟩
  · cases hrow with
    | headerMissing hp | absent _ hp | reserved _ _ hp | header _ _ _ hp | countMissing _ hp
    | payloadMissing _ _ _ hp | empty _ hp | load _ _ _ hp => cases hs.symm.trans hp
    | within hp _ _ _ hb => exact finishValue_completes hp ht hlen hpay (hplace.within hb)
    | across hp hl _ _ hb hcur =>
      exact finishValue_completes hp ht hlen hpay (hplace.across hb (VbuRows.bpvLegal_bounds hl).2 hcur)
  · cases ht

end Sys2Proof.Proofs
end

section
/-! PROOF. Every command ends (70_reset_and_hazards.md R117, 41_rld.md R82): each row lowers a bound on the steps its
unit has left. -/

namespace Sys2Proof.Proofs.Termination

open Sys2Proof.Machine Sys2Proof.Laws HostActions StepFrames

variable {s t : State}

/-! ### The row a busy unit takes without a host action -/

theorem answer_next {d : Due} (h : answer d = .next t) : (∃ i u, d = .run i u ∧ exec i u = .next t) ∨ d = .go t := by
  cases d with
  | run i u => exact .inl ⟨i, u, rfl, h⟩
  | go u =>
    cases h
    exact .inr rfl
  | stop r => cases h

/-- A busy VBU that meets its invariant takes a row. -/
theorem vbu_takes_row (hh : s.host = []) (hr : s.rld.phase.busy = false) (hb : s.vbu.phase.busy = true)
    (hinv : s.vbu.inv s.mem) : ∃ t, step s = .next t ∧ answer (vbuDue s) = .next t ∧ VbuRow s t := by
  obtain ⟨t, ht⟩ := VbuInvariant.vbuDue_progress hinv hb
  exact ⟨t, (step_vbu hh hr hb).trans ht, ht, vbuRow_of_due hb (answer_next ht)⟩

/-- A busy RLD that meets its invariant takes a row. -/
theorem rld_takes_row (hh : s.host = []) (hv : s.vbu.phase.busy = false) (hb : s.rld.phase.busy = true)
    (hinv : s.rld.inv s.mem) : ∃ t, step s = .next t ∧ RldRow s t := by
  obtain ⟨t, ht⟩ := RldInvariant.rldDue_progress hinv hb
  exact ⟨t, (step_rld hh hv hb).trans ht, rldRow_of_due hb (answer_next ht)⟩

/-! ### Runs to a state with no unit busy -/

/-- If from every busy state of a kind a step leads to a state of the kind with a lower bound, a run of at most the
bound leads to one with no unit busy. -/
theorem runs_until_quiet {P : State → Prop} {bound : State → Nat}
    (hstep : ∀ s, P s → s.busy = true → ∃ t, step s = .next t ∧ P t ∧ bound t < bound s) :
    ∀ (k : Nat) (s : State), P s → bound s ≤ k → ∃ n t, n ≤ k ∧ runSteps n s = .next t ∧ P t ∧ t.busy = false := by
  intro k
  induction k with
  | zero =>
    intro s hP hk
    refine ⟨0, s, Nat.le_refl 0, runSteps_zero s, hP, Bool.eq_false_iff.mpr fun hb => ?_⟩
    obtain ⟨t, -, -, hlt⟩ := hstep s hP hb
    omega
  | succ k ih =>
    intro s hP hk
    cases hb : s.busy with
    | false => exact ⟨0, s, Nat.zero_le _, runSteps_zero s, hP, hb⟩
    | true =>
      obtain ⟨u, hu, hPu, hlt⟩ := hstep s hP hb
      obtain ⟨n, t, hn, hrun, hPt, ht⟩ := ih u hPu (by omega)
      exact ⟨n + 1, t, Nat.succ_le_succ hn, (runSteps_next hu).trans hrun, hPt, ht⟩

/-! ### The steps a unit has left -/

/-- A bound on the steps VBU has left: the header, the count, and one step a value (40_vbu.md R72). -/
def vbuStepsLeft (v : VbuRegs) : Nat :=
  match v.phase with
  | .hdr => 2 + 2 ^ 32
  | .cnt => 1 + 2 ^ 32
  | .unpack => v.count.toNat - v.idx
  | .idle => 0
  | .done => 0
  | .fault => 0

/-- A bound on the steps of the records a budget still pays for: each takes at least 2 of it (41_rld.md R82) and is done
in at most 1 + 32768 steps. -/
def recordSteps (budget : Int) : Nat := 32769 * ((budget.toNat - 1) / 2)

/-- A bound on the steps RLD has left: the bytes of the run, the records to come, the loop's end and the sentinel. -/
def rldStepsLeft (r : RldRegs) : Nat :=
  match r.phase with
  | .head => recordSteps r.budget + 2
  | .lit => r.left + (recordSteps r.budget + 2)
  | .rep => r.left + (recordSteps r.budget + 2)
  | .endRec => 1
  | .idle => 0
  | .done => 0
  | .fault => 0

theorem vbuStepsLeft_hdr {v : VbuRegs} (hp : v.phase = .hdr) : vbuStepsLeft v = 2 + 2 ^ 32 := by rw [vbuStepsLeft, hp]

theorem vbuStepsLeft_cnt {v : VbuRegs} (hp : v.phase = .cnt) : vbuStepsLeft v = 1 + 2 ^ 32 := by rw [vbuStepsLeft, hp]

theorem vbuStepsLeft_unpack {v : VbuRegs} (hp : v.phase = .unpack) : vbuStepsLeft v = v.count.toNat - v.idx := by
  rw [vbuStepsLeft, hp]

theorem rldStepsLeft_head {r : RldRegs} (hp : r.phase = .head) : rldStepsLeft r = recordSteps r.budget + 2 := by
  rw [rldStepsLeft, hp]

theorem rldStepsLeft_lit {r : RldRegs} (hp : r.phase = .lit) :
    rldStepsLeft r = r.left + (recordSteps r.budget + 2) := by rw [rldStepsLeft, hp]

theorem rldStepsLeft_rep {r : RldRegs} (hp : r.phase = .rep) :
    rldStepsLeft r = r.left + (recordSteps r.budget + 2) := by rw [rldStepsLeft, hp]

theorem rldStepsLeft_endRec {r : RldRegs} (hp : r.phase = .endRec) : rldStepsLeft r = 1 := by rw [rldStepsLeft, hp]

/-- A unit that is not busy has no step left. -/
theorem vbuStepsLeft_not_busy {v : VbuRegs} (hb : v.phase.busy = false) : vbuStepsLeft v = 0 := by
  unfold vbuStepsLeft
  split
  case h_1 hp | h_2 hp | h_3 hp =>
    rw [hp] at hb
    cases hb
  all_goals rfl

theorem vbuStepsLeft_le {v : VbuRegs} : vbuStepsLeft v ≤ 2 + 2 ^ 32 := by
  have hlt := v.count.isLt
  unfold vbuStepsLeft
  split <;> omega

/-- A record lowers the bound of the records to come by a whole record. -/
theorem recordSteps_add_le {budget cost : Int} (hb : 3 ≤ budget) (hc : 2 ≤ cost) :
    recordSteps (budget - cost) + 32769 ≤ recordSteps budget := by
  have hone : ((budget - cost).toNat - 1) / 2 + 1 ≤ (budget.toNat - 1) / 2 := by omega
  simp only [recordSteps]
  omega

/-! ### Each row lowers the bound -/

theorem finishValue_stepsLeft {v : VbuRegs} (x : Word) (hp : v.phase = .unpack) (hi : v.idx < v.count.toNat) :
    vbuStepsLeft (v.finishValue x) < v.count.toNat - v.idx := by
  rcases finishValue_cases v x with ⟨hlast, e⟩ | ⟨hmore, e⟩ <;> rw [e]
  · exact Nat.sub_pos_of_lt hi
  · rw [vbuStepsLeft_unpack (by exact hp)]
    exact Nat.sub_lt_sub_left hi (Nat.lt_succ_self _)

theorem vbuRow_stepsLeft (h : VbuRow s t) : vbuStepsLeft t.vbu < vbuStepsLeft s.vbu := by
  cases h with
  | headerMissing hp | absent _ hp | reserved _ _ hp =>
    rw [vbuStepsLeft_hdr hp, vbuStepsLeft_not_busy (by rfl)]
    omega
  | header _ _ _ hp =>
    rw [vbuStepsLeft_hdr hp, vbuStepsLeft_cnt (by rfl)]
    omega
  | countMissing _ hp | payloadMissing _ _ _ hp | empty _ hp =>
    rw [vbuStepsLeft_cnt hp, vbuStepsLeft_not_busy (by rfl)]
    omega
  | load _ c _ hp =>
    rw [vbuStepsLeft_cnt hp, vbuStepsLeft_unpack (by rfl), setVbu_vbu]
    have hlt := (BitVec.ofNat 32 c).isLt
    omega
  | within hp _ _ hi | across hp _ _ hi =>
    rw [vbuStepsLeft_unpack hp]
    exact finishValue_stepsLeft _ hp hi

theorem startLiteral_stepsLeft {cnt : Half} (hb : 3 ≤ s.rld.budget) (hm : cnt.msb = false) :
    rldStepsLeft (startLiteral cnt s).rld < recordSteps s.rld.budget + 2 := by
  rcases startLiteral_cases cnt s with ⟨-, e⟩ | ⟨-, e⟩ <;> rw [e]
  · exact Nat.succ_pos _
  · have hlen := RldInvariant.literalLen_lt hm
    have hless := recordSteps_add_le (cost := literalCost cnt) hb (by rw [literalCost]; omega)
    by_cases h0 : literalLen cnt = 0
    · rw [rldStepsLeft_head (by simp [h0])]
      simp only [setRld_rld]
      omega
    · rw [rldStepsLeft_lit (by simp [h0])]
      simp only [setRld_rld]
      omega

theorem startRepeat_stepsLeft {cnt : Half} (hb : 3 ≤ s.rld.budget) (hm : cnt.msb = true) :
    rldStepsLeft (startRepeat cnt s).rld < recordSteps s.rld.budget + 2 := by
  rcases startRepeat_cases cnt s with ⟨-, e⟩ | ⟨-, e⟩ <;> rw [e]
  · exact Nat.succ_pos _
  · obtain ⟨-, hlen⟩ := RldInvariant.repeatLen_bounds hm
    have hless := recordSteps_add_le (cost := repeatCost) hb (by decide)
    rw [rldStepsLeft_rep (by rfl)]
    simp only [setRld_rld]
    omega

theorem rldRow_stepsLeft (h : RldRow s t) : rldStepsLeft t.rld < rldStepsLeft s.rld := by
  cases h with
  | loopEnds hp =>
    rw [rldStepsLeft_head hp, rldStepsLeft_endRec (by rfl)]
    omega
  | countMissing hp =>
    rw [rldStepsLeft_head hp]
    exact Nat.succ_pos _
  | literal w hp hb _ hm =>
    rw [rldStepsLeft_head hp]
    exact startLiteral_stepsLeft hb hm
  | repeats w hp hb _ hm =>
    rw [rldStepsLeft_head hp]
    exact startRepeat_stepsLeft hb hm
  | literalByte hp hl =>
    rw [rldStepsLeft_lit hp]
    by_cases h1 : s.rld.left = 1
    · rw [rldStepsLeft_head (by simp [runPhase, h1])]
      simp only [setRld_rld]
      omega
    · rw [rldStepsLeft_lit (by simp [runPhase, h1])]
      simp only [setRld_rld]
      omega
  | repeatByte hp hl =>
    rw [rldStepsLeft_rep hp]
    by_cases h1 : s.rld.left = 1
    · rw [rldStepsLeft_head (by simp [runPhase, h1])]
      simp only [setRld_rld]
      omega
    · rw [rldStepsLeft_rep (by simp [runPhase, h1])]
      simp only [setRld_rld]
      omega
  | sentinel hp =>
    rw [rldStepsLeft_endRec hp]
    rcases checkSentinel_cases s with ⟨-, e⟩ | ⟨-, -, e⟩ | ⟨-, -, e⟩ <;> rw [e] <;> exact Nat.one_pos

/-! ### The block -/

/-- A bound on the steps of the command that runs. -/
def stepsLeft (s : State) : Nat := vbuStepsLeft s.vbu + rldStepsLeft s.rld

theorem recordSteps_le {r : RldRegs} (hr : r.budgetInRange) : recordSteps r.budget ≤ 32769 * 2 ^ 31 := by
  obtain ⟨-, hhigh⟩ := hr
  refine Nat.mul_le_mul_left _ ?_
  omega

theorem rldStepsLeft_le {m : Memory} {r : RldRegs} (hinv : r.inv m) : rldStepsLeft r ≤ 2 ^ 47 := by
  obtain ⟨-, -, hph⟩ := hinv
  cases hp : r.phase with
  | head =>
    have hrec := recordSteps_le ((RldInvariant.phaseInv_head hp).mp hph)
    rw [rldStepsLeft_head hp]
    omega
  | lit =>
    obtain ⟨hrange, -, -, hleft, hm⟩ := (RldInvariant.phaseInv_lit hp).mp hph
    have hrec := recordSteps_le hrange
    have hlen := RldInvariant.literalLen_lt hm
    rw [rldStepsLeft_lit hp]
    omega
  | rep =>
    obtain ⟨hrange, -, -, hleft, hm⟩ := (RldInvariant.phaseInv_rep hp).mp hph
    have hrec := recordSteps_le hrange
    obtain ⟨-, hlen⟩ := RldInvariant.repeatLen_bounds hm
    rw [rldStepsLeft_rep hp]
    omega
  | idle | endRec | done | fault =>
    simp [rldStepsLeft, hp]

theorem stepsLeft_le (hinv : s.Inv) : stepsLeft s ≤ 2 ^ 48 := by
  obtain ⟨-, -, -, -, -, hr⟩ := hinv
  have hvbu := vbuStepsLeft_le (v := s.vbu)
  have hrld := rldStepsLeft_le hr
  rw [stepsLeft]
  omega

/-- Without a host action, a busy state that meets the invariant has a step to one that has fewer left. -/
theorem step_lowers_stepsLeft (hinv : s.Inv) (hh : s.host = []) (hb : s.busy = true) :
    ∃ t, step s = .next t ∧ (t.Inv ∧ t.host = []) ∧ stepsLeft t < stepsLeft s := by
  have hkeeps : ∀ t, step s = .next t → t.Inv := fun t => everyStepKeepsTheInvariant s t hinv
  obtain ⟨-, -, -, hone, hv, hr⟩ := hinv
  rw [State.busy, Bool.or_eq_true] at hb
  rcases hb with hbv | hbr
  · obtain ⟨t, ht, -, hrow⟩ :=
      vbu_takes_row hh (Bool.eq_false_iff.mpr fun hbr => hone ⟨hbv, hbr⟩) hbv hv
    have hlt := vbuRow_stepsLeft hrow
    have hinv' := hkeeps t ht
    obtain ⟨v, n, rfl⟩ := BufferFrame.vbuRow_vbuOnly hrow
    exact ⟨_, ht, ⟨hinv', hh⟩, Nat.add_lt_add_right hlt _⟩
  · obtain ⟨t, ht, hrow⟩ := rld_takes_row hh (Bool.eq_false_iff.mpr fun hbv => hone ⟨hbv, hbr⟩) hbr hr
    have hlt := rldRow_stepsLeft hrow
    have hinv' := hkeeps t ht
    obtain ⟨r, n, rfl⟩ := BufferFrame.rldRow_rldOnly hrow
    exact ⟨_, ht, ⟨hinv', hh⟩, Nat.add_lt_add_left hlt _⟩

end Sys2Proof.Proofs.Termination

namespace Sys2Proof.Proofs

open Sys2Proof.Machine Termination

/-- Settles O48: the bound on the steps left falls with every step while a unit is busy. -/
theorem everyCommandEnds : Obligations.EveryCommandEnds := by
  intro s hinv hh
  obtain ⟨n, t, hn, hrun, -, ht⟩ := runs_until_quiet (P := fun s => s.Inv ∧ s.host = []) (bound := stepsLeft)
    (fun _ hP hb => step_lowers_stepsLeft hP.1 hP.2 hb) (2 ^ 48) s ⟨hinv, hh⟩ (stepsLeft_le hinv)
  exact ⟨n, t, hn, hrun, ht⟩

end Sys2Proof.Proofs
end

section
/-! PROOF. VBU's steps yield the big-step outcome (00_scope.md R10; 40_vbu.md R58, R72): the outcome R58 gives for what
is left of a command is the same before and after every row. -/

namespace Sys2Proof.Proofs.VbuRefinement

open Sys2Proof.Machine Sys2Proof.Laws BlockEnds BufferReads VbuRows VbuInvariant Termination

variable {s t : State} {m : Memory} {v : VbuRegs}

/-! ### The branches of `VBU_read` -/

theorem leValue_one (m : Memory) (a : Nat) : m.leValue a 1 = (cellAt m.cells a).toNat := by
  simp [Memory.leValue, Memory.byteVal]

theorem vbuRead_missing {a : Nat} (h : m.len ≤ a) : vbuRead m a = .fault .truncatedBuffer a := by
  rw [vbuRead, read_eq_none (Nat.lt_succ_of_le h)]

/-- What `VBU_read` reads of a header byte in the buffer: the two fields the unit decodes (30_encoding.md R43). -/
theorem read_header {a : Nat} (h : a < m.len) :
    m.read a 1 = some (cellAt m.cells a).toNat
      ∧ slice (cellAt m.cells a).toNat 0 6 = (headerBpv (cellAt m.cells a)).toNat
      ∧ BitVec.ofNat 2 (slice (cellAt m.cells a).toNat 6 2) = headerSel (cellAt m.cells a) := by
  have hlt := (cellAt m.cells a).isLt
  refine ⟨?_, ?_, BitVec.eq_of_toNat_eq ?_⟩
  · rw [read_eq_leValue h, leValue_one]
  · exact (slice_zero _ 6).trans (OpcodeMap.headerBpv_toNat _).symm
  · rw [OpcodeMap.headerSel_toNat, BitVec.toNat_ofNat, slice]
    omega

theorem vbuRead_absent {a : Nat} (h : a < m.len) (h0 : headerBpv (cellAt m.cells a) = 0) :
    vbuRead m a = .absent (a + 1) := by
  obtain ⟨hread, hbpv, -⟩ := read_header h
  simp only [vbuRead, hread, hbpv, h0]
  exact if_pos rfl

theorem vbuRead_reserved {a : Nat} (h : a < m.len) (h0 : headerBpv (cellAt m.cells a) ≠ 0)
    (hr : (headerSel (cellAt m.cells a)).toNat = 3 ∨ 32 < (headerBpv (cellAt m.cells a)).toNat) :
    vbuRead m a = .fault .corruptStream a := by
  obtain ⟨hread, hbpv, hsel⟩ := read_header h
  have hne : ¬ (headerBpv (cellAt m.cells a)).toNat = 0 := fun hz => h0 (BitVec.eq_of_toNat_eq hz)
  simp only [vbuRead, hread, hbpv, hsel, if_neg hne]
  split
  · rfl
  · rename_i n hn
    refine if_pos (hr.resolve_left fun h3 => ?_)
    rw [Encoding.selWidth_eq_none_iff.mpr (BitVec.eq_of_toNat_eq h3)] at hn
    cases hn

theorem vbuRead_counted {a n : Nat} (h : a < m.len) (hl : bpvLegal (headerBpv (cellAt m.cells a)) = true)
    (hn : Config.selWidth (headerSel (cellAt m.cells a)) = some n) :
    vbuRead m a = readCounted m (headerBpv (cellAt m.cells a)).toNat n (a + 1) := by
  obtain ⟨hread, hbpv, hsel⟩ := read_header h
  obtain ⟨hmin, hmax⟩ := bpvLegal_bounds hl
  simp only [vbuRead, hread, hbpv, hsel, if_neg (Nat.ne_of_gt hmin), hn]
  exact if_neg (Nat.not_lt.mpr hmax)

/-! ### The outcome that is pending -/

/-- What R58 gives for the rest of the command, from the registers in each phase. -/
def vbuPending (m : Memory) (v : VbuRegs) : Option VbuOutcome :=
  match v.phase with
  | .hdr => some (vbuRead m v.cur)
  | .cnt => (Config.selWidth v.sel).map fun n => readCounted m v.bpv.toNat n v.cur
  | .unpack =>
    some (.values (v.out ++ unpackLoop m v.bpv.toNat v.endAddr (v.count.toNat - v.idx) v.word v.rem v.cur) v.endAddr)
  | .done => some (if v.absent then .absent v.newoff else .values v.out v.newoff)
  | .fault => some (.fault v.err v.faddr)
  | .idle => none

theorem vbuPending_hdr (hp : v.phase = .hdr) : vbuPending m v = some (vbuRead m v.cur) := by rw [vbuPending, hp]

theorem vbuPending_cnt {n : Nat} (hp : v.phase = .cnt) (hn : Config.selWidth v.sel = some n) :
    vbuPending m v = some (readCounted m v.bpv.toNat n v.cur) := by
  simp only [vbuPending, hp, hn, Option.map_some]

theorem vbuPending_unpack (hp : v.phase = .unpack) : vbuPending m v =
    some (.values (v.out ++ unpackLoop m v.bpv.toNat v.endAddr (v.count.toNat - v.idx) v.word v.rem v.cur)
      v.endAddr) := by
  rw [vbuPending, hp]

theorem vbuPending_done (hp : v.phase = .done) (ha : v.absent = false) :
    vbuPending m v = some (.values v.out v.newoff) := by
  simp only [vbuPending, hp, ha, Bool.false_eq_true, if_false]

/-- Once the command has ended the pending outcome is the outcome. -/
theorem vbuOutcome_eq_pending (hb : s.vbu.phase.busy = false) : s.vbuOutcome = vbuPending m s.vbu := by
  rw [State.vbuOutcome, vbuPending]
  cases hp : s.vbu.phase with
  | idle | done | fault => rfl
  | hdr | cnt | unpack =>
    rw [hp] at hb
    cases hb

/-! ### Every row keeps the pending outcome -/

theorem vbuPending_vbuRaise (k : ErrKind) (a : Nat) : vbuPending m (s.vbuRaise k a).vbu = some (.fault k a) := rfl

/-- In HDR the unit goes where R58's tests of the header lead. -/
theorem hdr_keeps_pending (hp : s.vbu.phase = .hdr) (h : answer (vbuDue s) = .next t) :
    vbuPending s.mem t.vbu = vbuPending s.mem s.vbu := by
  rw [vbuPending_hdr hp]
  rcases vbuDue_hdr hp with ⟨hlen, e⟩ | ⟨hlt, e⟩ <;> rw [e] at h
  · cases h
    rw [vbuPending_vbuRaise, vbuRead_missing hlen]
  · change exec (classify (headerSel _) (headerBpv _)) s = .next t at h
    rcases classify_cases (headerSel (cellAt s.mem.cells s.vbu.cur)) (headerBpv (cellAt s.mem.cells s.vbu.cur)) with
      ⟨e, h0⟩ | ⟨e, h0, hr⟩ | ⟨hl, ⟨e, hs⟩ | ⟨e, hs⟩ | ⟨e, hs⟩⟩ <;> rw [e] at h
    · obtain ⟨-, rfl⟩ := execVbNone_next h
      rw [vbuRead_absent hlt h0]
      rfl
    · obtain ⟨-, rfl⟩ := execVbRsv_next h
      rw [vbuPending_vbuRaise, vbuRead_reserved hlt h0 hr]
    all_goals
      cases (runCounted_hdr _ _ _ hp).symm.trans h
      rw [vbuPending_cnt (by rfl) (by rfl), vbuRead_counted hlt hl (by rw [hs]; rfl)]
      rfl

theorem finishValue_pending (x : Word) (hp : v.phase = .unpack) (ha : v.absent = false) : vbuPending m (v.finishValue x)
    = some (.values (v.out ++ x ::
        unpackLoop m v.bpv.toNat v.endAddr (v.count.toNat - (v.idx + 1)) v.word v.rem v.cur) v.endAddr) := by
  rcases finishValue_cases v x with ⟨hlast, e⟩ | ⟨-, e⟩ <;> rw [e]
  · rw [vbuPending_done (by rfl) (by exact ha), hlast, Nat.sub_self, unpackLoop]
  · rw [vbuPending_unpack (by exact hp), List.append_assoc]
    rfl

/-- One turn of R58's loop with a value to come. -/
theorem unpackLoop_succ {bpv e n : Nat} (word : Word) (rem cur : Nat) (hn : 0 < n) :
    unpackLoop m bpv e n word rem cur =
      if bpv ≤ rem then valueInWord word rem bpv :: unpackLoop m bpv e (n - 1) word (rem - bpv) cur
      else valueAcross word (fetchWordAt m cur e).1 rem bpv ::
        unpackLoop m bpv e (n - 1) (fetchWordAt m cur e).1 (Config.wordBits - (bpv - rem)) (fetchWordAt m cur e).2 := by
  obtain ⟨k, rfl⟩ := Nat.exists_eq_add_of_le' hn
  rfl

/-- In CNT and UNPACK the unit goes where R58's tests and its loop lead. -/
theorem vbuRow_keeps_pending (h : VbuRow s t) (hinv : s.vbu.inv s.mem) (hp : s.vbu.phase ≠ .hdr) :
    vbuPending s.mem t.vbu = vbuPending s.mem s.vbu := by
  cases h with
  | headerMissing h1 | absent _ h1 | reserved _ _ h1 | header _ _ _ h1 => exact absurd h1 hp
  | countMissing n hp hn hlen =>
    rw [vbuPending_vbuRaise, vbuPending_cnt hp hn, readCounted, read_eq_none hlen]
  | payloadMissing n c e hp hn hlen hc he hlt =>
    subst hc he
    rw [vbuPending_vbuRaise, vbuPending_cnt hp hn, readCounted, read_eq_leValue hlen]
    simp only [readPayload, if_pos hlt]
  | empty n hp hl hn hlen h0 =>
    obtain ⟨ha, -, hph⟩ := inv_busy hinv (by rw [hp]; rfl)
    obtain ⟨hout, -, -⟩ := (phaseInv_cnt hp).mp hph
    rw [vbuPending_done (by rfl) (by exact ha), vbuPending_cnt hp hn, readCounted, read_eq_leValue hlen, h0]
    simp only [readPayload, payloadLen_zero, Nat.add_zero, if_neg (Nat.not_lt.mpr hlen), if_true, setVbu_vbu, hout]
  | load n c e hp hl hn hlen hc hlt hc0 he _ hend =>
    obtain ⟨-, -, hph⟩ := inv_busy hinv (by rw [hp]; rfl)
    obtain ⟨hout, -, -⟩ := (phaseInv_cnt hp).mp hph
    rw [vbuPending_unpack (by rfl), vbuPending_cnt hp hn, readCounted, read_eq_leValue hlen, ← hc]
    simp only [readPayload, ← he, if_neg (Nat.not_lt.mpr hend), if_neg hc0, setVbu_vbu, hout, List.nil_append,
      BitVec.toNat_ofNat, Nat.mod_eq_of_lt hlt, Nat.sub_zero]
  | within hp _ _ hi hb =>
    obtain ⟨ha, -, -⟩ := inv_busy hinv (by rw [hp]; rfl)
    rw [setVbu_vbu, finishValue_pending _ (by exact hp) (by exact ha), vbuPending_unpack hp,
      unpackLoop_succ _ _ _ (Nat.sub_pos_of_lt hi), if_pos hb]
    rfl
  | across hp _ _ hi hb =>
    obtain ⟨ha, -, -⟩ := inv_busy hinv (by rw [hp]; rfl)
    rw [setVbu_vbu, finishValue_pending _ (by exact hp) (by exact ha), vbuPending_unpack hp,
      unpackLoop_succ _ _ _ (Nat.sub_pos_of_lt hi), if_neg (Nat.not_le.mpr hb)]
    rfl

/-! ### The run of a command -/

/-- What holds during a run of VBU from `s`, whose outcome is to be `o`: the host is silent, all but VBU is as in `s`,
and the pending outcome is `o`. -/
def VbuRunning (s : State) (o : VbuOutcome) (t : State) : Prop :=
  t.host = [] ∧ t.rld = s.rld ∧ t.mem = s.mem ∧ t.vbu.inv t.mem ∧ vbuPending t.mem t.vbu = some o

theorem VbuRunning.step {s u : State} {o : VbuOutcome} (hr : s.rld.phase.busy = false) (h : VbuRunning s o u)
    (hb : u.busy = true) :
    ∃ t, Machine.step u = .next t ∧ VbuRunning s o t ∧ vbuStepsLeft t.vbu < vbuStepsLeft u.vbu := by
  obtain ⟨hh, hrld, hmem, hinv, hpend⟩ := h
  have hr' : u.rld.phase.busy = false := by rw [hrld, hr]
  have hv : u.vbu.phase.busy = true := by rwa [State.busy, hr', Bool.or_false] at hb
  obtain ⟨t, ht, hdue, hrow⟩ := vbu_takes_row hh hr' hv hinv
  have hkeeps : vbuPending u.mem t.vbu = vbuPending u.mem u.vbu := by
    by_cases hp : u.vbu.phase = .hdr
    · exact hdr_keeps_pending hp hdue
    · exact vbuRow_keeps_pending hrow hinv hp
  have hinv' := vbuRow_inv hrow hinv
  have hless := vbuRow_stepsLeft hrow
  obtain ⟨v, n, rfl⟩ := BufferFrame.vbuRow_vbuOnly hrow
  exact ⟨_, ht, ⟨hh, hrld, hmem, hinv', hkeeps.trans hpend⟩, hless⟩

end Sys2Proof.Proofs.VbuRefinement

namespace Sys2Proof.Proofs

open Sys2Proof.Machine Sys2Proof.Laws HostActions Termination VbuRefinement

/-- Settles O49: after the command the pending outcome is `VBU_read`'s, and it stays so until the unit is not busy. -/
theorem vbuRunYieldsTheBigStepOutcome : Obligations.VbuRunYieldsTheBigStepOutcome := by
  intro s offset hb ho
  have hr := (busy_eq_false_iff.mp hb).2
  have hstart : step (s.setHost [.vbuRead offset]) = .next ((s.setHost []).startVbu offset) :=
    (step_vbuRead rfl).trans (exec_vbuRead_accepted hb ho)
  have hrunning : VbuRunning s (vbuRead s.mem offset) ((s.setHost []).startVbu offset) :=
    ⟨rfl, rfl, rfl, BlockInvariant.startVbu_inv _ _, rfl⟩
  obtain ⟨n, t, hn, hrun, ⟨-, hrld, hmem, -, hpend⟩, ht⟩ :=
    runs_until_quiet (bound := fun u => vbuStepsLeft u.vbu) (fun _ h hb => h.step hr hb) (2 + 2 ^ 32) _ hrunning
      (Nat.le_refl _)
  refine ⟨n, t, hn, (runSteps_next hstart).trans hrun, ?_, hrld, hmem, ht⟩
  rw [vbuOutcome_eq_pending (busy_eq_false_iff.mp ht).1, hpend]

end Sys2Proof.Proofs
end

section
/-! PROOF. RLD's steps yield the big-step outcome (00_scope.md R10; 41_rld.md R73, R84): the outcome R73 gives for what
is left of a command is the same before and after every row. -/

namespace Sys2Proof.Proofs.RldRefinement

open Sys2Proof.Machine Sys2Proof.Laws BlockEnds BufferReads RldRows RldInvariant StepFrames Termination

variable {s t : State} {m : Memory} {eos : Half} {r : RldRegs} {cur : Nat} {budget : Int} {out : List Byte} {w : Half}

/-! ### The loop of `RLD_decode`, with enough turns -/

theorem decodeLoop_ends (hb : budget < 3) (k : Nat) : decodeLoop m eos k cur budget out = decodeEnd m eos cur out := by
  cases k with
  | zero => rfl
  | succ k => exact if_pos hb

/-- Any number of turns that is not below the budget is enough: each turn lowers the budget (41_rld.md R82). -/
theorem decodeLoop_fuel : ∀ (k k' : Nat) (cur : Nat) (budget : Int) (out : List Byte), budget ≤ k → budget ≤ k' →
    decodeLoop m eos k cur budget out = decodeLoop m eos k' cur budget out := by
  intro k
  induction k with
  | zero =>
    intro k' cur budget out hk _
    rw [decodeLoop_ends (by omega), decodeLoop_ends (by omega)]
  | succ k ih =>
    intro k' cur budget out hk hk'
    by_cases hb : budget < 3
    · rw [decodeLoop_ends hb, decodeLoop_ends hb]
    · obtain ⟨j, rfl⟩ : ∃ j, k' = j + 1 := Nat.exists_eq_add_of_le' (by omega)
      have hgoes : ¬ budget < Config.rleMinBudget := hb
      rw [decodeLoop, decodeLoop, if_neg hgoes, if_neg hgoes]
      simp only [repeatCost, literalCost]
      split
      · rfl
      · split
        · split
          · rfl
          · exact ih _ _ _ _ (by omega) (by omega)
        · split
          · rfl
          · exact ih _ _ _ _ (by omega) (by omega)

/-- The loop from a cursor with a budget, with as many turns as the budget pays for. -/
def decodeFrom (m : Memory) (eos : Half) (cur : Nat) (budget : Int) (out : List Byte) : RldOutcome :=
  decodeLoop m eos budget.toNat cur budget out

theorem rldDecode_eq (offset : Nat) (n : BitVec 32) :
    rldDecode m eos offset n = decodeFrom m eos offset n.toNat [] := rfl

theorem decodeFrom_ends (hb : budget < 3) : decodeFrom m eos cur budget out = decodeEnd m eos cur out :=
  decodeLoop_ends hb _

/-- While the budget pays for a record the loop takes a turn, with one turn fewer to come. -/
theorem exists_turns (hb : 3 ≤ budget) : ∃ k : Nat, budget.toNat = k + 1 ∧ budget - 1 ≤ k :=
  ⟨budget.toNat - 1, by omega, by omega⟩

theorem decodeFrom_countMissing (hb : 3 ≤ budget) (hlen : m.len < cur + 2) :
    decodeFrom m eos cur budget out = .fault .truncatedBuffer cur := by
  obtain ⟨k, hk, -⟩ := exists_turns hb
  rw [decodeFrom, hk, decodeLoop]
  simp only [Config.rleMinBudget, if_neg (Int.not_lt.mpr hb), read_eq_none hlen]

/-- The count a turn reads, as the field the unit decodes. -/
theorem ofNat_leValue_eq {a : Nat} (hw : w.toNat = m.leValue a 2) : BitVec.ofNat 16 (m.leValue a 2) = w := by
  rw [← hw, BitVec.ofNat_toNat, BitVec.setWidth_eq]

theorem decodeFrom_repeatMissing (hb : 3 ≤ budget) (hlen : cur + 2 ≤ m.len) (hw : w.toNat = m.leValue cur 2)
    (hm : w.msb = true) (hbyte : m.len ≤ cur + 2) :
    decodeFrom m eos cur budget out = .fault .truncatedBuffer (cur + 2) := by
  obtain ⟨k, hk, -⟩ := exists_turns hb
  rw [decodeFrom, hk, decodeLoop]
  simp only [Config.rleMinBudget, if_neg (Int.not_lt.mpr hb), read_eq_leValue hlen, ofNat_leValue_eq hw,
    if_pos (toInt_neg_of_msb hm), read_eq_none (n := 1) (Nat.lt_succ_of_le hbyte)]

theorem decodeFrom_repeat (hb : 3 ≤ budget) (hw : w.toNat = m.leValue cur 2) (hm : w.msb = true)
    (hbyte : cur + 2 < m.len) :
    decodeFrom m eos cur budget out = decodeFrom m eos (cur + 3) (budget - repeatCost)
      (out ++ List.replicate (repeatLen w) (cellAt m.cells (cur + 2))) := by
  obtain ⟨k, hk, hle⟩ := exists_turns hb
  rw [decodeFrom, hk, decodeLoop]
  simp only [Config.rleMinBudget, if_neg (Int.not_lt.mpr hb), read_eq_leValue (Nat.le_of_lt hbyte),
    ofNat_leValue_eq hw, if_pos (toInt_neg_of_msb hm), read_eq_leValue (n := 1) hbyte,
    VbuRefinement.leValue_one, BitVec.ofNat_toNat, BitVec.setWidth_eq]
  exact decodeLoop_fuel _ _ _ _ _ (by unfold repeatCost; omega) (by omega)

theorem decodeFrom_literalMissing (hb : 3 ≤ budget) (hlen : cur + 2 ≤ m.len) (hw : w.toNat = m.leValue cur 2)
    (hm : w.msb = false) (hrun : m.len < cur + 2 + literalLen w) :
    decodeFrom m eos cur budget out = .fault .truncatedBuffer (cur + 2) := by
  obtain ⟨k, hk, -⟩ := exists_turns hb
  rw [decodeFrom, hk, decodeLoop]
  simp only [Config.rleMinBudget, if_neg (Int.not_lt.mpr hb), read_eq_leValue hlen, ofNat_leValue_eq hw,
    if_neg (Int.not_lt.mpr (toInt_nonneg_of_msb hm)), if_pos hrun]

theorem decodeFrom_literal (hb : 3 ≤ budget) (hw : w.toNat = m.leValue cur 2) (hm : w.msb = false)
    (hrun : cur + 2 + literalLen w ≤ m.len) :
    decodeFrom m eos cur budget out = decodeFrom m eos (cur + 2 + literalLen w) (budget - literalCost w)
      (out ++ m.window (cur + 2) (literalLen w)) := by
  obtain ⟨k, hk, hle⟩ := exists_turns hb
  rw [decodeFrom, hk, decodeLoop]
  simp only [Config.rleMinBudget, if_neg (Int.not_lt.mpr hb), read_eq_leValue ((Nat.le_add_right _ _).trans hrun),
    ofNat_leValue_eq hw, if_neg (Int.not_lt.mpr (toInt_nonneg_of_msb hm)), if_neg (Nat.not_lt.mpr hrun)]
  exact decodeLoop_fuel _ _ _ _ _ (by rw [literalCost]; omega) (by omega)

/-! ### The outcome that is pending -/

/-- What R73 gives for the rest of the command, from the registers in each phase. -/
def rldPending (m : Memory) (eos : Half) (r : RldRegs) : Option RldOutcome :=
  match r.phase with
  | .head => some (decodeFrom m eos r.cur r.budget r.out)
  | .lit => some (decodeFrom m eos (r.cur + r.left) r.budget (r.out ++ m.window r.cur r.left))
  | .rep => some (decodeFrom m eos r.cur r.budget (r.out ++ List.replicate r.left r.rbyte))
  | .endRec => some (decodeEnd m eos r.cur r.out)
  | .done => some (.bytes r.out)
  | .fault => some (.fault r.err r.faddr)
  | .idle => none

theorem rldPending_head (hp : r.phase = .head) : rldPending m eos r = some (decodeFrom m eos r.cur r.budget r.out) := by
  rw [rldPending, hp]

theorem rldPending_lit (hp : r.phase = .lit) : rldPending m eos r =
    some (decodeFrom m eos (r.cur + r.left) r.budget (r.out ++ m.window r.cur r.left)) := by rw [rldPending, hp]

theorem rldPending_rep (hp : r.phase = .rep) : rldPending m eos r =
    some (decodeFrom m eos r.cur r.budget (r.out ++ List.replicate r.left r.rbyte)) := by rw [rldPending, hp]

theorem rldPending_endRec (hp : r.phase = .endRec) : rldPending m eos r = some (decodeEnd m eos r.cur r.out) := by
  rw [rldPending, hp]

theorem rldPending_rldRaise (k : ErrKind) (a : Nat) : rldPending m eos (s.rldRaise k a).rld = some (.fault k a) := rfl

/-- Once the command has ended the pending outcome is the outcome. -/
theorem rldOutcome_eq_pending (hb : s.rld.phase.busy = false) : s.rldOutcome = rldPending m eos s.rld := by
  rw [State.rldOutcome, rldPending]
  cases hp : s.rld.phase with
  | idle | done | fault => rfl
  | head | lit | rep | endRec =>
    rw [hp] at hb
    cases hb

/-! ### Every row keeps the pending outcome -/

theorem startLiteral_keeps_pending (hb : 3 ≤ s.rld.budget) (hlen : s.rld.cur + 2 ≤ s.mem.len)
    (hw : w.toNat = s.mem.leValue s.rld.cur 2) (hm : w.msb = false) :
    rldPending s.mem eos (startLiteral w s).rld = some (decodeFrom s.mem eos s.rld.cur s.rld.budget s.rld.out) := by
  rcases startLiteral_cases w s with ⟨hrun, e⟩ | ⟨hrun, e⟩ <;> rw [e]
  · rw [rldPending_rldRaise, decodeFrom_literalMissing hb hlen hw hm hrun]
  · rw [decodeFrom_literal hb hw hm hrun]
    by_cases h0 : literalLen w = 0
    · rw [rldPending_head (by simp [h0])]
      simp only [setRld_rld, h0, Nat.add_zero, Memory.window, List.append_nil]
    · rw [rldPending_lit (by simp [h0])]
      rfl

theorem startRepeat_keeps_pending (hb : 3 ≤ s.rld.budget) (hlen : s.rld.cur + 2 ≤ s.mem.len)
    (hw : w.toNat = s.mem.leValue s.rld.cur 2) (hm : w.msb = true) :
    rldPending s.mem eos (startRepeat w s).rld = some (decodeFrom s.mem eos s.rld.cur s.rld.budget s.rld.out) := by
  rcases startRepeat_cases w s with ⟨hbyte, e⟩ | ⟨hbyte, e⟩ <;> rw [e]
  · rw [rldPending_rldRaise, decodeFrom_repeatMissing hb hlen hw hm hbyte]
  · rw [decodeFrom_repeat hb hw hm hbyte, rldPending_rep (by rfl)]
    rfl

theorem checkSentinel_keeps_pending :
    rldPending s.mem s.params.rleEos (checkSentinel s).rld
      = some (decodeEnd s.mem s.params.rleEos s.rld.cur s.rld.out) := by
  rw [decodeEnd]
  rcases checkSentinel_cases s with ⟨hlen, e⟩ | ⟨hlen, heos, e⟩ | ⟨hlen, hne, e⟩ <;> rw [e]
  · rw [rldPending_rldRaise, read_eq_none hlen]
  · simp only [read_eq_leValue hlen, if_pos heos]
    rfl
  · simp only [rldPending_rldRaise, read_eq_leValue hlen, if_neg hne]

theorem rldRow_keeps_pending (h : RldRow s t) :
    rldPending s.mem s.params.rleEos t.rld = rldPending s.mem s.params.rleEos s.rld := by
  cases h with
  | loopEnds hp hb => rw [rldPending_head hp, decodeFrom_ends hb, rldPending_endRec (by rfl), setRld_rld]
  | countMissing hp hb hlen => rw [rldPending_head hp, decodeFrom_countMissing hb hlen, rldPending_rldRaise]
  | literal w hp hb hlen hm hw => rw [rldPending_head hp, startLiteral_keeps_pending hb hlen hw hm]
  | repeats w hp hb hlen hm hw => rw [rldPending_head hp, startRepeat_keeps_pending hb hlen hw hm]
  | literalByte hp hl hc =>
    obtain ⟨k, hk⟩ := Nat.exists_eq_add_of_le' hl
    have hrun : s.mem.window s.rld.cur (k + 1) = cellAt s.mem.cells s.rld.cur :: s.mem.window (s.rld.cur + 1) k :=
      if_pos hc
    rw [rldPending_lit hp, hk, hrun]
    by_cases h1 : k = 0
    · rw [rldPending_head (by simp [runPhase, h1])]
      simp only [setRld_rld, h1, Memory.window, Nat.zero_add]
    · rw [rldPending_lit (by simp [runPhase, h1])]
      simp only [setRld_rld, Nat.add_sub_cancel, List.append_assoc, List.singleton_append]
      congr 2
      omega
  | repeatByte hp hl =>
    obtain ⟨k, hk⟩ := Nat.exists_eq_add_of_le' hl
    rw [rldPending_rep hp, hk, List.replicate_succ]
    by_cases h1 : k = 0
    · rw [rldPending_head (by simp [runPhase, h1])]
      simp only [setRld_rld, h1, List.replicate_zero]
    · rw [rldPending_rep (by simp [runPhase, h1])]
      simp only [setRld_rld, Nat.add_sub_cancel, List.append_assoc, List.singleton_append]
  | sentinel hp => rw [rldPending_endRec hp, checkSentinel_keeps_pending]

/-! ### The run of a command -/

/-- What holds during a run of RLD from `s`, whose outcome is to be `o`: the host is silent, all but RLD is as in `s`,
and the pending outcome is `o`. -/
def RldRunning (s : State) (o : RldOutcome) (t : State) : Prop :=
  t.host = [] ∧ t.vbu = s.vbu ∧ t.mem = s.mem ∧ t.params = s.params ∧ t.rld.inv t.mem
    ∧ rldPending t.mem t.params.rleEos t.rld = some o

theorem RldRunning.step {s u : State} {o : RldOutcome} (hv : s.vbu.phase.busy = false) (h : RldRunning s o u)
    (hb : u.busy = true) :
    ∃ t, Machine.step u = .next t ∧ RldRunning s o t ∧ rldStepsLeft t.rld < rldStepsLeft u.rld := by
  obtain ⟨hh, hvbu, hmem, hparams, hinv, hpend⟩ := h
  have hv' : u.vbu.phase.busy = false := by rw [hvbu, hv]
  have hr : u.rld.phase.busy = true := by rwa [State.busy, hv', Bool.false_or] at hb
  obtain ⟨t, ht, hrow⟩ := rld_takes_row hh hv' hr hinv
  have hkeeps := rldRow_keeps_pending hrow
  have hinv' := rldRow_inv hrow hinv
  have hless := rldRow_stepsLeft hrow
  obtain ⟨r, n, rfl⟩ := BufferFrame.rldRow_rldOnly hrow
  exact ⟨_, ht, ⟨hh, hvbu, hmem, hparams, hinv', hkeeps.trans hpend⟩, hless⟩

end Sys2Proof.Proofs.RldRefinement

namespace Sys2Proof.Proofs

open Sys2Proof.Machine Sys2Proof.Laws HostActions Termination RldRefinement

/-- Settles O50: after the command the pending outcome is `RLD_decode`'s, and it stays so until the unit is not busy. -/
theorem rldRunYieldsTheBigStepOutcome : Obligations.RldRunYieldsTheBigStepOutcome := by
  intro s offset n hb ho
  have hv := (busy_eq_false_iff.mp hb).1
  have hstart : step (s.setHost [.rldDecode offset n]) = .next ((s.setHost []).startRld offset n) :=
    (step_rldDecode rfl).trans (exec_rldDecode_accepted n hb ho)
  have hrunning : RldRunning s (rldDecode s.mem s.params.rleEos offset n) ((s.setHost []).startRld offset n) :=
    ⟨rfl, rfl, rfl, rfl, BlockInvariant.startRld_inv _ _ _, rfl⟩
  obtain ⟨k, t, hk, hrun, ⟨-, hvbu, hmem, -, -, hpend⟩, ht⟩ :=
    runs_until_quiet (bound := fun u => rldStepsLeft u.rld) (fun _ h hb => h.step hv hb) _ _ hrunning (Nat.le_refl _)
  refine ⟨k, t, hk, (runSteps_next hstart).trans hrun, ?_, hvbu, hmem, ht⟩
  rw [rldOutcome_eq_pending (busy_eq_false_iff.mp ht).2, hpend]

end Sys2Proof.Proofs
end

section
/-! PROOF. A command sees nothing of the command before it (10_state.md R25). Two runs of a command over one buffer have
the same pending outcome from their start on; what is left to show is that they are busy in the same steps, for which it
is enough that the few registers that steer a unit agree. -/

namespace Sys2Proof.Proofs.Noninterference

open Sys2Proof.Machine Sys2Proof.Laws BlockEnds BufferReads HostActions Termination

variable {s s' t t' : State}

/-! ### VBU -/

section Vbu

open VbuRows VbuInvariant VbuRefinement

/-- Two VBUs are in the same phase with the same steering registers, or both have ended. -/
def SameVbuControl (v v' : VbuRegs) : Prop :=
  match v.phase with
  | .hdr => v'.phase = .hdr ∧ v'.cur = v.cur
  | .cnt => v'.phase = .cnt ∧ v'.cur = v.cur ∧ v'.sel = v.sel ∧ v'.bpv = v.bpv
  | .unpack => v'.phase = .unpack ∧ v'.count = v.count ∧ v'.idx = v.idx
  | .idle => v'.phase.busy = false
  | .done => v'.phase.busy = false
  | .fault => v'.phase.busy = false

theorem sameVbuControl_hdr {v v' : VbuRegs} (hp : v.phase = .hdr) :
    SameVbuControl v v' ↔ v'.phase = .hdr ∧ v'.cur = v.cur := by rw [SameVbuControl, hp]

theorem sameVbuControl_cnt {v v' : VbuRegs} (hp : v.phase = .cnt) :
    SameVbuControl v v' ↔ v'.phase = .cnt ∧ v'.cur = v.cur ∧ v'.sel = v.sel ∧ v'.bpv = v.bpv := by
  rw [SameVbuControl, hp]

theorem sameVbuControl_unpack {v v' : VbuRegs} (hp : v.phase = .unpack) :
    SameVbuControl v v' ↔ v'.phase = .unpack ∧ v'.count = v.count ∧ v'.idx = v.idx := by rw [SameVbuControl, hp]

theorem sameVbuControl_ended {v v' : VbuRegs} (hb : v.phase.busy = false) :
    SameVbuControl v v' ↔ v'.phase.busy = false := by
  unfold SameVbuControl
  split
  case h_1 hp | h_2 hp | h_3 hp =>
    rw [hp] at hb
    cases hb
  all_goals rfl

theorem SameVbuControl.busy_eq {v v' : VbuRegs} (h : SameVbuControl v v') : v'.phase.busy = v.phase.busy := by
  unfold SameVbuControl at h
  split at h
  case h_1 hp | h_2 hp | h_3 hp => rw [h.1, hp]
  all_goals
    rename_i hp
    rw [h, hp]
    rfl

theorem hdr_sameControl (hmem : s'.mem = s.mem) (hp : s.vbu.phase = .hdr) (hc : SameVbuControl s.vbu s'.vbu)
    (h : answer (vbuDue s) = .next t) (h' : answer (vbuDue s') = .next t') : SameVbuControl t.vbu t'.vbu := by
  obtain ⟨hp', hcur⟩ := (sameVbuControl_hdr hp).mp hc
  rcases vbuDue_hdr hp with ⟨hlen, e⟩ | ⟨hlt, e⟩ <;> rw [e] at h
  · rw [vbuDue_headerMissing hp' (by rwa [hmem, hcur])] at h'
    cases h
    cases h'
    rfl
  · rw [vbuDue_header hp' (by rwa [hmem, hcur]), hmem, hcur] at h'
    change exec (classify (headerSel _) (headerBpv _)) s = .next t at h
    change exec (classify (headerSel _) (headerBpv _)) s' = .next t' at h'
    rcases classify_cases (headerSel (cellAt s.mem.cells s.vbu.cur)) (headerBpv (cellAt s.mem.cells s.vbu.cur)) with
      ⟨e, -⟩ | ⟨e, -⟩ | ⟨-, ⟨e, -⟩ | ⟨e, -⟩ | ⟨e, -⟩⟩ <;> rw [e] at h h'
    · cases (exec_vbNone_hdr _ hp).symm.trans h
      cases (exec_vbNone_hdr _ hp').symm.trans h'
      rfl
    · cases (exec_vbRsv_hdr _ _ hp).symm.trans h
      cases (exec_vbRsv_hdr _ _ hp').symm.trans h'
      rfl
    all_goals
      cases (runCounted_hdr _ _ _ hp).symm.trans h
      cases (runCounted_hdr _ _ _ hp').symm.trans h'
      exact ⟨rfl, congrArg (· + 1) hcur, rfl, rfl⟩

theorem loadCount_sameControl {n : Nat} (hmem : s'.mem = s.mem) (hcur : s'.vbu.cur = s.vbu.cur)
    (hbpv : s'.vbu.bpv = s.vbu.bpv) (h : loadCount n s = .next t) (h' : loadCount n s' = .next t') :
    SameVbuControl t.vbu t'.vbu := by
  rcases loadCount_next h with ⟨hlen, rfl⟩ | ⟨c, e, hlen, rfl, rfl, ⟨he, rfl⟩ | ⟨he, h0, rfl⟩ | ⟨he, hc, hlt, rfl⟩⟩
  · rw [← hmem, ← hcur] at hlen
    cases (loadCount_countMissing hlen).symm.trans h'
    rfl
  all_goals
    have hr := read_eq_leValue hlen
    rw [← hmem, ← hcur] at hr he
    rw [← hbpv] at he
  · cases (loadCount_payloadMissing hr he).symm.trans h'
    rfl
  · rw [← hmem, ← hcur] at h0
    cases (loadCount_zero (hr.trans (congrArg some h0))).symm.trans h'
    rfl
  · rw [← hmem, ← hcur] at hc hlt
    rw [← hbpv] at hlt
    cases (loadCount_first hr hc rfl hlt he).symm.trans h'
    exact ⟨rfl, by rw [hmem, hcur]; rfl, rfl⟩

/-- Both kinds of unpack step count one value and end after the last. -/
theorem unpackStep_control (hp : s.vbu.phase = .unpack) (h : unpackStep s = .next t) :
    t.vbu.count = s.vbu.count ∧ t.vbu.idx = s.vbu.idx + 1
      ∧ t.vbu.phase = if s.vbu.idx + 1 = s.vbu.count.toNat then .done else .unpack := by
  rcases unpackStep_next h with ⟨-, ⟨-, rfl⟩ | ⟨-, -, -, rfl⟩⟩ <;>
    rw [setVbu_vbu, finishValue_eq _ (by exact hp)] <;> exact ⟨rfl, rfl, rfl⟩

theorem unpackStep_sameControl (hp : s.vbu.phase = .unpack) (hc : SameVbuControl s.vbu s'.vbu)
    (h : unpackStep s = .next t) (h' : unpackStep s' = .next t') : SameVbuControl t.vbu t'.vbu := by
  obtain ⟨hp', hcount, hidx⟩ := (sameVbuControl_unpack hp).mp hc
  obtain ⟨ht1, ht2, ht3⟩ := unpackStep_control hp h
  obtain ⟨ht1', ht2', ht3'⟩ := unpackStep_control hp' h'
  rw [hcount, hidx] at ht3'
  by_cases hlast : s.vbu.idx + 1 = s.vbu.count.toNat
  · rw [if_pos hlast] at ht3 ht3'
    exact (sameVbuControl_ended (by rw [ht3]; rfl)).mpr (by rw [ht3']; rfl)
  · rw [if_neg hlast] at ht3 ht3'
    exact (sameVbuControl_unpack ht3).mpr ⟨ht3', by rw [ht1', ht1, hcount], by rw [ht2', ht2, hidx]⟩

/-- A row of two VBUs that agree leaves them in agreement. -/
theorem vbuDue_sameControl (hmem : s'.mem = s.mem) (hinv : s.vbu.inv s.mem) (hinv' : s'.vbu.inv s'.mem)
    (hb : s.vbu.phase.busy = true) (hc : SameVbuControl s.vbu s'.vbu) (h : answer (vbuDue s) = .next t)
    (h' : answer (vbuDue s') = .next t') : SameVbuControl t.vbu t'.vbu := by
  obtain ⟨-, -, hph⟩ := inv_busy hinv hb
  obtain ⟨-, -, hph'⟩ := inv_busy hinv' (hc.busy_eq.trans hb)
  cases hp : s.vbu.phase with
  | hdr => exact hdr_sameControl hmem hp hc h h'
  | cnt =>
    obtain ⟨hp', hcur, hsel, hbpv⟩ := (sameVbuControl_cnt hp).mp hc
    obtain ⟨-, hlegal, -⟩ := (phaseInv_cnt hp).mp hph
    obtain ⟨f, hf, -⟩ := headerLegal_form hlegal
    rw [vbuDue_later (.inl hp), answer, exec_cnt hp rfl hf] at h
    rw [vbuDue_later (.inl hp'), answer, exec_cnt hp' rfl (by rwa [hsel, hbpv])] at h'
    exact loadCount_sameControl hmem hcur hbpv h h'
  | unpack =>
    obtain ⟨hp', -⟩ := (sameVbuControl_unpack hp).mp hc
    obtain ⟨f, hf, -⟩ := headerLegal_form (unpackInv_iff.mp ((phaseInv_unpack hp).mp hph)).1
    obtain ⟨f', hf', -⟩ := headerLegal_form (unpackInv_iff.mp ((phaseInv_unpack hp').mp hph')).1
    rw [vbuDue_later (.inr hp), answer, exec_unpack hp rfl hf] at h
    rw [vbuDue_later (.inr hp'), answer, exec_unpack hp' rfl hf'] at h'
    exact unpackStep_sameControl hp hc h h'
  | idle | done | fault =>
    rw [hp] at hb
    cases hb

/-- While a command runs the outcome is there exactly when the unit is not busy, and then it is the pending one. -/
theorem vbuOutcome_of_running {o : VbuOutcome} (h : VbuRunning s o t) :
    t.vbuOutcome = if t.vbu.phase.busy then none else some o := by
  obtain ⟨-, -, -, -, hpend⟩ := h
  cases hb : t.vbu.phase.busy with
  | false =>
    rw [vbuOutcome_eq_pending hb, hpend]
    rfl
  | true =>
    rw [State.vbuOutcome]
    cases hp : t.vbu.phase with
    | hdr | cnt | unpack => rfl
    | idle | done | fault =>
      rw [hp] at hb
      cases hb

/-- Two runs of one command that agree give the same outcome after as many steps. -/
theorem vbuRuns_agree {o : VbuOutcome} (hmem : s'.mem = s.mem) (hr : s.rld.phase.busy = false)
    (hr' : s'.rld.phase.busy = false) : ∀ (n : Nat) {u u' : State}, VbuRunning s o u → VbuRunning s' o u' →
    SameVbuControl u.vbu u'.vbu → runSteps n u = .next t → runSteps n u' = .next t' → t.vbuOutcome = t'.vbuOutcome
  | 0, u, u', hu, hu', hc, h, h' => by
    cases h
    cases h'
    rw [vbuOutcome_of_running hu, vbuOutcome_of_running hu', hc.busy_eq]
  | n + 1, u, u', hu, hu', hc, h, h' => by
    obtain ⟨w, hw, hrun⟩ := runSteps_split h
    obtain ⟨w', hw', hrun'⟩ := runSteps_split h'
    obtain ⟨hh, hrld, hm, hinv, -⟩ := id hu
    obtain ⟨hh', hrld', hm', hinv', -⟩ := id hu'
    cases hb : u.vbu.phase.busy with
    | true =>
      have hb' : u'.vbu.phase.busy = true := hc.busy_eq.trans hb
      obtain ⟨v, hv, hnext, -⟩ := hu.step hr (by rw [State.busy, hb, Bool.true_or])
      obtain ⟨v', hv', hnext', -⟩ := hu'.step hr' (by rw [State.busy, hb', Bool.true_or])
      cases hv.symm.trans hw
      cases hv'.symm.trans hw'
      have hdue := (step_vbu hh (by rw [hrld, hr]) hb).symm.trans hw
      have hdue' := (step_vbu hh' (by rw [hrld', hr']) hb').symm.trans hw'
      exact vbuRuns_agree hmem hr hr' n hnext hnext'
        (vbuDue_sameControl (by rw [hm', hm, hmem]) hinv hinv' hb hc hdue hdue') hrun hrun'
    | false =>
      have hb' : u'.vbu.phase.busy = false := hc.busy_eq.trans hb
      cases (step_quiet hh (busy_eq_false_iff.mpr ⟨hb, by rw [hrld, hr]⟩)).symm.trans hw
      cases (step_quiet hh' (busy_eq_false_iff.mpr ⟨hb', by rw [hrld', hr']⟩)).symm.trans hw'
      exact vbuRuns_agree hmem hr hr' n hu hu' hc hrun hrun'

end Vbu

/-! ### RLD -/

section Rld

open RunLoop RldRows RldInvariant RldRefinement

/-- Two RLDs are in the same phase with the same steering registers, or both have ended. -/
def SameRldControl (r r' : RldRegs) : Prop :=
  match r.phase with
  | .head => r'.phase = .head ∧ r'.cur = r.cur ∧ r'.budget = r.budget
  | .lit => r'.phase = .lit ∧ r'.cur = r.cur ∧ r'.budget = r.budget ∧ r'.left = r.left
  | .rep => r'.phase = .rep ∧ r'.cur = r.cur ∧ r'.budget = r.budget ∧ r'.left = r.left
  | .endRec => r'.phase = .endRec
  | .idle => r'.phase.busy = false
  | .done => r'.phase.busy = false
  | .fault => r'.phase.busy = false

theorem sameRldControl_head {r r' : RldRegs} (hp : r.phase = .head) :
    SameRldControl r r' ↔ r'.phase = .head ∧ r'.cur = r.cur ∧ r'.budget = r.budget := by rw [SameRldControl, hp]

theorem sameRldControl_lit {r r' : RldRegs} (hp : r.phase = .lit) :
    SameRldControl r r' ↔ r'.phase = .lit ∧ r'.cur = r.cur ∧ r'.budget = r.budget ∧ r'.left = r.left := by
  rw [SameRldControl, hp]

theorem sameRldControl_rep {r r' : RldRegs} (hp : r.phase = .rep) :
    SameRldControl r r' ↔ r'.phase = .rep ∧ r'.cur = r.cur ∧ r'.budget = r.budget ∧ r'.left = r.left := by
  rw [SameRldControl, hp]

theorem sameRldControl_endRec {r r' : RldRegs} (hp : r.phase = .endRec) :
    SameRldControl r r' ↔ r'.phase = .endRec := by rw [SameRldControl, hp]

theorem sameRldControl_ended {r r' : RldRegs} (hb : r.phase.busy = false) :
    SameRldControl r r' ↔ r'.phase.busy = false := by
  unfold SameRldControl
  split
  case h_1 hp | h_2 hp | h_3 hp | h_4 hp =>
    rw [hp] at hb
    cases hb
  all_goals rfl

theorem SameRldControl.busy_eq {r r' : RldRegs} (h : SameRldControl r r') : r'.phase.busy = r.phase.busy := by
  unfold SameRldControl at h
  split at h
  case h_1 hp | h_2 hp | h_3 hp => rw [h.1, hp]
  case h_4 hp => rw [h, hp]
  all_goals
    rename_i hp
    rw [h, hp]
    rfl

theorem startLiteral_sameControl (w : Half) (hmem : s'.mem = s.mem) (hcur : s'.rld.cur = s.rld.cur)
    (hbudget : s'.rld.budget = s.rld.budget) :
    SameRldControl (startLiteral w s).rld (startLiteral w s').rld := by
  rcases startLiteral_cases w s with ⟨hrun, e⟩ | ⟨hrun, e⟩ <;> rw [e] <;> rw [← hmem, ← hcur] at hrun
  · rw [startLiteral_missing hrun]
    rfl
  · rw [startLiteral_inside hrun]
    by_cases h0 : literalLen w = 0
    · refine (sameRldControl_head (by simp [h0])).mpr ⟨by simp [h0], ?_, ?_⟩ <;>
        simp only [setRld_rld, hcur, hbudget]
    · refine (sameRldControl_lit (by simp [h0])).mpr ⟨by simp [h0], ?_, ?_, rfl⟩ <;>
        simp only [setRld_rld, hcur, hbudget]

theorem startRepeat_sameControl (w : Half) (hmem : s'.mem = s.mem) (hcur : s'.rld.cur = s.rld.cur)
    (hbudget : s'.rld.budget = s.rld.budget) :
    SameRldControl (startRepeat w s).rld (startRepeat w s').rld := by
  rcases startRepeat_cases w s with ⟨hrun, e⟩ | ⟨hrun, e⟩ <;> rw [e] <;> rw [← hmem, ← hcur] at hrun
  · rw [startRepeat_missing hrun]
    rfl
  · rw [startRepeat_inside hrun]
    refine (sameRldControl_rep (by rfl)).mpr ⟨rfl, ?_, ?_, rfl⟩ <;> simp only [setRld_rld, hcur, hbudget]

theorem head_sameControl (hmem : s'.mem = s.mem) (hp : s.rld.phase = .head) (hc : SameRldControl s.rld s'.rld)
    (h : answer (rldDue s) = .next t) (h' : answer (rldDue s') = .next t') : SameRldControl t.rld t'.rld := by
  obtain ⟨hp', hcur, hbudget⟩ := (sameRldControl_head hp).mp hc
  rcases rldDue_head hp with ⟨hends, e⟩ | ⟨hgoes, hlen, e⟩ | ⟨hgoes, hlen, e⟩ <;> rw [e] at h
  · rw [rldDue_loopEnds hp' (by rwa [hbudget])] at h'
    cases h
    cases h'
    rfl
  · rw [rldDue_countMissing hp' (by rwa [hbudget]) (by rwa [hmem, hcur])] at h'
    cases h
    cases h'
    rfl
  · rw [rldDue_record hp' (by rwa [hbudget]) (by rwa [hmem, hcur]), hmem, hcur] at h'
    change exec (decodeRecord (fieldAt s.mem s.rld.cur)) s = .next t at h
    change exec (decodeRecord (fieldAt s.mem s.rld.cur)) s' = .next t' at h'
    revert h h'
    rw [decodeRecord]
    split
    · intro h h'
      cases (exec_rlRep_head hp hgoes).symm.trans h
      cases (exec_rlRep_head hp' (by rwa [hbudget])).symm.trans h'
      exact startRepeat_sameControl _ hmem hcur hbudget
    · intro h h'
      cases (exec_rlLit_head hp hgoes).symm.trans h
      cases (exec_rlLit_head hp' (by rwa [hbudget])).symm.trans h'
      exact startLiteral_sameControl _ hmem hcur hbudget

theorem literalByte_sameControl (hp : s.rld.phase = .lit) (hc : SameRldControl s.rld s'.rld)
    (h : literalByte s = .next t) (h' : literalByte s' = .next t') : SameRldControl t.rld t'.rld := by
  obtain ⟨-, hcur, hbudget, hleft⟩ := (sameRldControl_lit hp).mp hc
  obtain ⟨-, -, rfl⟩ := literalByte_next h
  obtain ⟨-, -, rfl⟩ := literalByte_next h'
  by_cases h1 : s.rld.left = 1
  · refine (sameRldControl_head (by simp [runPhase, h1])).mpr ⟨by simp [runPhase, hleft, h1], ?_, hbudget⟩
    simp only [setRld_rld, hcur]
  · refine (sameRldControl_lit (by simp [runPhase, h1])).mpr ⟨by simp [runPhase, hleft, h1], ?_, hbudget, ?_⟩ <;>
      simp only [setRld_rld, hcur, hleft]

theorem repeatByte_sameControl (hp : s.rld.phase = .rep) (hc : SameRldControl s.rld s'.rld)
    (h : repeatByte s = .next t) (h' : repeatByte s' = .next t') : SameRldControl t.rld t'.rld := by
  obtain ⟨-, hcur, hbudget, hleft⟩ := (sameRldControl_rep hp).mp hc
  obtain ⟨-, rfl⟩ := repeatByte_next h
  obtain ⟨-, rfl⟩ := repeatByte_next h'
  by_cases h1 : s.rld.left = 1
  · exact (sameRldControl_head (by simp [runPhase, h1])).mpr ⟨by simp [runPhase, hleft, h1], hcur, hbudget⟩
  · refine (sameRldControl_rep (by simp [runPhase, h1])).mpr ⟨by simp [runPhase, hleft, h1], hcur, hbudget, ?_⟩
    simp only [setRld_rld, hleft]

theorem checkSentinel_not_busy (s : State) : (checkSentinel s).rld.phase.busy = false := by
  rcases checkSentinel_cases s with ⟨-, e⟩ | ⟨-, -, e⟩ | ⟨-, -, e⟩ <;> rw [e] <;> rfl

/-- A row of two RLDs that agree leaves them in agreement. -/
theorem rldDue_sameControl (hmem : s'.mem = s.mem) (hb : s.rld.phase.busy = true) (hc : SameRldControl s.rld s'.rld)
    (h : answer (rldDue s) = .next t) (h' : answer (rldDue s') = .next t') : SameRldControl t.rld t'.rld := by
  cases hp : s.rld.phase with
  | head => exact head_sameControl hmem hp hc h h'
  | lit =>
    obtain ⟨hp', -⟩ := (sameRldControl_lit hp).mp hc
    rw [rldDue_lit hp, answer, exec_rlLit_lit hp] at h
    rw [rldDue_lit hp', answer, exec_rlLit_lit hp'] at h'
    exact literalByte_sameControl hp hc h h'
  | rep =>
    obtain ⟨hp', -⟩ := (sameRldControl_rep hp).mp hc
    rw [rldDue_rep hp, answer, exec_rlRep_rep hp] at h
    rw [rldDue_rep hp', answer, exec_rlRep_rep hp'] at h'
    exact repeatByte_sameControl hp hc h h'
  | endRec =>
    have hp' := (sameRldControl_endRec hp).mp hc
    rw [rldDue_endRec hp, answer, exec_rlEnd_endRec hp] at h
    rw [rldDue_endRec hp', answer, exec_rlEnd_endRec hp'] at h'
    cases h
    cases h'
    exact (sameRldControl_ended (checkSentinel_not_busy s)).mpr (checkSentinel_not_busy s')
  | idle | done | fault =>
    rw [hp] at hb
    cases hb

/-- While a command runs the outcome is there exactly when the unit is not busy, and then it is the pending one. -/
theorem rldOutcome_of_running {o : RldOutcome} (h : RldRunning s o t) :
    t.rldOutcome = if t.rld.phase.busy then none else some o := by
  obtain ⟨-, -, -, -, -, hpend⟩ := h
  cases hb : t.rld.phase.busy with
  | false =>
    rw [rldOutcome_eq_pending hb, hpend]
    rfl
  | true =>
    rw [State.rldOutcome]
    cases hp : t.rld.phase with
    | head | lit | rep | endRec => rfl
    | idle | done | fault =>
      rw [hp] at hb
      cases hb

/-- Two runs of one command that agree give the same outcome after as many steps. -/
theorem rldRuns_agree {o : RldOutcome} (hmem : s'.mem = s.mem) (hv : s.vbu.phase.busy = false)
    (hv' : s'.vbu.phase.busy = false) : ∀ (n : Nat) {u u' : State}, RldRunning s o u → RldRunning s' o u' →
    SameRldControl u.rld u'.rld → runSteps n u = .next t → runSteps n u' = .next t' → t.rldOutcome = t'.rldOutcome
  | 0, u, u', hu, hu', hc, h, h' => by
    cases h
    cases h'
    rw [rldOutcome_of_running hu, rldOutcome_of_running hu', hc.busy_eq]
  | n + 1, u, u', hu, hu', hc, h, h' => by
    obtain ⟨w, hw, hrun⟩ := runSteps_split h
    obtain ⟨w', hw', hrun'⟩ := runSteps_split h'
    obtain ⟨hh, hvbu, hm, -⟩ := id hu
    obtain ⟨hh', hvbu', hm', -⟩ := id hu'
    cases hb : u.rld.phase.busy with
    | true =>
      have hb' : u'.rld.phase.busy = true := hc.busy_eq.trans hb
      obtain ⟨r, hr, hnext, -⟩ := hu.step hv (by rw [State.busy, hb, Bool.or_true])
      obtain ⟨r', hr', hnext', -⟩ := hu'.step hv' (by rw [State.busy, hb', Bool.or_true])
      cases hr.symm.trans hw
      cases hr'.symm.trans hw'
      have hdue := (step_rld hh (by rw [hvbu, hv]) hb).symm.trans hw
      have hdue' := (step_rld hh' (by rw [hvbu', hv']) hb').symm.trans hw'
      exact rldRuns_agree hmem hv hv' n hnext hnext'
        (rldDue_sameControl (by rw [hm', hm, hmem]) hb hc hdue hdue') hrun hrun'
    | false =>
      have hb' : u'.rld.phase.busy = false := hc.busy_eq.trans hb
      cases (step_quiet hh (busy_eq_false_iff.mpr ⟨by rw [hvbu, hv], hb⟩)).symm.trans hw
      cases (step_quiet hh' (busy_eq_false_iff.mpr ⟨by rw [hvbu', hv'], hb'⟩)).symm.trans hw'
      exact rldRuns_agree hmem hv hv' n hu hu' hc hrun hrun'

end Rld

/-! ### The start of a command -/

/-- If a run that begins with `VBU.READ` answers a next state, the command was accepted and is running. -/
theorem runSteps_vbuRead {n offset : Nat}
    (h : runSteps (n + 1) (s.setHost [.vbuRead offset]) = .next t) :
    runSteps n ((s.setHost []).startVbu offset) = .next t
      ∧ VbuRefinement.VbuRunning s (vbuRead s.mem offset) ((s.setHost []).startVbu offset) := by
  obtain ⟨u, hu, hrun⟩ := runSteps_split h
  obtain ⟨-, -, rfl⟩ := execVbuRead_next ((step_vbuRead rfl).symm.trans hu)
  exact ⟨hrun, rfl, rfl, rfl, BlockInvariant.startVbu_inv _ _, rfl⟩

/-- If a run that begins with `RLD.DECODE` answers a next state, the command was accepted and is running. -/
theorem runSteps_rldDecode {n offset : Nat} {k : BitVec 32}
    (h : runSteps (n + 1) (s.setHost [.rldDecode offset k]) = .next t) :
    runSteps n ((s.setHost []).startRld offset k) = .next t
      ∧ RldRefinement.RldRunning s (rldDecode s.mem s.params.rleEos offset k) ((s.setHost []).startRld offset k) := by
  obtain ⟨u, hu, hrun⟩ := runSteps_split h
  obtain ⟨-, -, rfl⟩ := execRldDecode_next ((step_rldDecode rfl).symm.trans hu)
  exact ⟨hrun, rfl, rfl, rfl, rfl, BlockInvariant.startRld_inv _ _ _, rfl⟩

end Sys2Proof.Proofs.Noninterference

namespace Sys2Proof.Proofs

open Sys2Proof.Machine Sys2Proof.Laws HostActions Noninterference

/-- Settles O54: both runs of a command start in agreement with one pending outcome, which depends on the buffer and the
parameters only. -/
theorem commandsSeeNothingOfTheCommandBefore : Obligations.CommandsSeeNothingOfTheCommandBefore := by
  intro s s' n hmem hparams hb hb'
  obtain ⟨hv, hr⟩ := busy_eq_false_iff.mp hb
  obtain ⟨hv', hr'⟩ := busy_eq_false_iff.mp hb'
  refine ⟨fun offset t t' h h' => ?_, fun offset k t t' h h' => ?_⟩
  · obtain ⟨hrun, hrunning⟩ := runSteps_vbuRead h
    obtain ⟨hrun', hrunning'⟩ := runSteps_vbuRead h'
    rw [← hmem] at hrunning'
    exact vbuRuns_agree hmem.symm hr hr' n hrunning hrunning' ⟨rfl, rfl⟩ hrun hrun'
  · obtain ⟨hrun, hrunning⟩ := runSteps_rldDecode h
    obtain ⟨hrun', hrunning'⟩ := runSteps_rldDecode h'
    rw [← hmem, ← hparams] at hrunning'
    exact rldRuns_agree hmem.symm hv hv' n hrunning hrunning' ⟨rfl, rfl, rfl⟩ hrun hrun'

end Sys2Proof.Proofs
end

section
/-! PROOF. The reference encoder of 30_encoding.md R57 and `RLD_decode` are inverse: the loop takes one turn a record,
and a record holds the bytes it stands for. -/

namespace Sys2Proof.Proofs.HeldBytes

open Sys2Proof.Machine Sys2Proof.Laws BufferReads

/-- A buffer holds a sequence of bytes from an address on. -/
def Holds (m : Memory) : Nat → List Byte → Prop
  | a, [] => a ≤ m.len
  | a, b :: rest => a < m.len ∧ cellAt m.cells a = b ∧ Holds m (a + 1) rest

variable {m : Memory}

theorem Holds.le_len : ∀ {bytes : List Byte} {a : Nat}, Holds m a bytes → a + bytes.length ≤ m.len
  | [], _, h => h
  | _ :: rest, a, ⟨_, _, h⟩ => by
    have := h.le_len
    rw [List.length_cons]
    omega

theorem holds_append : ∀ {xs ys : List Byte} {a : Nat},
    Holds m a (xs ++ ys) ↔ Holds m a xs ∧ Holds m (a + xs.length) ys
  | [], ys, a => ⟨fun h => ⟨(Nat.le_add_right _ _).trans h.le_len, h⟩, fun h => h.2⟩
  | x :: xs, ys, a => by
    rw [List.cons_append, Holds, Holds, holds_append, List.length_cons, Nat.add_right_comm, and_assoc, and_assoc,
      Nat.add_assoc]

/-- A loaded buffer holds its bytes from every position on. -/
theorem holds_drop (bytes : List Byte) : ∀ (k a : Nat), a + k = bytes.length →
    Holds (Memory.ofBytes bytes) a (bytes.drop a)
  | 0, a, h => by
    rw [List.drop_eq_nil_of_le (by omega)]
    exact h.le
  | k + 1, a, h => by
    have ha : a < bytes.length := by omega
    have hcell := cellAt_cellsFrom bytes 0 ha
    rw [Nat.zero_add] at hcell
    rw [List.drop_eq_getElem_cons ha]
    exact ⟨ha, hcell, holds_drop bytes k (a + 1) (by omega)⟩

theorem holds_middle (before bytes after : List Byte) :
    Holds (Memory.ofBytes (before ++ bytes ++ after)) before.length bytes := by
  have h := holds_drop (before ++ bytes ++ after) (bytes.length + after.length) before.length
    (by simp only [List.length_append]; omega)
  rw [List.append_assoc, List.drop_left] at h
  rw [List.append_assoc]
  exact (holds_append.mp h).1

theorem Holds.window_eq : ∀ {bytes : List Byte} {a : Nat}, Holds m a bytes → m.window a bytes.length = bytes
  | [], _, _ => rfl
  | b :: rest, a, ⟨ha, hcell, h⟩ => by
    rw [List.length_cons, Memory.window, if_pos ha, hcell, h.window_eq]

/-! ### Little-endian numbers -/

theorem leValue_succ_low (m : Memory) (a : Nat) : ∀ n,
    m.leValue a (n + 1) = m.byteVal a + 256 * m.leValue (a + 1) n
  | 0 => by simp [Memory.leValue]
  | n + 1 => by
    rw [Memory.leValue, leValue_succ_low m a n, Memory.leValue, Nat.mul_add 8, pow_add, Nat.mul_add, Nat.add_assoc a,
      Nat.add_comm 1 n]
    ring

theorem length_leBytes : ∀ (n v : Nat), (leBytes v n).length = n
  | 0, _ => rfl
  | n + 1, v => congrArg (· + 1) (length_leBytes n (v / 256))

theorem Holds.leValue_eq : ∀ {n v a : Nat}, Holds m a (leBytes v n) → m.leValue a n = v % 2 ^ (8 * n)
  | 0, v, _, _ => (Nat.mod_one v).symm
  | n + 1, v, a, ⟨_, hcell, h⟩ => by
    have hlow : m.byteVal a = v % 256 := by rw [Memory.byteVal, hcell, BitVec.toNat_ofNat]
    have hpow : 2 ^ (8 * (n + 1)) = 256 * 2 ^ (8 * n) := by
      rw [Nat.mul_add, pow_add, Nat.mul_comm]
      rfl
    rw [leValue_succ_low, h.leValue_eq, hlow, hpow, Nat.mod_mul]

end Sys2Proof.Proofs.HeldBytes

namespace Sys2Proof.Proofs.RleRoundTrip

open Sys2Proof.Machine Sys2Proof.Laws BufferReads HeldBytes RldRefinement StepFrames

/-! ### Runs of the encoder -/

theorem runLength_le : ∀ (cap : Nat) (data : List Byte), runLength cap data ≤ cap
  | 0, _ => Nat.le_refl 0
  | _ + 1, [] => Nat.zero_le _
  | cap + 1, [_] => Nat.succ_le_succ (Nat.zero_le cap)
  | cap + 1, b :: b' :: rest => by
    rw [runLength]
    split
    · exact Nat.succ_le_succ (runLength_le cap (b' :: rest))
    · exact Nat.succ_le_succ (Nat.zero_le cap)

/-- The run at the start of a sequence is its first byte, so many times. -/
theorem take_runLength : ∀ (cap : Nat) (b : Byte) (rest : List Byte),
    (b :: rest).take (runLength cap (b :: rest)) = List.replicate (runLength cap (b :: rest)) b
  | 0, _, _ => rfl
  | _ + 1, _, [] => rfl
  | cap + 1, b, b' :: rest => by
    rw [runLength]
    split
    · rename_i heq
      rw [List.take_succ_cons, heq, take_runLength cap b rest, List.replicate_succ]
    · rfl

theorem literalSpan_le : ∀ (cap : Nat) (data : List Byte),
    literalSpan cap data ≤ cap ∧ literalSpan cap data ≤ data.length
  | 0, _ => ⟨Nat.le_refl 0, Nat.zero_le _⟩
  | _ + 1, [] => ⟨Nat.zero_le _, Nat.le_refl 0⟩
  | cap + 1, b :: rest => by
    rw [literalSpan]
    split
    · exact ⟨Nat.zero_le _, Nat.zero_le _⟩
    · obtain ⟨hcap, hlen⟩ := literalSpan_le cap rest
      exact ⟨Nat.succ_le_succ hcap, Nat.succ_le_succ hlen⟩

theorem literalSpan_pos {b : Byte} {rest : List Byte} (cap : Nat) (h : ¬ 3 ≤ runLength 32767 (b :: rest)) :
    1 ≤ literalSpan (cap + 1) (b :: rest) := by
  rw [literalSpan, if_neg h]
  exact Nat.succ_le_succ (Nat.zero_le _)

/-! ### The fields of a record -/

variable {m : Memory} {eos : Half} {cur : Nat} {out : List Byte}

theorem i16le_length (x : Int) : (i16le x).length = 2 := length_leBytes 2 _

/-- A held 16-bit field is read back. -/
theorem leValue_i16le {x : Int} (h : Holds m cur (i16le x)) : (BitVec.ofInt 16 x).toNat = m.leValue cur 2 := by
  rw [h.leValue_eq]
  exact (Nat.mod_eq_of_lt (BitVec.ofInt 16 x).isLt).symm

theorem toInt_ofInt_half {x : Int} (hlo : -32768 ≤ x) (hhi : x < 32768) : (BitVec.ofInt 16 x).toInt = x :=
  BitVec.toInt_ofInt_eq_self (by decide) hlo hhi

/-- The count of a repeat record: negative, with its run as its length (30_encoding.md R49). -/
theorem repeat_count {r : Nat} (h3 : 3 ≤ r) (hmax : r ≤ 32767) :
    (BitVec.ofInt 16 (-(r : Int))).msb = true ∧ repeatLen (BitVec.ofInt 16 (-(r : Int))) = r := by
  have hval := toInt_ofInt_half (x := -(r : Int)) (by omega) (by omega)
  rw [BitVec.msb_eq_toInt, repeatLen, hval, decide_eq_true_iff]
  omega

/-- The count of a literal record: not negative, with its run as its length (30_encoding.md R48). -/
theorem literal_count {q : Nat} (hmax : q ≤ 32767) :
    (BitVec.ofInt 16 (q : Int)).msb = false ∧ literalLen (BitVec.ofInt 16 (q : Int)) = q := by
  have hval := toInt_ofInt_half (x := (q : Int)) (by omega) (by omega)
  have hnat := RldRows.toInt_of_nonneg (cnt := BitVec.ofInt 16 (q : Int)) (by omega)
  rw [BitVec.msb_eq_toInt, literalLen, hval, decide_eq_false_iff_not]
  omega

/-! ### One turn of the loop a record -/

/-- A record stands for a sequence: where a buffer holds it, the loop takes one turn over it and delivers the sequence,
for as much of the budget as the record has bytes. -/
def StandsFor (record data : List Byte) : Prop :=
  3 ≤ record.length ∧ ∀ (m : Memory) (eos : Half) (cur : Nat) (budget : Int) (out : List Byte), 3 ≤ budget →
    Holds m cur record → decodeFrom m eos cur budget out
      = decodeFrom m eos (cur + record.length) (budget - record.length) (out ++ data)

theorem length_repeatRecord (r : Nat) (b : Byte) : (repeatRecord r b).length = 3 := by
  rw [repeatRecord, List.length_append, i16le_length, List.length_singleton]

theorem length_literalRecord (data : List Byte) : (literalRecord data).length = 2 + data.length := by
  rw [literalRecord, List.length_append, i16le_length]

theorem repeatRecord_standsFor {r : Nat} (b : Byte) (h3 : 3 ≤ r) (hmax : r ≤ 32767) :
    StandsFor (repeatRecord r b) (List.replicate r b) := by
  refine ⟨(length_repeatRecord r b).ge, fun m eos cur budget out hb h => ?_⟩
  obtain ⟨hcount, hbyte⟩ := holds_append.mp h
  rw [i16le_length] at hbyte
  obtain ⟨hlt, hcell, -⟩ := hbyte
  obtain ⟨hm, hlen⟩ := repeat_count h3 hmax
  rw [decodeFrom_repeat hb (leValue_i16le hcount) hm hlt, hlen, hcell, length_repeatRecord]
  rfl

theorem literalRecord_standsFor {data : List Byte} (h1 : 1 ≤ data.length) (hmax : data.length ≤ 32767) :
    StandsFor (literalRecord data) data := by
  refine ⟨by rw [length_literalRecord]; omega, fun m eos cur budget out hb h => ?_⟩
  obtain ⟨hcount, hdata⟩ := holds_append.mp h
  rw [i16le_length] at hdata
  obtain ⟨hm, hlen⟩ := literal_count hmax
  rw [decodeFrom_literal hb (leValue_i16le hcount) hm (by rw [hlen]; exact hdata.le_len), literalCost, hlen,
    hdata.window_eq, length_literalRecord, Nat.add_assoc, Nat.cast_add]
  rfl

/-- The encoder's first record stands for a piece of the sequence at its start, and the other records are the rest's. -/
theorem encodeRecords_cons (fuel : Nat) (b : Byte) (rest : List Byte) : ∃ record k, 1 ≤ k
    ∧ StandsFor record ((b :: rest).take k)
    ∧ encodeRecords (fuel + 1) (b :: rest) = record ++ encodeRecords fuel ((b :: rest).drop k) := by
  by_cases h3 : 3 ≤ runLength 32767 (b :: rest)
  · refine ⟨_, runLength 32767 (b :: rest), Nat.le_of_succ_le (Nat.le_of_succ_le h3), ?_, if_pos h3⟩
    rw [take_runLength]
    exact repeatRecord_standsFor b h3 (runLength_le _ _)
  · obtain ⟨hcap, hlen⟩ := literalSpan_le 32767 (b :: rest)
    have hpos : 1 ≤ literalSpan 32767 (b :: rest) := literalSpan_pos 32766 h3
    have htake : ((b :: rest).take (literalSpan 32767 (b :: rest))).length = literalSpan 32767 (b :: rest) :=
      List.length_take_of_le hlen
    exact ⟨_, _, hpos, literalRecord_standsFor (hpos.trans htake.ge) (htake.le.trans hcap), if_neg h3⟩

/-- The loop goes through the records and delivers the sequence, with `after` of the budget left. -/
theorem decodeFrom_records (after : Nat) : ∀ (fuel : Nat) (data : List Byte) (cur : Nat) (out : List Byte),
    data.length ≤ fuel → Holds m cur (encodeRecords fuel data) →
    decodeFrom m eos cur ((encodeRecords fuel data).length + after) out
      = decodeFrom m eos (cur + (encodeRecords fuel data).length) after (out ++ data)
  | 0, data, cur, out, hfuel, _ => by
    rw [List.length_eq_zero_iff.mp (Nat.le_zero.mp hfuel)]
    simp [encodeRecords]
  | _ + 1, [], cur, out, _, _ => by simp [encodeRecords]
  | fuel + 1, b :: rest, cur, out, hfuel, h => by
    obtain ⟨record, k, hk, ⟨hlen, hdecode⟩, e⟩ := encodeRecords_cons fuel b rest
    rw [e] at h ⊢
    obtain ⟨hrecord, hrest⟩ := holds_append.mp h
    have hless : ((b :: rest).drop k).length ≤ fuel := by
      rw [List.length_drop]
      omega
    have hbudget : ((record ++ encodeRecords fuel ((b :: rest).drop k)).length + after : Int) - record.length
        = (encodeRecords fuel ((b :: rest).drop k)).length + after := by
      rw [List.length_append]
      omega
    rw [hdecode _ _ _ _ _ (by rw [List.length_append]; omega) hrecord, hbudget,
      decodeFrom_records after fuel _ _ _ hless hrest, List.append_assoc, List.take_append_drop, List.length_append,
      Nat.add_assoc]

/-- The end of the stream: the two bytes of `RLE_EOS`, for a budget of 2. -/
theorem decodeFrom_eos (h : Holds m cur (i16le eos.toInt)) : decodeFrom m eos cur 2 out = .bytes out := by
  have hlen := h.le_len
  have heos := leValue_i16le h
  rw [i16le_length] at hlen
  rw [BitVec.ofInt_toInt] at heos
  rw [decodeFrom_ends (by decide), decodeEnd, read_eq_leValue hlen]
  exact if_pos (ofNat_leValue_eq heos)

end Sys2Proof.Proofs.RleRoundTrip

namespace Sys2Proof.Proofs

open Sys2Proof.Machine HeldBytes RldRefinement RleRoundTrip

/-- Settles O53: the budget is that of the records and the sentinel, which the loop and the end record take in turn. -/
theorem encodedBytesDecodeBack : Obligations.EncodedBytesDecodeBack := by
  intro eos data before after hlen
  obtain ⟨hrecords, heos⟩ := holds_append.mp (holds_middle before (encodeRle eos data) after)
  have hbudget : ((BitVec.ofNat 32 (encodeRle eos data).length).toNat : Int)
      = (encodeRecords data.length data).length + (2 : Nat) := by
    rw [BitVec.toNat_ofNat, Nat.mod_eq_of_lt hlen, encodeRle, List.length_append, i16le_length, Nat.cast_add]
  rw [rldDecode_eq, hbudget, decodeFrom_records 2 _ _ _ _ (Nat.le_refl _) hrecords]
  exact decodeFrom_eos heos

end Sys2Proof.Proofs
end

section
/-! PROOF. The reference packer of 30_encoding.md R56 and `VBU_read` are inverse: the payload's words are the 32-bit
pieces of the packed bit string, so the bits the unit takes for a value are the bits the packer wrote for it. -/

namespace Sys2Proof.Proofs.PackRoundTrip

open Sys2Proof.Machine Sys2Proof.Laws BlockEnds BufferReads VbuRows VbuRefinement Encoding HeldBytes PackedBits

/-! ### Slices of the packed bit string -/

/-- A bit string, given as a number of `len` bits, is read from its most significant end. -/
theorem bitsValue_testBit {bit : Nat → Bool} {v len : Nat}
    (hbit : ∀ p < len, bit p = v.testBit (len - 1 - p)) (p : Nat) :
    ∀ n, p + n ≤ len → bitsValue bit p n = slice v (len - p - n) n
  | 0, _ => (slice_zero_width _ _).symm
  | n + 1, hn => by
    have hlow : len - p - n = len - p - (n + 1) + 1 := by omega
    have hplace : len - 1 - (p + n) = len - p - (n + 1) := by omega
    have hdigit : (if bit (p + n) then 1 else 0) = v / 2 ^ (len - p - (n + 1)) % 2 := by
      rw [hbit (p + n) (by omega), hplace, Nat.testBit_eq_decide_div_mod_eq]
      rcases Nat.mod_two_eq_zero_or_one (v / 2 ^ (len - p - (n + 1))) with h0 | h1
      · simp [h0]
      · simp [h1]
    rw [bitsValue, bitsValue_testBit hbit p n (by omega), hdigit, slice_succ, hlow]

/-- Zeros below a number move its slices up. -/
theorem slice_shifted (v d lo n : Nat) : slice (v * 2 ^ d) (d + lo) n = slice v lo n := by
  rw [slice, slice, pow_add, Nat.mul_comm (2 ^ d), Nat.mul_div_mul_right _ _ (Nat.two_pow_pos d)]

theorem concatBits_append (bpv : Nat) (values : List Nat) (v : Nat) :
    concatBits bpv (values ++ [v]) = concatBits bpv values * 2 ^ bpv + v := by
  rw [concatBits, List.foldl_append]
  rfl

/-- The last value of a packed string stands lowest. -/
theorem slice_append_low {c v bpv : Nat} (hv : v < 2 ^ bpv) : slice (c * 2 ^ bpv + v) 0 bpv = v := by
  rw [slice_zero, Nat.mul_comm, Nat.mul_add_mod, Nat.mod_eq_of_lt hv]

/-- And it does not touch what stands above it. -/
theorem slice_append_high {c v bpv : Nat} (lo n : Nat) (hv : v < 2 ^ bpv) :
    slice (c * 2 ^ bpv + v) (bpv + lo) n = slice c lo n := by
  have hdrop : (c * 2 ^ bpv + v) / 2 ^ bpv = c := by
    rw [Nat.mul_comm, Nat.mul_add_div (Nat.two_pow_pos bpv), Nat.div_eq_of_lt hv, Nat.add_zero]
  rw [slice, slice, pow_add, ← Nat.div_div_eq_div_mul, hdrop]

/-- Value `i` is the `i`-th piece of the string from its most significant end. -/
theorem slice_concatBits (bpv : Nat) (values : List Nat) : (∀ v ∈ values, v < 2 ^ bpv) → ∀ (i : Nat)
    (hi : i < values.length), slice (concatBits bpv values) ((values.length - 1 - i) * bpv) bpv = values[i] := by
  induction values using List.reverseRecOn with
  | nil => exact fun _ i hi => absurd hi (Nat.not_lt_zero i)
  | append_singleton values v ih =>
    intro hfit i hi
    have hv : v < 2 ^ bpv := hfit v (List.mem_append_right _ (List.mem_singleton_self v))
    have hlen : (values ++ [v]).length - 1 = values.length := by
      rw [List.length_append, List.length_singleton, Nat.add_sub_cancel]
    rw [concatBits_append, hlen]
    by_cases hlast : i < values.length
    · have hplace : (values.length - i) * bpv = bpv + (values.length - 1 - i) * bpv := by
        rw [show values.length - i = values.length - 1 - i + 1 by omega, Nat.add_one_mul, Nat.add_comm]
      rw [hplace, slice_append_high _ _ hv, List.getElem_append_left hlast,
        ih (fun x hx => hfit x (List.mem_append_left _ hx)) i hlast]
    · have hi' : i = values.length := by
        rw [List.length_append, List.length_singleton] at hi
        omega
      subst hi'
      rw [Nat.sub_self, Nat.zero_mul, slice_append_low hv, List.getElem_concat_length rfl]

/-! ### The words of a packed payload -/

variable {m : Memory}

theorem slice_lt (v lo n : Nat) : slice v lo n < 2 ^ n := Nat.mod_lt _ (Nat.two_pow_pos n)

/-- The bytes of `w` words, the last of which has `k` of them when `k` is not 0. -/
theorem length_payloadBytes (bits : Nat) {k : Nat} : ∀ w : Nat,
    (payloadBytes bits k (w + 1)).length = if k = 0 then 4 * (w + 1) else 4 * w + k
  | 0 => by
    rw [payloadBytes]
    by_cases hk : k = 0
    · simp [hk, length_leBytes, payloadBytes]
    · simp [hk, length_leBytes]
  | w + 1 => by
    rw [payloadBytes, if_neg (by omega), List.length_append, length_leBytes, length_payloadBytes bits w]
    split <;> omega

/-- A held full word is read back. -/
theorem fetchWordAt_leBytes {a e word : Nat} (h : Holds m a (leBytes word 4)) (he : 4 ≤ e - a) (hw : word < 2 ^ 32) :
    (fetchWordAt m a e).1.toNat = word := by
  rw [fetchWordAt_full he, h.leValue_eq]
  exact Nat.mod_eq_of_lt hw

/-- A held tail word is read back: the bits of the bytes it lacks are 0. -/
theorem fetchWordAt_tail_leBytes {a e k word : Nat} (h : Holds m a (leBytes (word / 2 ^ (8 * (4 - k))) k))
    (he : e - a = k) (hk : k < 4) (hw : word < 2 ^ 32) (hzero : 2 ^ (8 * (4 - k)) ∣ word) :
    (fetchWordAt m a e).1.toNat = word := by
  have hfit : word / 2 ^ (8 * (4 - k)) < 2 ^ (8 * k) := by
    refine Nat.div_lt_of_lt_mul (hw.trans_le (le_of_eq ?_))
    rw [← pow_add]
    congr 1
    omega
  rw [fetchWordAt_tail (by omega), he, h.leValue_eq, Nat.mod_eq_of_lt hfit, Nat.div_mul_cancel hzero]

/-- Word `j` of a held payload is the `j`-th 32-bit piece of the string (30_encoding.md R56). -/
theorem payloadWord_eq {bits k : Nat} (hk : k < 4) (hzero : k ≠ 0 → 2 ^ (8 * (4 - k)) ∣ bits) : ∀ (w j base e : Nat),
    Holds m base (payloadBytes bits k w) → e = base + (payloadBytes bits k w).length → j < w →
    (payloadWord m base e j).toNat = slice bits (32 * (w - 1 - j)) 32
  | w + 1, j, base, e, h, he, hj => by
    have hlen := length_payloadBytes bits (k := k) w
    rw [payloadWord]
    rw [payloadBytes] at h
    by_cases htail : w = 0 ∧ k ≠ 0
    · obtain ⟨rfl, hk0⟩ := htail
      obtain rfl : j = 0 := by omega
      rw [if_pos ⟨rfl, hk0⟩] at h
      rw [if_neg hk0] at hlen
      refine fetchWordAt_tail_leBytes h (by omega) hk (slice_lt _ _ _) ?_
      rw [slice, Nat.mul_zero, pow_zero, Nat.div_one]
      exact (Nat.dvd_mod_iff (pow_dvd_pow 2 (by omega))).mpr (hzero hk0)
    · rw [if_neg htail] at h
      obtain ⟨hword, hrest⟩ := holds_append.mp h
      rw [length_leBytes] at hrest
      cases j with
      | zero => exact fetchWordAt_leBytes hword (by split at hlen <;> omega) (slice_lt _ _ _)
      | succ j =>
        have hrestLen : e = base + 4 + (payloadBytes bits k w).length := by
          rw [he, payloadBytes, if_neg htail, List.length_append, length_leBytes, Nat.add_assoc]
        have hnext := payloadWord_eq hk hzero w j (base + 4) e hrest hrestLen (by omega)
        rw [payloadWord] at hnext
        rw [show base + 4 * (j + 1) = base + 4 + 4 * j by ring, hnext]
        congr 2
        omega

/-- Bit `p` of a held payload is bit `p` of the string from its most significant end. -/
theorem payloadBit_eq {bits k w base e : Nat} (hk : k < 4) (hzero : k ≠ 0 → 2 ^ (8 * (4 - k)) ∣ bits)
    (h : Holds m base (payloadBytes bits k w)) (he : e = base + (payloadBytes bits k w).length) :
    ∀ p < 32 * w, payloadBit m base e p = bits.testBit (32 * w - 1 - p) := by
  intro p hp
  rw [payloadBit, Config.wordBits, BitVec.getLsbD, payloadWord_eq hk hzero w (p / 32) base e h he (by omega), slice,
    Nat.testBit_mod_two_pow, Nat.testBit_div_two_pow, decide_eq_true (show 32 - 1 - p % 32 < 32 by omega),
    Bool.true_and]
  congr 1
  omega

/-! ### The stream of `pack` -/

/-- The number of words of a block's payload. -/
def packedWords (bpv : Nat) (values : List Nat) : Nat := (values.length * bpv + 31) / 32

/-- The bit string `pack` writes, filled up with zeros to whole words. -/
def packedBits (bpv : Nat) (values : List Nat) : Nat :=
  concatBits bpv values * 2 ^ (32 * packedWords bpv values - values.length * bpv)

/-- The bytes of the last word, 0 for a whole word. -/
def packedTail (bpv : Nat) (values : List Nat) : Nat := (values.length * bpv + 7) / 8 % 4

/-- The payload `pack` writes. -/
def packedPayload (bpv : Nat) (values : List Nat) : List Byte :=
  payloadBytes (packedBits bpv values) (packedTail bpv values) (packedWords bpv values)

theorem pack_eq (sel : BitVec 2) (n : Nat) (bpv : BitVec 6) (values : List Nat) :
    pack sel n bpv values
      = headerByte sel bpv :: (leBytes values.length n ++ packedPayload bpv.toNat values) := rfl

theorem length_packedPayload (bpv : Nat) (values : List Nat) :
    (packedPayload bpv values).length = payloadLen values.length bpv := by
  rw [packedPayload, payloadLen]
  cases hw : packedWords bpv values with
  | zero =>
    rw [packedWords] at hw
    rw [payloadBytes, List.length_nil]
    omega
  | succ w =>
    rw [packedWords] at hw
    rw [length_payloadBytes, packedTail]
    split <;> omega

/-- The last word's missing bytes are among the zeros the string was filled up with. -/
theorem packedBits_tail_zero (bpv : Nat) (values : List Nat) (hk : packedTail bpv values ≠ 0) :
    2 ^ (8 * (4 - packedTail bpv values)) ∣ packedBits bpv values := by
  refine Dvd.dvd.mul_left (pow_dvd_pow 2 ?_) _
  rw [packedTail] at hk ⊢
  rw [packedWords]
  omega

/-- Where a buffer holds the payload, the bits the unit takes for value `i` are the value. -/
theorem bitsValue_packedPayload {bpv base e : Nat} {values : List Nat} (hfit : ∀ v ∈ values, v < 2 ^ bpv)
    (h : Holds m base (packedPayload bpv values)) (he : e = base + payloadLen values.length bpv) {i : Nat}
    (hi : i < values.length) : bitsValue (payloadBit m base e) (i * bpv) bpv = values[i] := by
  have hbit := payloadBit_eq (Nat.mod_lt _ (by decide)) (packedBits_tail_zero bpv values) h
    (he.trans (congrArg (base + ·) (length_packedPayload bpv values).symm))
  have hsplit : (values.length - 1 - i) * bpv + (i * bpv + bpv) = values.length * bpv := by
    rw [← Nat.add_one_mul, ← Nat.add_mul]
    congr 1
    omega
  have hroom : values.length * bpv ≤ 32 * packedWords bpv values := by
    rw [packedWords]
    omega
  have hplace : 32 * packedWords bpv values - i * bpv - bpv
      = 32 * packedWords bpv values - values.length * bpv + (values.length - 1 - i) * bpv := by omega
  rw [bitsValue_testBit hbit (i * bpv) bpv (by omega), hplace, packedBits, slice_shifted,
    slice_concatBits bpv values hfit i hi]

/-- Reading a held payload delivers the values packed (30_encoding.md R56). -/
theorem readPayload_packed {bpv base : Nat} {values : List Nat} (hbpv : bpv ≤ 32) (hfit : ∀ v ∈ values, v < 2 ^ bpv)
    (h : Holds m base (packedPayload bpv values)) :
    readPayload m bpv values.length base
      = .values (values.map (BitVec.ofNat 32)) (base + payloadLen values.length bpv) := by
  have hlen := h.le_len
  rw [length_packedPayload] at hlen
  rw [readPayload]
  simp only [if_neg (Nat.not_lt.mpr hlen)]
  by_cases h0 : values.length = 0
  · rw [if_pos h0, List.length_eq_zero_iff.mp h0, List.map_nil]
  · have hbits : 0 + values.length * bpv ≤ 8 * (base + payloadLen values.length bpv - base) := by
      rw [payloadLen]
      omega
    rw [if_neg h0, unpackLoop_eq hbpv atBit_first hbits]
    congr 1
    refine List.ext_getElem (by simp) fun i hi hi' => ?_
    rw [List.length_map] at hi'
    rw [List.getElem_map, List.getElem_map, List.getElem_range, Nat.zero_add,
      bitsValue_packedPayload hfit h rfl hi']

/-- Reading a held stream goes through its header, its count and its payload. -/
theorem vbuRead_packed {sel : BitVec 2} {n a : Nat} {bpv : BitVec 6} {values : List Nat}
    (hsel : Config.selWidth sel = some n) (hl : bpvLegal bpv = true) (hfit : ∀ v ∈ values, v < 2 ^ bpv.toNat)
    (hcount : values.length < 2 ^ (8 * n)) (h : Holds m a (pack sel n bpv values)) :
    vbuRead m a = .values (values.map (BitVec.ofNat 32)) (a + (pack sel n bpv values).length) := by
  rw [pack_eq] at h ⊢
  obtain ⟨hlt, hcell, hrest⟩ := h
  obtain ⟨hfield, hpayload⟩ := holds_append.mp hrest
  have hvalue := hfield.leValue_eq
  have hlen := hfield.le_len
  rw [Nat.mod_eq_of_lt hcount] at hvalue
  rw [length_leBytes] at hlen hpayload
  rw [vbuRead_counted (n := n) hlt (by rwa [hcell, headerBpv_headerByte]) (by rwa [hcell, headerSel_headerByte]), hcell,
    headerBpv_headerByte, readCounted, read_eq_leValue hlen, hvalue]
  refine (readPayload_packed (bpvLegal_bounds hl).2 hfit hpayload).trans ?_
  congr 1
  rw [List.length_cons, List.length_append, length_leBytes, length_packedPayload]
  omega

end Sys2Proof.Proofs.PackRoundTrip

namespace Sys2Proof.Proofs

open Sys2Proof.Machine HeldBytes PackRoundTrip

/-- Settles O52: a loaded buffer holds the stream between what stands before and after it. -/
theorem packedStreamReadsBack : Obligations.PackedStreamReadsBack :=
  fun sel n bpv values before after hsel hl hfit hcount =>
    vbuRead_packed hsel hl hfit hcount (holds_middle before (pack sel n bpv values) after)

end Sys2Proof.Proofs
end
